-- ==== Sys2Proof/Word.lean ====
section
/-! DEFINITION. The word types of H4DF: the byte of the serial channel (R11, R51), the 16-bit HCI
opcode or operand (R83, R88) and the 19-bit operation word (R88). -/

namespace Sys2Proof

/-- A byte: 8 bits, unsigned (R11). -/
abbrev Byte := BitVec 8

/-- A 16-bit value: an HCI command opcode, `handle_flags`, or the `arg` of an operation word
(R83, R75, R88). -/
abbrev Half := BitVec 16

/-- An operation word: `op` in bits 18:16, `arg` in bits 15:0 (R88). -/
abbrev OpWord := BitVec 19

end Sys2Proof
end

