-- ==== Sys2Proof/Config.lean ====
section
/-! DEFINITION. The configuration of one block instance: the ring capacity `CAP`, the assembly-buffer
size `PKT_MAX` and the classifier table `CT` (R6), with the free values that stand for the two the
spec leaves without a number. A configuration is plain data and stands in the state, so that every
statement over states is a statement over every configuration. -/

namespace Sys2Proof

/-- The five classes an opcode can have (R16, R84). -/
inductive Class where
  | bt
  | ble
  | mix
  | notSure
  | onlyOne
deriving DecidableEq, Repr, Inhabited

/-- A registered group's record (R85). The record `Unregistered` of R85 is the absence of an entry
for the OGF in the table (R6: `CT` is a partial map; R86). -/
inductive Group where
  /-- Every OCF of the group has the one class. -/
  | uniform (c : Class)
  /-- The listed OCFs have the class listed with them, every other OCF the group's default. -/
  | perOcf (dflt : Class) (overrides : List (BitVec 10 × Class))
deriving DecidableEq, Repr, Inhabited

/-- The classifier table `CT`: a partial map from OGF to group record, as a list in ascending order
of OGF (R6, R40, R85) [DESIGN CHOICE 16, safe]. -/
abbrev ClassTable := List (BitVec 6 × Group)

/-- What is fixed at link-open and never written by an operation (R6, R40, R167). -/
structure Config where
  /-- `CAP`: the greatest number of bytes the ring holds. -/
  cap : Nat
  /-- `PKT_MAX`: the size in bytes of the assembly buffer `pkt`. -/
  pktMax : Nat
  /-- `CT`: the classifier table. -/
  ct : ClassTable
deriving DecidableEq, Repr

/-- OPEN PARAMETER (R6, D17): `CAP - 1` of the instance that `State.reset` describes. The spec gives
`CAP` no value, only `CAP >= 1`; nothing is known of this number. -/
opaque Config.spareCapacity : Nat

/-- OPEN PARAMETER (R6, R156, D16): the classifier table of the instance that `State.reset`
describes, as far as it is well formed. The reference table is not in the spec; nothing is known of
this one. -/
opaque Config.openTable : ClassTable

/-- `PKT_MAX` where nothing else is chosen: the length of the largest frame (R6, R79). -/
def Config.defaultPktMax : Nat := 65540

/-- `CT0`, the spec's test fixture (R157): not the reference table. Only `(3, 3) -> Mix` and
`(8, 6) -> Ble` are facts about the hardware. -/
def Config.ct0 : ClassTable :=
  [(1, .perOcf .bt [(6, .notSure)]), (3, .perOcf .onlyOne [(3, .mix)]), (8, .uniform .ble)]

end Sys2Proof
end

