-- ==== Sys2Proof/Syntax.lean ====
section
/-! DEFINITION. The abstract syntax: the four packet kinds and the eleven rows of the opcode table,
that is the seven operations of the block (R89) and the four H4 frames of the byte stream
(R74 to R77). -/

namespace Sys2Proof

/-- The packet kinds; `df_kind` holds one of these four and no other value ever occurs
(R16, R27, R72). -/
inductive Kind where
  | command
  | acl
  | sco
  | event
deriving DecidableEq, Repr, Inhabited

/-- One constructor per row of the opcode table.

The seven operations are what software asks of the block, spelt as operation words (R89).
The four frames are what the byte stream asks of the deframer: the pushed bytes are what the
deframer executes (R63). A frame's length field is no operand of its own: it is the number of
payload bytes (R94). -/
inductive Instr where
  /-- `PUSH(b)`: append one byte to the ring (R100). -/
  | push (b : Byte)
  /-- `POP_N(max)`: remove up to `max` bytes from the front of the ring (R101). -/
  | popN (max : Half)
  /-- `STEP`: run the deframer to need, packet or fault (R126). -/
  | step
  /-- `DRAIN`: deliver every complete packet the ring holds (R127). -/
  | drain
  /-- `CLASSIFY(opcode)`: look an HCI command opcode up in `CT` (R150). -/
  | classify (opcode : Half)
  /-- `RESET_LINK`: empty ring, idle deframer, no fault (R165). -/
  | resetLink
  /-- `EXIT`: the same, and close the link (R166). -/
  | exit
  /-- A Command frame: type byte 1, opcode, `param_len`, parameters (R74). -/
  | h4Command (opcode : Half) (payload : List Byte)
  /-- An Acl frame: type byte 2, `handle_flags`, 16-bit `data_len`, data (R75). -/
  | h4Acl (handleFlags : Half) (payload : List Byte)
  /-- A Sco frame: type byte 3, `handle_flags`, 8-bit `data_len`, data (R76). -/
  | h4Sco (handleFlags : Half) (payload : List Byte)
  /-- An Event frame: type byte 4, `event_code`, `param_len`, parameters (R77). -/
  | h4Event (eventCode : Byte) (payload : List Byte)
deriving DecidableEq, Repr

end Sys2Proof
end

