-- ==== Sys2Proof/Decode.lean ====
section
/-! DEFINITION. The three decoders of the block (R70) and their inverses: the H4 frame on the byte
stream (R71 to R82, R93), the 16-bit HCI opcode (R83 to R86) and the 19-bit operation word (R88 to
R90). Every decoder is total and rejects by name. -/

namespace Sys2Proof

/-! ### Bytes and 16-bit values -/

/-- A 16-bit value from its two bytes, the byte that arrived first being the less significant
(R11, R53, R54). -/
def le16 (lo hi : Byte) : Half := hi ++ lo

/-- The less significant byte of a 16-bit value, sent first (R54, R93). -/
def lowByte (v : Half) : Byte := v.extractLsb' 0 8

/-- The more significant byte of a 16-bit value, sent second (R54, R93). -/
def highByte (v : Half) : Byte := v.extractLsb' 8 8

/-- The unsigned value of a byte list, least significant byte first (R53, R78). -/
def leNat : List Byte → Nat
  | [] => 0
  | b :: bs => b.toNat + 256 * leNat bs

/-! ### The H4 frame -/

/-- The type byte of a kind (R72). -/
def Kind.typeByte : Kind → Byte
  | .command => 0x01
  | .acl => 0x02
  | .sco => 0x03
  | .event => 0x04

/-- The kind a type byte selects; all 8 bits are compared and 252 values are illegal (R72, R81). -/
def Kind.ofTypeByte (t : Byte) : Option Kind :=
  if t = 0x01 then some .command
  else if t = 0x02 then some .acl
  else if t = 0x03 then some .sco
  else if t = 0x04 then some .event
  else none

/-- The 3-bit code of `df_kind`: the type byte's value (R27). -/
def Kind.code (k : Kind) : BitVec 3 := k.typeByte.setWidth 3

/-- `P(kind)`: the preamble size in bytes (R6, R73). -/
def preambleSize : Kind → Nat
  | .command => 3
  | .acl => 4
  | .sco => 3
  | .event => 2

/-- The frame index of the (first) length byte (R74 to R78). -/
def lengthIndex : Kind → Nat
  | .command => 3
  | .acl => 3
  | .sco => 3
  | .event => 2

/-- How many bytes the length field has (R74 to R78). -/
def lengthBytes : Kind → Nat
  | .command => 1
  | .acl => 2
  | .sco => 1
  | .event => 1

/-- The content length `L` of a frame whose type byte and preamble are `frame` (R78). -/
def contentLength (k : Kind) (frame : List Byte) : Nat :=
  leNat ((frame.drop (lengthIndex k)).take (lengthBytes k))

/-- `frame_len = 1 + P(kind) + L` (R79). -/
def frameLength (k : Kind) (len : Nat) : Nat := 1 + preambleSize k + len

/-- Why a code is rejected. -/
inductive DecodeError where
  /-- An operation word with `op = 111` (R90). -/
  | unassignedOp (w : OpWord)
  /-- An operation word with a must-be-zero operand bit set (R90). -/
  | operandNotZero (w : OpWord)
  /-- A type byte that is none of 1, 2, 3, 4 (R81). -/
  | badType (t : Byte)
  /-- The stream ends before the type byte (R129, residue `Idle`). -/
  | noTypeByte
  /-- The stream ends inside the preamble (R129, residue `Header`). -/
  | shortPreamble (k : Kind) (collected : Nat)
  /-- The stream ends inside the content (R129, residue `Content`). -/
  | shortContent (k : Kind) (needed collected : Nat)
  /-- Bytes stand after the frame where one whole frame was asked for. -/
  | trailingBytes (n : Nat)
deriving DecidableEq, Repr

/-- The frame of a kind with its first two header bytes (one for Event) and its payload
(R74 to R77). -/
def frameInstr (k : Kind) (preamble payload : List Byte) : Instr :=
  match k with
  | .command => .h4Command (le16 (preamble.getD 0 0) (preamble.getD 1 0)) payload
  | .acl => .h4Acl (le16 (preamble.getD 0 0) (preamble.getD 1 0)) payload
  | .sco => .h4Sco (le16 (preamble.getD 0 0) (preamble.getD 1 0)) payload
  | .event => .h4Event (preamble.getD 0 0) payload

/-- The frame of kind `k` whose bytes after the type byte begin `rest`, once the preamble is
complete and has announced `len` content bytes (R80, R129). -/
def takeFrame (k : Kind) (rest : List Byte) (len : Nat) : Except DecodeError (Instr × List Byte) :=
  if (rest.drop (preambleSize k)).length < len then
    .error (.shortContent k len (rest.drop (preambleSize k)).length)
  else
    .ok (frameInstr k rest ((rest.drop (preambleSize k)).take len),
      (rest.drop (preambleSize k)).drop len)

/-- Read one frame from the front of a byte stream and return it with the bytes after it: the type
byte fixes the preamble size, the preamble fixes the content length, nothing else is validated
(R71, R80, R82, R129). -/
def decodeFrame : List Byte → Except DecodeError (Instr × List Byte)
  | [] => .error .noTypeByte
  | t :: rest =>
    match Kind.ofTypeByte t with
    | none => .error (.badType t)
    | some k =>
      if rest.length < preambleSize k then .error (.shortPreamble k rest.length)
      else takeFrame k rest (contentLength k (t :: rest))

/-! ### The operation word -/

/-- `op = OW[18:16]` (R88). -/
def opField (w : OpWord) : BitVec 3 := w.extractLsb' 16 3

/-- `arg = OW[15:0]` (R88). -/
def argField (w : OpWord) : Half := w.extractLsb' 0 16

/-- An operation without an operand: `arg` must be 0 (R89, R90). -/
def decodeNullary (w : OpWord) (i : Instr) : Except DecodeError Instr :=
  if argField w = 0 then .ok i else .error (.operandNotZero w)

/-- Decode an operation word by the table of R89; an illegal word is rejected (R90). -/
def decodeOp (w : OpWord) : Except DecodeError Instr :=
  match (opField w).toNat with
  | 0 => if highByte (argField w) = 0 then .ok (.push (lowByte (argField w))) else .error (.operandNotZero w)
  | 1 => .ok (.popN (argField w))
  | 2 => decodeNullary w .step
  | 3 => decodeNullary w .drain
  | 4 => .ok (.classify (argField w))
  | 5 => decodeNullary w .resetLink
  | 6 => decodeNullary w .exit
  | _ => .error (.unassignedOp w)

/-! ### Encoders -/

/-- An instruction's code: an operation word, or the bytes of a frame. -/
inductive Code where
  | word (w : OpWord)
  | frame (bytes : List Byte)
deriving DecidableEq, Repr

/-- The operation word of `op` and `arg` (R88). -/
def opWord (op : BitVec 3) (arg : Half) : OpWord := op ++ arg

/-- `ser`: a frame as bytes, `[type] ++ preamble ++ payload`, 16-bit fields low byte first
(R93, R74 to R77). -/
def serCommand (opcode : Half) (payload : List Byte) : List Byte :=
  0x01 :: lowByte opcode :: highByte opcode :: BitVec.ofNat 8 payload.length :: payload

@[inherit_doc serCommand]
def serAcl (handleFlags : Half) (payload : List Byte) : List Byte :=
  0x02 :: lowByte handleFlags :: highByte handleFlags ::
    lowByte (BitVec.ofNat 16 payload.length) :: highByte (BitVec.ofNat 16 payload.length) :: payload

@[inherit_doc serCommand]
def serSco (handleFlags : Half) (payload : List Byte) : List Byte :=
  0x03 :: lowByte handleFlags :: highByte handleFlags :: BitVec.ofNat 8 payload.length :: payload

@[inherit_doc serCommand]
def serEvent (eventCode : Byte) (payload : List Byte) : List Byte :=
  0x04 :: eventCode :: BitVec.ofNat 8 payload.length :: payload

/-- The code of an instruction (R89, R93). -/
def encode : Instr → Code
  | .push b => .word (opWord 0 (b.setWidth 16))
  | .popN m => .word (opWord 1 m)
  | .step => .word (opWord 2 0)
  | .drain => .word (opWord 3 0)
  | .classify o => .word (opWord 4 o)
  | .resetLink => .word (opWord 5 0)
  | .exit => .word (opWord 6 0)
  | .h4Command o p => .frame (serCommand o p)
  | .h4Acl h p => .frame (serAcl h p)
  | .h4Sco h p => .frame (serSco h p)
  | .h4Event e p => .frame (serEvent e p)

/-- The inverse of `encode`: an operation word, or exactly one whole frame. -/
def decode : Code → Except DecodeError Instr
  | .word w => decodeOp w
  | .frame bytes =>
    match decodeFrame bytes with
    | .error e => .error e
    | .ok (i, []) => .ok i
    | .ok (_, b :: rest) => .error (.trailingBytes (b :: rest).length)

/-! ### The byte stream -/

/-- What is left when no further whole frame can be read from a stream (R129). -/
inductive Residue where
  /-- Nothing is left. -/
  | idle
  /-- The stream stops inside a preamble. -/
  | header (k : Kind) (collected : Nat)
  /-- The stream stops inside the content. -/
  | content (k : Kind) (needed collected : Nat)
  /-- A bad type byte, with the bytes after it. -/
  | badType (t : Byte) (unread : List Byte)
deriving DecidableEq, Repr

/-- `parse` with a bound on the number of frames. -/
def parseUpTo : Nat → List Byte → List Instr × Residue
  | 0, _ => ([], .idle)
  | n + 1, bytes =>
    match decodeFrame bytes with
    | .ok (i, rest) => (i :: (parseUpTo n rest).1, (parseUpTo n rest).2)
    | .error (.badType t) => ([], .badType t (bytes.drop 1))
    | .error (.shortPreamble k c) => ([], .header k c)
    | .error (.shortContent k n c) => ([], .content k n c)
    | .error _ => ([], .idle)

/-- `parse(s)`: the frames of a byte stream, in order, and its residue (R129). A frame has at least
three bytes, so the bound is never reached. -/
def parse (bytes : List Byte) : List Instr × Residue := parseUpTo (bytes.length + 1) bytes

/-! ### The HCI opcode -/

/-- `OGF = opcode[15:10]` (R83). -/
def ogf (opcode : Half) : BitVec 6 := opcode.extractLsb' 10 6

/-- `OCF = opcode[9:0]` (R83). -/
def ocf (opcode : Half) : BitVec 10 := opcode.extractLsb' 0 10

/-- The value a list of pairs gives a key, none where the key is not listed. -/
def assoc {n : Nat} {α : Type} (k : BitVec n) : List (BitVec n × α) → Option α
  | [] => none
  | (x, v) :: rest => if x = k then some v else assoc k rest

/-- The class of an opcode by the table: `OnlyOne` for an unregistered OGF, the group's one class,
or the OCF's override and else the group's default (R86, R150). -/
def classOf (ct : ClassTable) (opcode : Half) : Class :=
  match assoc (ogf opcode) ct with
  | none => .onlyOne
  | some (.uniform c) => c
  | some (.perOcf d overrides) =>
    match assoc (ocf opcode) overrides with
    | some c => c
    | none => d

/-- The 3-bit code of a class, in the order the spec lists them (R84). -/
def Class.code : Class → BitVec 3
  | .bt => 0
  | .ble => 1
  | .mix => 2
  | .notSure => 3
  | .onlyOne => 4

/-! ### The host's table words -/

/-- The instruction the decoder reads from a row's word, its bits numbered as the opcode table
numbers them: one byte is a frame's type byte (the preamble bytes above it are 0, so the frame has
no content), more is an operation word. -/
def decodeTableWord (nbits w : Nat) : Option Instr :=
  if nbits ≤ 8 then
    if w < 256 then
      match decodeFrame (BitVec.ofNat 8 w :: List.replicate 4 0) with
      | .ok (i, _) => some i
      | .error _ => none
    else none
  else if w < 2 ^ 19 then
    match decodeOp (BitVec.ofNat 19 w) with
    | .ok i => some i
    | .error _ => none
  else none

end Sys2Proof
end

