-- ==== Sys2Proof/WellFormed.lean ====
section
/-! DEFINITION. Well-formedness: which terms of `Instr` the encoding can carry, and which
configurations the spec admits (R6, R152). -/

namespace Sys2Proof

/-- An instruction the encoding can carry: a frame's payload fits its length field, 8 bits for
Command, Sco and Event, 16 bits for Acl (R74 to R79). The operands of the operations are bit vectors
of the width of their field and need no check (R89). -/
abbrev Instr.wf : Instr → Bool
  | .push _ => true
  | .popN _ => true
  | .step => true
  | .drain => true
  | .classify _ => true
  | .resetLink => true
  | .exit => true
  | .h4Command _ p => p.length < 256
  | .h4Acl _ p => p.length < 65536
  | .h4Sco _ p => p.length < 256
  | .h4Event _ p => p.length < 256

/-- The keys of a list of pairs stand in strictly ascending order, so each stands once. -/
def ascending {n : Nat} {α : Type} : List (BitVec n × α) → Bool
  | [] => true
  | [_] => true
  | (k, _) :: (k', v) :: rest => k < k' && ascending ((k', v) :: rest)

/-- A group record lists each OCF at most once (R85, R152 (b)). -/
def Group.wf : Group → Bool
  | .uniform _ => true
  | .perOcf _ overrides => ascending overrides

/-- Well-formedness of `CT` (R152): each OGF and each OCF of a group at most once, and the two known
points of the reference table (R156). That keys lie in `0 .. 63` and `0 .. 1023` and that every class
is one of the five holds by their types. -/
def tableWf (ct : ClassTable) : Bool :=
  ascending ct && ct.all (fun e => e.2.wf) &&
    classOf ct 0x0C03 = .mix && classOf ct 0x2006 = .ble

/-- The configurations the spec admits (R6, R152). -/
def Config.wf (c : Config) : Bool := 1 ≤ c.cap && 5 ≤ c.pktMax && tableWf c.ct

/-- The configuration of `State.reset`: any capacity, the default `PKT_MAX`, any well-formed table.
Nothing is known of `cap` but that it is at least 1, and nothing of `ct` but R152
[DESIGN CHOICE 3, safe]. -/
def Config.chosen : Config where
  cap := Config.spareCapacity + 1
  pktMax := Config.defaultPktMax
  ct := if tableWf Config.openTable then Config.openTable else Config.ct0

end Sys2Proof
end

