-- ==== Sys2Proof/Machine/State.lean ====
section
/-! DEFINITION. The state of one block instance (R20 to R45), its outputs (R38), the operations its
two contexts have in progress (R9, R195), the moves its environment has in store, and the two ways
the model stops. -/

namespace Sys2Proof.Machine

/-! ### The deframer and what it delivers -/

/-- `df_state` (R26, R27). -/
inductive DfState where
  | idle
  | header
  | content
  | complete
deriving DecidableEq, Repr

/-- The header fields of a delivered record (R94). -/
inductive Header where
  | command (opcode : Half) (paramLen : Byte)
  | acl (handleFlags dataLen : Half)
  | sco (handleFlags : Half) (dataLen : Byte)
  | event (eventCode paramLen : Byte)
deriving DecidableEq, Repr

/-- The record carried by `deliver` (R94). -/
structure RawPacket where
  /-- The whole frame: type byte, preamble, content. -/
  raw : List Byte
  kind : Kind
  header : Header
  /-- The content alone. -/
  payload : List Byte
deriving DecidableEq, Repr

/-! ### Faults of the block, results and outputs -/

/-- The causes that set a bit of `fault` (R180), each with what it records. -/
inductive FaultCode where
  /-- Bit 0: a popped type byte is none of 1, 2, 3, 4; the byte is recorded (R181). -/
  | badType (t : Byte)
  /-- Bit 1: `PUSH` found the ring full (R182). -/
  | rbOverflow
  /-- Bit 2: `PUSH` or `POP_N` found an index outside the ring (R183). -/
  | idxCorrupt
  /-- Bit 3: a preamble announced a frame that does not fit `pkt` (R184). -/
  | frameTooLong
deriving DecidableEq, Repr

/-- Why a `DRAIN` ended (R37, R127). -/
inductive DrainEnd where
  | needMore
  | fault
deriving DecidableEq, Repr

/-- The results operations return (R37). The result `IllegalOp` is the event `illegalOp`, the count
`FEED` returns the event `fed`: neither belongs to an operation word of the table. -/
inductive Result where
  | ok
  | full
  | popped (count : Nat) (bytes : List Byte)
  | needMore
  | packetComplete
  | fault
  | drained (k : Nat) (why : DrainEnd)
  | classified (c : Class)
  | done
  | closed
deriving DecidableEq, Repr

/-- What a micro-transition returns (R120); `progress` is internal to `STEP`. -/
inductive MicroResult where
  | needMore
  | progress
  | packetComplete
  | fault
deriving DecidableEq, Repr

/-- What leaves the block (R10, R38), but for the level `fault_out`, which is read off the state. -/
inductive Event where
  /-- An operation returned its result (R10 (a), R37). -/
  | returned (i : Instr) (r : Result)
  /-- An illegal operation word was refused with `IllegalOp` (R90). -/
  | illegalOp (w : OpWord)
  /-- A `FEED` returned the number of bytes accepted (R168). -/
  | fed (accepted : Nat)
  /-- A packet was delivered to the sink (R38 (a), R124). -/
  | deliver (p : RawPacket)
  /-- The notification of a `FEED` (R38 (b), R168). -/
  | dataReady
deriving DecidableEq, Repr

/-! ### Agents -/

/-- The two execution contexts that run an operation of more than one transition (R8, R195). -/
inductive Context where
  | producer
  | consumer
deriving DecidableEq, Repr

/-- The consumer's operation in progress: `STEP` and `DRAIN` are sequences of micro-transitions
(R9, R126, R127). -/
inductive ConsumerOp where
  | idle
  | step
  /-- A `DRAIN` that has delivered `k` packets so far. -/
  | drain (k : Nat)
deriving DecidableEq, Repr

/-- The producer's `FEED` in progress: the bytes still to be offered and the number accepted so far
(R168). -/
structure FeedProgress where
  rest : List Byte
  accepted : Nat
deriving DecidableEq, Repr

/-- One move of the environment: the interleaving of transitions is a list of them (R8, R9, R228)
[DESIGN CHOICE 5, safe]. -/
inductive Move where
  /-- An agent issues an operation word (R88). -/
  | issue (w : OpWord)
  /-- The producer issues `FEED` (R168). -/
  | feed (bytes : List Byte)
  /-- The worker takes an `InData` or `H5InData` message: `DRAIN` (R92, R169). -/
  | onIndata
  /-- Hardware reset, which is link-open, with the configuration chosen for it (R167, R228). -/
  | linkOpen (c : Config)
  /-- A context takes the next transition of its operation in progress, if it has one. -/
  | turn (c : Context)
  /-- The operations in progress run to their end before the next move. -/
  | await
deriving DecidableEq, Repr

/-! ### The state -/

/-- The state. The first group is the spec's (R20), the second the model's own: what has left the
block [DESIGN CHOICE 14, safe], what the agents have in progress, and what the environment will do
[DESIGN CHOICE 5, safe]. Indices and counters are naturals, states and kinds are enumerations
[DESIGN CHOICE 15, safe]. -/
structure State where
  /-- `CAP`, `PKT_MAX`, `CT`: fixed at link-open (R6, R40, R167). -/
  cfg : Config
  /-- `rb_mem`: ring storage, indices `0 .. N-1` (R21). -/
  rbMem : List Host.Cell
  /-- `rb_wr`: the slot the next accepted `PUSH` writes (R22). -/
  rbWr : Nat
  /-- `rb_rd`: the slot of the oldest unread byte (R23). -/
  rbRd : Nat
  /-- `df_state` (R26, R27). -/
  dfState : DfState
  /-- `df_kind`: the kind of the frame in assembly (R27). -/
  dfKind : Kind
  /-- `df_needed`: bytes the current phase needs (R28). -/
  dfNeeded : Nat
  /-- `df_collected`: bytes of the current phase already in `pkt` (R29). -/
  dfCollected : Nat
  /-- `pkt`: the packet assembly buffer, indices `0 .. PKT_MAX-1` (R30). -/
  pkt : List Host.Cell
  /-- `fault`: four sticky bits (R33). -/
  fault : BitVec 4
  /-- `bad_type`: the byte of the most recent BAD_TYPE (R34). -/
  badType : Byte
  /-- `lk_open` (R35). -/
  lkOpen : Bool
  /-- Model's own: what has left the block, newest first (R10, R38). -/
  events : List Event
  /-- Model's own: the consumer's operation in progress (R9). -/
  active : ConsumerOp
  /-- Model's own: the producer's `FEED` in progress (R168). -/
  feeding : Option FeedProgress
  /-- Model's own: the environment's moves still to come (R9). -/
  moves : List Move
deriving DecidableEq, Repr

/-- The state right after hardware reset with configuration `c` and nothing to do (R45, R211).
`rb_mem` and `pkt` hold no value (R212) [DESIGN CHOICE 2, safe]; `df_kind` and `bad_type`, which R45
leaves unspecified, hold `Command` and 0 [DESIGN CHOICE 1, unsafe]. -/
def State.resetWith (c : Config) : State where
  cfg := c
  rbMem := []
  rbWr := 0
  rbRd := 0
  dfState := .idle
  dfKind := .command
  dfNeeded := 0
  dfCollected := 0
  pkt := []
  fault := 0
  badType := 0
  lkOpen := true
  events := []
  active := .idle
  feeding := none
  moves := []

/-- The state right after reset (R45), for a configuration of which only R6 and R152 are known. -/
def State.reset : State := State.resetWith Config.chosen

/-! ### Stops -/

/-- The two storage spaces an access can miss (R50). -/
inductive Space where
  | ring
  | packet
deriving DecidableEq, Repr

/-- The model's own faults: the machine stops. No state that keeps the invariant of
`Sys2Proof/Safety.lean` raises one. They are not the block's faults, which are bits of `fault`. -/
inductive Fault where
  /-- Raised by `POP_N` and the deframer when they would read a byte that nothing has written since
  reset (R212). Safe: the spec gives the read no value and no run reaches it. -/
  | unwrittenByte (space : Space) (index : Nat)
  /-- Raised by the deframer when it would store at an index of `pkt` that does not exist
  (R50, R132). Safe: no run of an admitted configuration reaches it. -/
  | outsideSpace (space : Space) (index : Nat)
deriving DecidableEq, Repr

/-- The requests the model gives no meaning. -/
inductive Refusal where
  /-- Raised by `exec` for an instruction without a meaning in this model. Safe. -/
  | notModelled (mnemonic : String)
  /-- Raised by `STEP` and `DRAIN` when the consumer has an operation in progress: the rules give two
  consumers at once no meaning and a model refuses the schedule (R106, R216). Safe. No step raises
  it: a move that asks for it waits. -/
  | secondConsumer
deriving DecidableEq, Repr

/-- An outcome of a transition. -/
abbrev Outcome := Host.Outcome State Fault Refusal

end Sys2Proof.Machine
end

