-- ==== Sys2Proof/Machine/Flags.lean ====
section
/-! DEFINITION. The four sticky bits of `fault`: which cause sets which, and how they read
(R33, R180). They are the only stored flags of the block (R37). -/

namespace Sys2Proof.Machine

/-- The bit of `fault` a cause sets (R180). -/
def FaultCode.bit : FaultCode → Nat
  | .badType _ => 0
  | .rbOverflow => 1
  | .idxCorrupt => 2
  | .frameTooLong => 3

/-- The mask of a cause's bit. -/
def FaultCode.mask (f : FaultCode) : BitVec 4 := 1#4 <<< f.bit

/-- `fault` with a cause's bit set and the other bits as they were (R186 (1), R189). -/
def withFaultBit (fault : BitVec 4) (f : FaultCode) : BitVec 4 := fault ||| f.mask

/-- `bad_type` after a fault: only BAD_TYPE records anything (R180, R186 (2)). -/
def recordedType (badType : Byte) : FaultCode → Byte
  | .badType t => t
  | .rbOverflow => badType
  | .idxCorrupt => badType
  | .frameTooLong => badType

/-- Is bit `n` of `fault` set (R33)? -/
def State.faultBit (s : State) (n : Nat) : Bool := s.fault.getLsbD n

/-- `fault_out`: the level `fault != 0` (R38 (c), R186 (4)). -/
def State.faultOut (s : State) : Bool := s.fault ≠ 0

/-- A micro-transition is enabled only on an open link without a fault (R125). -/
def State.enabled (s : State) : Bool := s.lkOpen && !s.faultOut

end Sys2Proof.Machine
end

