-- ==== Sys2Proof/Machine/Operands.lean ====
section
/-! DEFINITION. The operand forms: where in `rb_mem` and `pkt` each operation reads and writes
(R57), and how the record of a frame is read off its bytes (R94). -/

namespace Sys2Proof.Machine

/-- `N = CAP + 1`: the number of ring slots and the modulus of both indices (R6). -/
def State.slots (s : State) : Nat := s.cfg.cap + 1

/-- The ring index `k` slots after `i`, taken mod `N` (R12, R103). -/
def State.ringIndex (s : State) (i k : Nat) : Nat := (i + k) % s.slots

/-- The index of `pkt` the next preamble byte goes to: `1 + df_collected` (R30, R122). -/
def State.preambleIndex (s : State) : Nat := 1 + s.dfCollected

/-- The index of `pkt` the next content byte goes to: `1 + P(df_kind) + df_collected`
(R30, R123). -/
def State.contentIndex (s : State) : Nat := 1 + preambleSize s.dfKind + s.dfCollected

/-- How many bytes the current phase still wants (R122, R123, R132). -/
def State.want (s : State) : Nat := s.dfNeeded - s.dfCollected

/-- `pkt_len`: the number of valid bytes in `pkt` (R31). -/
def State.pktLen (s : State) : Nat :=
  match s.dfState with
  | .idle => 0
  | .header => 1 + s.dfCollected
  | .content => 1 + preambleSize s.dfKind + s.dfCollected
  | .complete => 1 + preambleSize s.dfKind + s.dfCollected

/-- The header fields of a frame's bytes (R94, R74 to R77). -/
def headerOf (k : Kind) (raw : List Byte) : Header :=
  match k with
  | .command => .command (le16 (raw.getD 1 0) (raw.getD 2 0)) (raw.getD 3 0)
  | .acl => .acl (le16 (raw.getD 1 0) (raw.getD 2 0)) (le16 (raw.getD 3 0) (raw.getD 4 0))
  | .sco => .sco (le16 (raw.getD 1 0) (raw.getD 2 0)) (raw.getD 3 0)
  | .event => .event (raw.getD 1 0) (raw.getD 2 0)

/-- The record delivered for a frame of kind `k` whose bytes are `raw` (R94). -/
def packetOf (k : Kind) (raw : List Byte) : RawPacket where
  raw := raw
  kind := k
  header := headerOf k raw
  payload := raw.drop (1 + preambleSize k)

end Sys2Proof.Machine
end

