-- ==== Sys2Proof/Machine/Ops.lean ====
section
/-! DEFINITION. The named operations over memory and registers that the meanings share: one byte of
a memory, runs of bytes, the ring's pure functions (R102), `PUSH` and `POP_N` as the deframer and
`FEED` use them, taking a fault (R186) and leaving one (R190). -/

namespace Sys2Proof.Machine

/-! ### Memory -/

/-- The byte a memory holds at an address, none where nothing has been written since reset: an
unlisted address holds no value (R21, R30, R212) [DESIGN CHOICE 2, safe]. -/
def memRead : List Host.Cell → Nat → Option Byte
  | [], _ => none
  | (x, b) :: rest, a => if x = a then some b else memRead rest a

/-- A memory with one byte written, addresses kept strictly rising. -/
def memWrite : List Host.Cell → Nat → Byte → List Host.Cell
  | [], a, b => [(a, b)]
  | (x, c) :: rest, a, b =>
    if a < x then (a, b) :: (x, c) :: rest
    else if a = x then (a, b) :: rest
    else (x, c) :: memWrite rest a b

/-- The canonical form of a memory: addresses strictly rising. No entry can equal what an unlisted
address holds, which is no value. -/
def memWf : List Host.Cell → Bool
  | [] => true
  | [_] => true
  | (x, _) :: (y, c) :: rest => x < y && memWf ((y, c) :: rest)

/-- Read one byte of a space; a byte nothing has written since reset is the model's fault (R212). -/
def readByte (space : Space) (m : List Host.Cell) (a : Nat) : Except Fault Byte :=
  match memRead m a with
  | some b => .ok b
  | none => .error (.unwrittenByte space a)

/-- The `count` bytes of a ring of `n` slots from slot `i` on, indices taken mod `n`
(R13, R101). -/
def readRing (n : Nat) (m : List Host.Cell) (i : Nat) : Nat → Except Fault (List Byte)
  | 0 => .ok []
  | count + 1 =>
    match readByte .ring m (i % n) with
    | .error f => .error f
    | .ok b =>
      match readRing n m (i + 1) count with
      | .error f => .error f
      | .ok bytes => .ok (b :: bytes)

/-- The `count` bytes of `pkt` from index `i` on (R13, R57). -/
def readPkt (m : List Host.Cell) (i : Nat) : Nat → Except Fault (List Byte)
  | 0 => .ok []
  | count + 1 =>
    match readByte .packet m i with
    | .error f => .error f
    | .ok b =>
      match readPkt m (i + 1) count with
      | .error f => .error f
      | .ok bytes => .ok (b :: bytes)

/-- `pkt` with bytes stored at consecutive indices from `i` on; its indices are `0 .. size-1`, that is
`0 .. PKT_MAX-1` (R50, R57) [DESIGN CHOICE 4, safe]. -/
def storePkt (size : Nat) (m : List Host.Cell) (i : Nat) :
    List Byte → Except Fault (List Host.Cell)
  | [] => .ok m
  | b :: bytes =>
    if i < size then storePkt size (memWrite m i b) (i + 1) bytes
    else .error (.outsideSpace .packet i)

/-! ### Outputs -/

/-- The state after an output has left the block (R38). -/
def State.emit (s : State) (e : Event) : State := { s with events := e :: s.events }

/-- The state after an operation has returned its result (R37). -/
def State.ret (s : State) (i : Instr) (r : Result) : State := s.emit (.returned i r)

/-! ### Faults of the block -/

/-- `raise Fault(code, info)`: the one way a fault is taken. The cause's bit of `fault` is set and
the others keep their values, the info is recorded, nothing is saved and nothing is vectored
(R186). The halt that follows is `State.enabled`. -/
def State.raise (s : State) (f : FaultCode) : State :=
  { s with fault := withFaultBit s.fault f, badType := recordedType s.badType f }

/-- The deframer back in `Idle`: after a delivered or aborted packet and after a reset
(R26, R124, R184). -/
def State.toIdle (s : State) : State :=
  { s with dfState := .idle, dfNeeded := 0, dfCollected := 0 }

/-- The writes of `RESET_LINK`, the one way back from a fault: empty ring, idle deframer, all of
`fault` clear, everything else as it was (R165, R190). -/
def State.clearLink (s : State) : State :=
  { s.toIdle with rbWr := 0, rbRd := 0, fault := 0 }

/-! ### The ring -/

/-- `avail = (rb_wr - rb_rd) mod N`, the mathematical remainder (R12, R102). -/
def State.avail (s : State) : Nat := (((s.rbWr : Int) - (s.rbRd : Int)) % (s.slots : Int)).toNat

/-- `free = CAP - avail` (R102). -/
def State.free (s : State) : Nat := s.cfg.cap - s.avail

/-- `is_empty` (R102). -/
def State.isEmpty (s : State) : Bool := s.rbWr = s.rbRd

/-- `is_full`: advancing `rb_wr` would make it equal `rb_rd` (R102). -/
def State.isFull (s : State) : Bool := s.ringIndex s.rbWr 1 = s.rbRd

/-- The test for "buffer-index corruption" (R183); the model can express it, no run meets it
[DEDUCED 9, safe]. -/
def State.idxCorrupt (s : State) : Bool := s.slots ≤ s.rbWr || s.slots ≤ s.rbRd

/-- The state after a byte has been appended at `rb_wr` (R100). -/
def State.append (s : State) (b : Byte) : State :=
  { s with rbMem := memWrite s.rbMem s.rbWr b, rbWr := s.ringIndex s.rbWr 1 }

/-- `PUSH(b)` on its own: the result and the state after (R100). -/
def pushByte (b : Byte) (s : State) : Result × State :=
  if !s.lkOpen then (.closed, s)
  else if s.idxCorrupt then (.full, s.raise .idxCorrupt)
  else if s.isFull then (.full, s.raise .rbOverflow)
  else (.ok, s.append b)

/-- `POP_N(max)` on an open link: the bytes, oldest first, and the state after; `count` is their
number (R101). -/
def popBytes (max : Nat) (s : State) : Except Fault (List Byte × State) :=
  if s.idxCorrupt then .ok ([], s.raise .idxCorrupt)
  else
    match readRing s.slots s.rbMem s.rbRd (min max s.avail) with
    | .error f => .error f
    | .ok bytes => .ok (bytes, { s with rbRd := s.ringIndex s.rbRd (min max s.avail) })

end Sys2Proof.Machine
end

