-- ==== Sys2Proof/Machine/Classifier.lean ====
section
/-! DEFINITION. The meaning of `CLASSIFY` (R150 to R157); the lookup is `classOf` of
`Sys2Proof/Decode.lean`. -/

namespace Sys2Proof.Machine

/-- `CLASSIFY(opcode)` (R150): reads `CT` only, writes nothing, answers on a closed link and while
halted too (R151, R172). -/
def execClassify (opcode : Half) (s : State) : Outcome :=
  .next (s.ret (.classify opcode) (.classified (classOf s.cfg.ct opcode)))

end Sys2Proof.Machine
end

