-- ==== Sys2Proof/Machine/Frames.lean ====
section
/-! DEFINITION. The meanings of the four H4 frames. The deframer executes the byte stream (R63):
`T_IDLE`, `T_HEADER` and `T_CONTENT` fetch a frame from the ring into `pkt`, and `T_COMPLETE` executes
it, that is delivers its record and makes the deframer ready for the next frame (R124). A frame's
meaning is that execution; the fetch is in `Sys2Proof/Machine/Deframer.lean`. -/

namespace Sys2Proof.Machine

/-- The writes and the output of `T_COMPLETE` for the record `p`: one `deliver`, then `Idle`; the
sink cannot refuse and does not re-enter the block (R124, R38, R222) [DEDUCED 13, safe]. -/
def completeFrame (p : RawPacket) (s : State) : State := (s.emit (.deliver p)).toIdle

/-- Execute a frame given by its kind and its bytes. On a closed link or while a fault is pending
the deframer is halted: no packet is delivered and nothing changes (R125) [DEDUCED 7, safe]. -/
def execFrame (k : Kind) (raw : List Byte) (s : State) : Outcome :=
  if s.enabled then .next (completeFrame (packetOf k raw) s) else .next s

/-- A Command frame (R74). -/
def execH4Command (opcode : Half) (payload : List Byte) (s : State) : Outcome :=
  execFrame .command (serCommand opcode payload) s

/-- An Acl frame (R75). -/
def execH4Acl (handleFlags : Half) (payload : List Byte) (s : State) : Outcome :=
  execFrame .acl (serAcl handleFlags payload) s

/-- A Sco frame (R76). -/
def execH4Sco (handleFlags : Half) (payload : List Byte) (s : State) : Outcome :=
  execFrame .sco (serSco handleFlags payload) s

/-- An Event frame (R77). -/
def execH4Event (eventCode : Byte) (payload : List Byte) (s : State) : Outcome :=
  execFrame .event (serEvent eventCode payload) s

end Sys2Proof.Machine
end

