-- ==== Sys2Proof/Machine/Deframer.lean ====
section
/-! DEFINITION. The H4 deframer: the four micro-transitions (R121 to R124), one pass of the loops
that are `STEP` and `DRAIN`, and the meanings of these two operations (R126, R127). -/

namespace Sys2Proof.Machine

/-- A micro-transition's own `POP_N`, and what it goes on to do with the bytes. Where the `POP_N`
raises IDX_CORRUPT the transition ends there with result `Fault` and does nothing else (R13, R14, R183)
[DEDUCED 9, safe]. -/
def withPopped (max : Nat) (s : State)
    (go : List Byte → State → Except Fault (MicroResult × State)) : Except Fault (MicroResult × State) :=
  if s.idxCorrupt then .ok (.fault, s.raise .idxCorrupt)
  else
    match popBytes max s with
    | .error f => .error f
    | .ok (bytes, s') => go bytes s'

/-- `T_IDLE`: fetch and decode the type byte (R121). -/
def tIdle (s : State) : Except Fault (MicroResult × State) :=
  withPopped 1 s fun bytes s' =>
  match bytes with
  | [] => .ok (.needMore, s')
  | t :: _ =>
    match Kind.ofTypeByte t with
    | none => .ok (.fault, s'.raise (.badType t))
    | some k =>
      match storePkt s.cfg.pktMax s.pkt 0 [t] with
      | .error f => .error f
      | .ok pkt =>
        .ok (.progress,
          { s' with
            pkt := pkt, dfState := .header, dfKind := k, dfNeeded := preambleSize k, dfCollected := 0 })

/-- The content length `L` of a frame of kind `k` whose preamble stands in `pkt`, from its one or two
length bytes (R57, R78). -/
def readContentLength (k : Kind) (pkt : List Host.Cell) : Except Fault Nat :=
  match readPkt pkt (lengthIndex k) (lengthBytes k) with
  | .error f => .error f
  | .ok bytes => .ok (leNat bytes)

/-- `T_HEADER` once the preamble is complete: derive the content length and go on to `Content`, or
abort a frame that does not fit `pkt` (R122, R184). -/
def finishPreamble (s : State) : Except Fault (MicroResult × State) :=
  match readContentLength s.dfKind s.pkt with
  | .error f => .error f
  | .ok len =>
    if s.cfg.pktMax < frameLength s.dfKind len then .ok (.fault, (s.raise .frameTooLong).toIdle)
    else .ok (.progress, { s with dfState := .content, dfNeeded := len, dfCollected := 0 })

/-- `T_HEADER`: collect the preamble (R122). -/
def tHeader (s : State) : Except Fault (MicroResult × State) :=
  withPopped s.want s fun bytes s' =>
  match storePkt s.cfg.pktMax s.pkt s.preambleIndex bytes with
  | .error f => .error f
  | .ok pkt =>
    if s.dfCollected + bytes.length < s.dfNeeded then
      .ok (.needMore, { s' with pkt := pkt, dfCollected := s.dfCollected + bytes.length })
    else finishPreamble { s' with pkt := pkt }

/-- `T_CONTENT`: collect the content (R123). -/
def tContent (s : State) : Except Fault (MicroResult × State) :=
  withPopped s.want s fun bytes s' =>
  match storePkt s.cfg.pktMax s.pkt s.contentIndex bytes with
  | .error f => .error f
  | .ok pkt =>
    if s.dfCollected + bytes.length < s.dfNeeded then
      .ok (.needMore, { s' with pkt := pkt, dfCollected := s.dfCollected + bytes.length })
    else
      .ok (.progress,
        { s' with pkt := pkt, dfState := .complete, dfCollected := s.dfCollected + bytes.length })

/-- `T_COMPLETE`: deliver the frame in `pkt` and return to `Idle` (R124). -/
def tComplete (s : State) : Except Fault (MicroResult × State) :=
  match readPkt s.pkt 0 (frameLength s.dfKind s.dfNeeded) with
  | .error f => .error f
  | .ok raw => .ok (.packetComplete, completeFrame (packetOf s.dfKind raw) s)

/-- The micro-transition whose precondition `df_state` meets (R120, R126). -/
def microTransition (s : State) : Except Fault (MicroResult × State) :=
  match s.dfState with
  | .idle => tIdle s
  | .header => tHeader s
  | .content => tContent s
  | .complete => tComplete s

/-- The consumer's operation ends and returns its result; `why` is what ended it
(R37, R126, R127). A `DRAIN` returns the number of packets it has delivered. -/
def finishConsumer (s : State) (why : DrainEnd) : State :=
  match s.active with
  | .idle => s
  | .step =>
    { s with active := .idle }.ret .step
      (match why with
       | .needMore => .needMore
       | .fault => .fault)
  | .drain k => { s with active := .idle }.ret .drain (.drained k why)

/-- The consumer's operation ends on a closed link (R126, R127, R172). -/
def closeConsumer (s : State) : State :=
  match s.active with
  | .idle => s
  | .step => { s with active := .idle }.ret .step .closed
  | .drain _ => { s with active := .idle }.ret .drain .closed

/-- A packet has been delivered: `STEP` returns `PacketComplete`, `DRAIN` counts it and loops
(R126, R127). -/
def countPacket (s : State) : State :=
  match s.active with
  | .idle => s
  | .step => { s with active := .idle }.ret .step .packetComplete
  | .drain k => { s with active := .drain (k + 1) }

/-- One pass of the loop of the consumer's operation in progress, which is one atomic transition
(R9, R126): closed and halted end the operation, else one micro-transition is made, and a pass that
ends the operation returns its result [DEDUCED 10, safe]. Without an operation in progress nothing
happens. -/
def consumerPass (s : State) : Outcome :=
  if s.active = .idle then .next s
  else if !s.lkOpen then .next (closeConsumer s)
  else if s.faultOut then .next (finishConsumer s .fault)
  else
    match microTransition s with
    | .error f => .fault f
    | .ok (.progress, s') => .next s'
    | .ok (.packetComplete, s') => .next (countPacket s')
    | .ok (.needMore, s') => .next (finishConsumer s' .needMore)
    | .ok (.fault, s') => .next (finishConsumer s' .fault)

/-- Issue a consumer operation and make its first pass. A second one while one is in progress has
no meaning (R106, R216) [DESIGN CHOICE 8, safe]. -/
def beginConsumer (op : ConsumerOp) (s : State) : Outcome :=
  if s.active = .idle then consumerPass { s with active := op } else .refused .secondConsumer

/-- `STEP` (R126): the first pass; the passes that follow are the consumer's turns, between which a
`PUSH` may fall (R9). -/
def execStep (s : State) : Outcome := beginConsumer .step s

/-- `DRAIN` (R127): the first pass, with no packet delivered yet. -/
def execDrain (s : State) : Outcome := beginConsumer (.drain 0) s

end Sys2Proof.Machine
end

