-- ==== Sys2Proof/Machine/Link.lean ====
section
/-! DEFINITION. Link control: the meanings of `RESET_LINK` and `EXIT`, and the two acts that have no
operation word, link-open and `FEED` (R165 to R173). -/

namespace Sys2Proof.Machine

/-- `RESET_LINK` (R165); it is not halted by a fault, and a closed link refuses it (R172, R187). -/
def execResetLink (s : State) : Outcome :=
  if !s.lkOpen then .next (s.ret .resetLink .closed)
  else .next (s.clearLink.ret .resetLink .done)

/-- `EXIT` (R166): the writes of `RESET_LINK`, then the link is closed. What the producer and the
environment have in store is theirs [DEDUCED 20, unsafe]. -/
def execExit (s : State) : Outcome :=
  if !s.lkOpen then .next (s.ret .exit .closed)
  else .next ({ s.clearLink with lkOpen := false }.ret .exit .done)

/-- The configuration a link-open leaves: the environment chooses it while the link is closed, it
does not change while the link is open, and one outside R6 and R152 cannot be chosen
(R167, R228). -/
def openedConfig (c : Config) (s : State) : Config := if !s.lkOpen && c.wf then c else s.cfg

/-- Link-open, which is hardware reset (R167, R210, R211): every register it writes is as after reset,
both memories hold no value again (R212), `df_kind` and `bad_type`, which it does not write (R43), keep
theirs. Nothing is emitted, and what the agents have in progress is theirs
[DESIGN CHOICE 11, unsafe]. -/
def linkOpen (c : Config) (s : State) : State :=
  { State.resetWith (openedConfig c s) with
    dfKind := s.dfKind, badType := s.badType,
    events := s.events, active := s.active, feeding := s.feeding, moves := s.moves }

/-- How many bytes of a `FEED` are accepted after one more `PUSH` (R168). -/
def countAccepted (accepted : Nat) : Result → Nat
  | .ok => accepted + 1
  | _ => accepted

/-- The next transition of the `FEED` in progress (R168): one `PUSH`, whatever the earlier ones
returned, or, after the last, the `data_ready` and the count [DEDUCED 12, safe]. -/
def feedPass (s : State) : Outcome :=
  match s.feeding with
  | none => .next s
  | some ⟨[], accepted⟩ => .next ({ s with feeding := none }.emit .dataReady |>.emit (.fed accepted))
  | some ⟨b :: rest, accepted⟩ =>
    .next ({ (pushByte b s).2 with
      feeding := some ⟨rest, countAccepted accepted (pushByte b s).1⟩ }.ret (.push b) (pushByte b s).1)

/-- The producer issues `FEED` and makes its first transition (R168). -/
def beginFeed (bytes : List Byte) (s : State) : Outcome :=
  feedPass { s with feeding := some ⟨bytes, 0⟩ }

end Sys2Proof.Machine
end

