-- ==== Sys2Proof/Machine/Ring.lean ====
section
/-! DEFINITION. The meanings of the ring buffer's operations: `PUSH` and `POP_N`
(R100 to R107). -/

namespace Sys2Proof.Machine

/-- `PUSH(b)` (R100): `Closed` on a closed link, `Full` with a fault on a corrupt index or a full
ring, else the byte is appended. It does not read `fault` (R43, R187) and never waits (R194). -/
def execPush (b : Byte) (s : State) : Outcome :=
  .next ((pushByte b s).2.ret (.push b) (pushByte b s).1)

/-- `POP_N(max)` (R101): `Closed` on a closed link, `(0, [])` with a fault on a corrupt index, else
the oldest `min(max, avail)` bytes. It does not read `fault` (R187). -/
def execPopN (max : Half) (s : State) : Outcome :=
  if !s.lkOpen then .next (s.ret (.popN max) .closed)
  else
    match popBytes max.toNat s with
    | .error f => .fault f
    | .ok (bytes, s') => .next (s'.ret (.popN max) (.popped bytes.length bytes))

end Sys2Proof.Machine
end

