-- ==== Sys2Proof/Machine/Dispatch.lean ====
section
/-! DEFINITION. The dispatch: one arm per row of the opcode table. -/

namespace Sys2Proof.Machine

def exec (i : Instr) (s : State) : Host.Outcome State Fault Refusal :=
  match i with
  | .push b => Sys2Proof.Machine.execPush b s
  | .popN max => Sys2Proof.Machine.execPopN max s
  | .step => Sys2Proof.Machine.execStep s
  | .drain => Sys2Proof.Machine.execDrain s
  | .classify opcode => Sys2Proof.Machine.execClassify opcode s
  | .resetLink => Sys2Proof.Machine.execResetLink s
  | .exit => Sys2Proof.Machine.execExit s
  | .h4Command opcode payload => Sys2Proof.Machine.execH4Command opcode payload s
  | .h4Acl handleFlags payload => Sys2Proof.Machine.execH4Acl handleFlags payload s
  | .h4Sco handleFlags payload => Sys2Proof.Machine.execH4Sco handleFlags payload s
  | .h4Event eventCode payload => Sys2Proof.Machine.execH4Event eventCode payload s

end Sys2Proof.Machine
end

