-- ==== Sys2Proof/Machine/Fetch.lean ====
section
/-! DEFINITION. What the machine takes up next. The block fetches no instruction at a program counter
(R36): operation words come from the agents, in the order the environment's moves give, and frames
come from the ring through the deframer. Each transition of R9 is one step. -/

namespace Sys2Proof.Machine

/-- Has a context an operation in progress? -/
def State.busy (s : State) : Context → Bool
  | .producer => s.feeding.isSome
  | .consumer => s.active ≠ .idle

/-- The next transition of the operation a context has in progress. -/
def contextPass (c : Context) (s : State) : Outcome :=
  match c with
  | .producer => feedPass s
  | .consumer => consumerPass s

/-- The context that issues an operation; `CLASSIFY` may come from any (R89, R195)
[DEDUCED 19, safe]. A frame is issued by no context. -/
def issuer : Instr → Option Context
  | .push _ => some .producer
  | .popN _ => some .consumer
  | .step => some .consumer
  | .drain => some .consumer
  | .classify _ => none
  | .resetLink => some .consumer
  | .exit => some .consumer
  | .h4Command _ _ => none
  | .h4Acl _ _ => none
  | .h4Sco _ _ => none
  | .h4Event _ _ => none

/-- The context a move needs free: each context runs an operation to its end before the next
(R170, R196, R215, R216). An illegal word needs none. -/
def Move.needs (s : State) : Move → Option Context
  | .issue w =>
    match decodeOp w with
    | .ok i => issuer i
    | .error _ => none
  | .feed _ => some .producer
  | .onIndata => some .consumer
  | .linkOpen _ => none
  | .turn _ => none
  | .await => if s.busy .consumer then some .consumer else some .producer

/-- The context whose operation in progress a move must wait for. -/
def Move.waitsFor (s : State) (m : Move) : Option Context :=
  match m.needs s with
  | none => none
  | some c => if s.busy c then some c else none

/-- Issue an operation word: run the operation it decodes to, or refuse it with `IllegalOp`, which
changes no state (R90). -/
def issueWord (w : OpWord) (s : State) : Outcome :=
  match decodeOp w with
  | .ok i => exec i s
  | .error _ => .next (s.emit (.illegalOp w))

/-- Make a move that need not wait (R92, R167 to R169). -/
def perform (m : Move) (s : State) : Outcome :=
  match m with
  | .issue w => issueWord w s
  | .feed bytes => beginFeed bytes s
  | .onIndata => exec .drain s
  | .linkOpen c => .next (linkOpen c s)
  | .turn c => contextPass c s
  | .await => .next s

/-- No move is in store: the operations in progress go on, the consumer's first; with none in
progress the block is at rest. -/
def goOn (s : State) : Outcome :=
  if s.busy .consumer then contextPass .consumer s else contextPass .producer s

/-- One transition of the block (R9): the next move, or, where it has to wait, the transition it
waits for [DESIGN CHOICE 5, safe]. -/
def runNext (s : State) : Outcome :=
  match s.moves with
  | [] => goOn s
  | m :: rest =>
    match m.waitsFor s with
    | some c => contextPass c s
    | none => perform m { s with moves := rest }

/-- No operation in progress, so that the next move is not kept waiting. -/
def State.atRest (s : State) : State := { s with active := .idle, feeding := none }

/-- The operation word `w` as the next move. -/
def placeWord (w : OpWord) (s : State) : State := { s.atRest with moves := .issue w :: s.moves }

/-- The four bytes of a frame of kind `k` without content, from its type byte `t` on, in `pkt`, and
the deframer about to execute it within a `STEP`. -/
def placeFrame (k : Kind) (t : Byte) (s : State) : State :=
  { s.atRest with
    dfState := .complete, dfKind := k, dfNeeded := 0, dfCollected := 0,
    pkt := [(0, t), (1, 0), (2, 0), (3, 0), (4, 0)],
    active := .step,
    moves := .turn .consumer :: s.moves }

/-- The state whose next step runs the instruction of a table word: one byte is a frame's type byte,
more is an operation word. An illegal type byte is no frame and stands in no place: the state is
left as it is [DESIGN CHOICE 6, safe]. -/
def placeTableWord (nbits w : Nat) (s : State) : State :=
  if nbits ≤ 8 then
    match Kind.ofTypeByte (BitVec.ofNat 8 w) with
    | some k => placeFrame k (BitVec.ofNat 8 w) s
    | none => s
  else placeWord (BitVec.ofNat 19 w) s

end Sys2Proof.Machine
end

