-- ==== Sys2Proof/Machine/Step.lean ====
section
/-! DEFINITION. One step of the machine, and how the host places one instruction before it. -/

namespace Sys2Proof.Machine

/-- One atomic transition of the block: R9 makes an execution an interleaving of such. -/
def step (s : State) : Host.Outcome State Fault Refusal := runNext s

/-- `s` with the instruction of a table word where the next step takes it: an operation word as the
next move, a frame in `pkt` with the deframer in `Complete` inside a `STEP`. -/
def State.withFetchWord (s : State) (nbits w : Nat) : State := placeTableWord nbits w s

end Sys2Proof.Machine
end

