-- ==== Sys2Proof/Safety.lean ====
section
/-! DEFINITION. What holds of every state the block can reach (R24, R32, R183), what the block holds
of the byte stream (R25, R31), and when a run is over (R227). -/

namespace Sys2Proof.Machine

/-! ### What the block holds of the stream -/

/-- `rb_fifo`: the bytes of the valid window, oldest first (R25). -/
def ringContents (s : State) : Except Fault (List Byte) := readRing s.slots s.rbMem s.rbRd s.avail

/-- `pkt[0 .. pkt_len-1]`: the bytes of the frame in assembly (R30, R31). -/
def assembled (s : State) : Except Fault (List Byte) := readPkt s.pkt 0 s.pktLen

/-- The block holds the bytes `stream`, accepted and not yet delivered: those of the frame in
assembly, then those of the ring (R128, R129). -/
def Holds (s : State) (stream : List Byte) : Prop :=
  ∃ frame ring, assembled s = .ok frame ∧ ringContents s = .ok ring ∧ stream = frame ++ ring

/-- The packets among a list of outputs (newest first), in the order they were delivered: the block's
output trace (R38). -/
def deliveries (events : List Event) : List RawPacket :=
  events.reverse.filterMap fun e =>
    match e with
    | .deliver p => some p
    | _ => none

/-- The record of a frame in terms of its operands: the bytes `ser` gives, and a length field equal to
the number of payload bytes (R93, R94). The seven operations deliver nothing. -/
def frameRecord : Instr → Option RawPacket
  | .push _ => none
  | .popN _ => none
  | .step => none
  | .drain => none
  | .classify _ => none
  | .resetLink => none
  | .exit => none
  | .h4Command o p => some ⟨serCommand o p, .command, .command o (BitVec.ofNat 8 p.length), p⟩
  | .h4Acl h p => some ⟨serAcl h p, .acl, .acl h (BitVec.ofNat 16 p.length), p⟩
  | .h4Sco h p => some ⟨serSco h p, .sco, .sco h (BitVec.ofNat 8 p.length), p⟩
  | .h4Event e p => some ⟨serEvent e p, .event, .event e (BitVec.ofNat 8 p.length), p⟩

/-- The deframer stands where the residue of a stream says, every byte of the stream popped or, after
a bad type byte, left unread (R129). -/
def StandsAt (s : State) : Residue → Prop
  | .idle => s.fault = 0 ∧ s.dfState = .idle ∧ s.isEmpty = true
  | .header k c => s.fault = 0 ∧ s.dfState = .header ∧ s.dfKind = k ∧ s.dfCollected = c ∧ s.isEmpty = true
  | .content k n c =>
    s.fault = 0 ∧ s.dfState = .content ∧ s.dfKind = k ∧ s.dfNeeded = n ∧ s.dfCollected = c ∧
      s.isEmpty = true
  | .badType t unread =>
    s.faultBit 0 = true ∧ s.dfState = .idle ∧ s.badType = t ∧ ringContents s = .ok unread

/-- Two states that differ only in what nothing observes: the bytes of `rb_mem` outside the valid
window and of `pkt` beyond `pkt_len`, `df_kind` in `Idle`, `bad_type`, and where in the ring the window
lies (R10, R25, R41). -/
structure Alike (s t : State) : Prop where
  cfg : t.cfg = s.cfg
  ring : ringContents t = ringContents s
  df_state : t.dfState = s.dfState
  df_kind : s.dfState ≠ .idle → t.dfKind = s.dfKind
  df_needed : t.dfNeeded = s.dfNeeded
  df_collected : t.dfCollected = s.dfCollected
  frame : assembled t = assembled s
  fault : t.fault = s.fault
  lk_open : t.lkOpen = s.lkOpen
  events : t.events = s.events
  active : t.active = s.active
  feeding : t.feeding = s.feeding
  moves : t.moves = s.moves

/-! ### The invariant -/

/-- Every address a memory lists is below `n`. -/
def memBelow (m : List Host.Cell) (n : Nat) : Bool := m.all fun c => c.1 < n

/-- The ring's invariant (R24 (a), (b)): indices in range, memory in canonical form and within the
ring, and every slot of the valid window written (R21). -/
structure RingInv (s : State) : Prop where
  wr_lt : s.rbWr < s.slots
  rd_lt : s.rbRd < s.slots
  mem_wf : memWf s.rbMem = true
  mem_below : memBelow s.rbMem s.slots = true
  window : ∀ k, k < s.avail → (memRead s.rbMem (s.ringIndex s.rbRd k)).isSome = true

/-- What `df_needed` and `df_collected` are in each deframer state (R28, R29, R32). -/
structure PhaseInv (s : State) : Prop where
  idle : s.dfState = .idle → s.dfNeeded = 0 ∧ s.dfCollected = 0
  header : s.dfState = .header → s.dfNeeded = preambleSize s.dfKind ∧ s.dfCollected < s.dfNeeded
  content : s.dfState = .content →
    readContentLength s.dfKind s.pkt = .ok s.dfNeeded ∧ s.dfCollected ≤ s.dfNeeded ∧
      frameLength s.dfKind s.dfNeeded ≤ s.cfg.pktMax
  complete : s.dfState = .complete →
    readContentLength s.dfKind s.pkt = .ok s.dfNeeded ∧ s.dfCollected = s.dfNeeded ∧
      frameLength s.dfKind s.dfNeeded ≤ s.cfg.pktMax

/-- The deframer's invariant (R32): the counters of the phase, `pkt` in canonical form and within its
size, `pkt[0 .. pkt_len-1]` written, and the type byte of the frame at `pkt[0]`. -/
structure DeframerInv (s : State) : Prop where
  phase : PhaseInv s
  pkt_wf : memWf s.pkt = true
  pkt_below : memBelow s.pkt s.cfg.pktMax = true
  written : ∀ i, i < s.pktLen → (memRead s.pkt i).isSome = true
  type_byte : s.dfState ≠ .idle → memRead s.pkt 0 = some s.dfKind.typeByte

/-- What the bits of `fault` say (R183, R181, R184): the indices are never corrupt, and after a fault
of the deframer itself it is in `Idle` with no second one. -/
structure FaultInv (s : State) : Prop where
  no_corrupt : s.faultBit 2 = false
  one_deframer_fault : ¬ (s.faultBit 0 = true ∧ s.faultBit 3 = true)
  aborted : s.faultBit 0 = true ∨ s.faultBit 3 = true → s.dfState = .idle

/-- A closed block holds the reset values (R166, R172). -/
def ClosedInv (s : State) : Prop :=
  s.lkOpen = false →
    s.rbWr = 0 ∧ s.rbRd = 0 ∧ s.dfState = .idle ∧ s.dfNeeded = 0 ∧ s.dfCollected = 0 ∧ s.fault = 0

/-- The invariant of the block: everything R24, R32, R183 and R172 say of its registers and
memories. -/
structure BlockInv (s : State) : Prop where
  cfg : s.cfg.wf = true
  ring : RingInv s
  deframer : DeframerInv s
  faults : FaultInv s
  closed : ClosedInv s

/-- Between two operations of the consumer, and without a fault, the deframer waits for bytes: it is
not in `Complete`, and in `Content` it wants at least one (R32, R126, R227). -/
def AtRestInv (s : State) : Prop :=
  s.active = .idle → s.fault = 0 →
    s.dfState ≠ .complete ∧ (s.dfState = .content → s.dfCollected < s.dfNeeded)

/-- The invariant of the machine: true after reset, kept by every step. -/
structure Inv (s : State) : Prop extends BlockInv s where
  at_rest : AtRestInv s

/-! ### Runs -/

/-- Several instructions one after the other, each by its meaning. -/
def execAll : List Instr → State → Outcome
  | [], s => .next s
  | i :: rest, s =>
    match exec i s with
    | .next t => execAll rest t
    | .fault f => .fault f
    | .refused r => .refused r

/-- The moves that feed a byte list, wait, take the `InData` message it causes, and wait
(R92, R168, R169). -/
def feedAndDrain (bytes : List Byte) : List Move := [.feed bytes, .await, .onIndata, .await]

/-! ### The ends of a run -/

/-- No context has an operation in progress and the environment has no move in store. -/
def AtEnd (s : State) : Prop := s.active = .idle ∧ s.feeding = none ∧ s.moves = []

/-- Quiescent end (a), drained (R227). -/
def Drained (s : State) : Prop :=
  s.lkOpen = true ∧ s.fault = 0 ∧ s.isEmpty = true ∧ s.dfState ≠ .complete

/-- Quiescent end (b), halted (R227). -/
def Halted (s : State) : Prop := s.fault ≠ 0

/-- Quiescent end (c), closed (R227). -/
def Closed (s : State) : Prop := s.lkOpen = false

end Sys2Proof.Machine
end

