-- ==== Sys2Proof/Certificates/Slice0/Obligations.lean ====
section
/-! DEFINITION. The statements for the provers. Each is about every state and every configuration its
hypotheses admit; `BlockInv` and `Inv` are the invariants of `Sys2Proof/Safety.lean`. Where a statement
speaks of a run, the run is of `Sys2Proof.core`, from a state with the named moves in store. -/

section

open Sys2Proof Sys2Proof.Machine

/-! ### Encodings -/

/-- R89, R74 to R77: words and frames written out from the spec's tables decode to what they stand
for. -/
def Obligations.TableWordsDecode : Prop :=
  decodeOp 0b0000000000000000100#19 = .ok (.push 0x04) ∧
  decodeOp 0b0010000000000000011#19 = .ok (.popN 3) ∧
  decodeOp 0b0100000000000000000#19 = .ok .step ∧
  decodeOp 0b0110000000000000000#19 = .ok .drain ∧
  decodeOp 0b1000000110000000011#19 = .ok (.classify 0x0C03) ∧
  decodeOp 0b1010000000000000000#19 = .ok .resetLink ∧
  decodeOp 0b1100000000000000000#19 = .ok .exit ∧
  decode (.frame [0x01, 0x03, 0x0C, 0x01, 0x55]) = .ok (.h4Command 0x0C03 [0x55]) ∧
  decode (.frame [0x02, 0x01, 0x20, 0x03, 0x00, 0xAA, 0xBB, 0xCC]) =
    .ok (.h4Acl 0x2001 [0xAA, 0xBB, 0xCC]) ∧
  decode (.frame [0x03, 0x05, 0x00, 0x02, 0x11, 0x22]) = .ok (.h4Sco 0x0005 [0x11, 0x22]) ∧
  decode (.frame [0x04, 0x13, 0x01, 0xAA]) = .ok (.h4Event 0x13 [0xAA])

/-- R89, R93: decoding the code of a well-formed instruction gives the instruction back. -/
def Obligations.EncodeThenDecode : Prop :=
  ∀ i : Instr, i.wf = true → decode (encode i) = .ok i

/-- R89, R90, R93: a code that decodes is the code of the instruction it decodes to, which is well
formed; so each code has one meaning and no bit of it is dropped. -/
def Obligations.DecodeThenEncode : Prop :=
  ∀ (c : Code) (i : Instr), decode c = .ok i → i.wf = true ∧ encode i = c

/-- R79, R80: a frame is read off the front of a stream whatever follows it, and its length is
`1 + P + L`. -/
def Obligations.FrameIsReadOffTheFront : Prop :=
  ∀ (i : Instr) (raw rest : List Byte) (p : RawPacket), i.wf = true → encode i = .frame raw →
    frameRecord i = some p →
      decodeFrame (raw ++ rest) = .ok (i, rest) ∧
      raw.length = 1 + preambleSize p.kind + p.payload.length ∧ 3 ≤ raw.length ∧ raw.length ≤ 65540

/-- R73, R78: the preamble sizes, and the content length as the bytes of `pkt` give it; of `pkt` each
kind needs only the bytes it reads. -/
def Obligations.ContentLengthFromPreamble : Prop :=
  (preambleSize .command = 3 ∧ preambleSize .acl = 4 ∧ preambleSize .sco = 3 ∧
    preambleSize .event = 2) ∧
  ∀ (m : List Host.Cell),
    (∀ b, memRead m 3 = some b → readContentLength .command m = .ok b.toNat) ∧
    (∀ lo hi, memRead m 3 = some lo → memRead m 4 = some hi →
      readContentLength .acl m = .ok (lo.toNat + 256 * hi.toNat)) ∧
    (∀ b, memRead m 3 = some b → readContentLength .sco m = .ok b.toNat) ∧
    (∀ b, memRead m 2 = some b → readContentLength .event m = .ok b.toNat)

/-- R54, R94: the header fields of a record as its bytes give them, 16-bit fields little-endian. -/
def Obligations.HeaderFieldsFromBytes : Prop :=
  ∀ raw : List Byte,
    headerOf .command raw =
      .command (BitVec.ofNat 16 ((raw.getD 1 0).toNat + 256 * (raw.getD 2 0).toNat)) (raw.getD 3 0) ∧
    headerOf .acl raw =
      .acl (BitVec.ofNat 16 ((raw.getD 1 0).toNat + 256 * (raw.getD 2 0).toNat))
        (BitVec.ofNat 16 ((raw.getD 3 0).toNat + 256 * (raw.getD 4 0).toNat)) ∧
    headerOf .sco raw =
      .sco (BitVec.ofNat 16 ((raw.getD 1 0).toNat + 256 * (raw.getD 2 0).toNat)) (raw.getD 3 0) ∧
    headerOf .event raw = .event (raw.getD 1 0) (raw.getD 2 0)

/-- R90: which operation words are illegal, and that issuing one changes nothing: `IllegalOp` is
returned, in whatever state, and no fault bit is set. -/
def Obligations.IllegalWordIsRefused : Prop :=
  ∀ w : OpWord,
    ((∃ e, decodeOp w = .error e) ↔
      w.toNat / 65536 = 7 ∨ (w.toNat / 65536 = 0 ∧ w.toNat % 65536 / 256 ≠ 0) ∨
      (w.toNat / 65536 ∈ [2, 3, 5, 6] ∧ w.toNat % 65536 ≠ 0)) ∧
    ∀ (s : State) (rest : List Move), (∃ e, decodeOp w = .error e) → s.moves = .issue w :: rest →
      step s = .next { s with moves := rest, events := .illegalOp w :: s.events }

/-! ### Steps -/

/-- R9, R89, R196: a step runs the operation its word decodes to, where the context that issues it is
free. That the word is a move which waits where that context is busy, the step then being its next
transition, and which context each word waits for, are the model's (log entries 5 and 19). -/
def Obligations.StepRunsIssuedWord : Prop :=
  ∀ (s : State) (w : OpWord) (i : Instr) (rest : List Move), s.moves = .issue w :: rest →
    decodeOp w = .ok i →
      ((∀ c, issuer i = some c → s.busy c = false) → step s = exec i { s with moves := rest }) ∧
      (∀ c, issuer i = some c → s.busy c = true → step s = contextPass c s)

/-- R9, R92, R126, R167, R168, R169: what a step is for each other move, made or kept waiting, and when
no move is in store; and that a later pass of a `STEP`, or of a `DRAIN` that has delivered nothing, is
like the first. That the interleaving is a list of moves, and what a move waits for, are the model's
(log entries 5 and 19). -/
def Obligations.StepFollowsTheMoves : Prop :=
  ∀ s : State,
    (s.moves = [] → s.busy .consumer = true → step s = consumerPass s) ∧
    (s.moves = [] → s.busy .consumer = false → step s = feedPass s) ∧
    (AtEnd s → step s = .next s) ∧
    (∀ c rest, s.moves = .turn c :: rest → step s = contextPass c { s with moves := rest }) ∧
    (∀ rest, s.moves = .onIndata :: rest → s.busy .consumer = false →
      step s = exec .drain { s with moves := rest }) ∧
    (∀ bytes rest, s.moves = .feed bytes :: rest → s.busy .producer = false →
      step s = feedPass { s with moves := rest, feeding := some ⟨bytes, 0⟩ }) ∧
    (∀ rest, s.moves = .onIndata :: rest → s.busy .consumer = true → step s = consumerPass s) ∧
    (∀ bytes rest, s.moves = .feed bytes :: rest → s.busy .producer = true → step s = feedPass s) ∧
    (∀ rest, s.moves = .await :: rest → s.busy .consumer = true → step s = consumerPass s) ∧
    (∀ rest, s.moves = .await :: rest → s.busy .consumer = false → s.busy .producer = true →
      step s = feedPass s) ∧
    (∀ c rest, s.moves = .linkOpen c :: rest → step s = .next (linkOpen c { s with moves := rest })) ∧
    (∀ rest, s.moves = .await :: rest → s.busy .consumer = false → s.busy .producer = false →
      step s = .next { s with moves := rest }) ∧
    (s.active = .step → consumerPass s = exec .step { s with active := .idle }) ∧
    (s.active = .drain 0 → consumerPass s = exec .drain { s with active := .idle })

/-- R63, R94, R124: a step at `Complete` executes the frame that stands in `pkt`: the bytes there
decode to one whole frame, and the step is that frame's meaning with the operation in progress told
of it. -/
def Obligations.StepExecutesAssembledFrame : Prop :=
  ∀ (s : State) (rest : List Move), BlockInv s → s.moves = .turn .consumer :: rest →
    s.active ≠ .idle → s.dfState = .complete → s.lkOpen = true → s.fault = 0 →
      ∃ raw i t, assembled s = .ok raw ∧ decode (.frame raw) = .ok i ∧
        exec i { s with moves := rest } = .next t ∧ step s = .next (countPacket t)

/-! ### The invariant -/

/-- R24, R32, R45: the invariant holds after reset, whatever the configuration. -/
def Obligations.ResetMeetsInvariant : Prop :=
  Inv State.reset ∧ ∀ c : Config, c.wf = true → Inv (State.resetWith c)

/-- R24, R32, R172, R183: every step keeps the invariant. -/
def Obligations.StepKeepsInvariant : Prop :=
  ∀ s t : State, Inv s → step s = .next t → Inv t

/-- R21, R30, R132, R212: no step from a state with the invariant stops: no unwritten byte is read, no
index outside `pkt` is stored to, no operation overlaps another. -/
def Obligations.StepAlwaysAnswers : Prop :=
  ∀ s : State, Inv s → ∃ t, step s = .next t

/-- R106, R170, R216: no schedule of moves makes two operations of one context overlap, whatever the
state. -/
def Obligations.NoStepIsRefused : Prop :=
  ∀ (s : State) (r : Refusal), step s ≠ .refused r

/-- R29, R31, R132: the counters of the deframer fit their 16 bits, `pkt_len` fits `pkt`, and the
indices of the ring lie in it. -/
def Obligations.CountersFit : Prop :=
  ∀ s : State, Inv s →
    s.dfNeeded < 65536 ∧ s.dfCollected ≤ s.dfNeeded ∧ s.pktLen ≤ s.cfg.pktMax ∧
    s.rbWr ≤ s.cfg.cap ∧ s.rbRd ≤ s.cfg.cap

/-! ### The ring -/

/-- R100: the four outcomes of `PUSH`, each with the whole state after it, and the one byte of the ring
that an accepted `PUSH` writes. -/
def Obligations.PushMeaning : Prop :=
  ∀ (b : Byte) (s : State),
    (s.lkOpen = false →
      exec (.push b) s = .next { s with events := .returned (.push b) .closed :: s.events }) ∧
    (s.lkOpen = true → s.cfg.cap + 1 ≤ s.rbWr ∨ s.cfg.cap + 1 ≤ s.rbRd →
      exec (.push b) s =
        .next { s with fault := s.fault ||| 0b0100#4, events := .returned (.push b) .full :: s.events }) ∧
    (s.lkOpen = true → s.rbWr < s.cfg.cap + 1 → s.rbRd < s.cfg.cap + 1 →
      (s.rbWr + 1) % (s.cfg.cap + 1) = s.rbRd →
        exec (.push b) s =
          .next { s with fault := s.fault ||| 0b0010#4,
                         events := .returned (.push b) .full :: s.events }) ∧
    (s.lkOpen = true → s.rbWr < s.cfg.cap + 1 → s.rbRd < s.cfg.cap + 1 →
      (s.rbWr + 1) % (s.cfg.cap + 1) ≠ s.rbRd →
        exec (.push b) s =
          .next { s with rbMem := memWrite s.rbMem s.rbWr b, rbWr := (s.rbWr + 1) % (s.cfg.cap + 1),
                         events := .returned (.push b) .ok :: s.events }) ∧
    (memWf s.rbMem = true → ∀ a, memRead (memWrite s.rbMem s.rbWr b) a =
      if a = s.rbWr then some b else memRead s.rbMem a)

/-- R101: the three outcomes of `POP_N`, each with the whole state after it; the bytes are those of the
ring from `rb_rd` on, `min(max, avail)` of them. -/
def Obligations.PopNMeaning : Prop :=
  ∀ (max : Half) (s : State),
    (s.lkOpen = false →
      exec (.popN max) s = .next { s with events := .returned (.popN max) .closed :: s.events }) ∧
    (s.lkOpen = true → s.cfg.cap + 1 ≤ s.rbWr ∨ s.cfg.cap + 1 ≤ s.rbRd →
      exec (.popN max) s =
        .next { s with fault := s.fault ||| 0b0100#4,
                       events := .returned (.popN max) (.popped 0 []) :: s.events }) ∧
    (s.lkOpen = true → RingInv s → ∃ bytes : List Byte,
      bytes.length =
        min max.toNat (((s.rbWr : Int) - (s.rbRd : Int)) % ((s.cfg.cap + 1 : Nat) : Int)).toNat ∧
      (∀ k, k < bytes.length →
        memRead s.rbMem ((s.rbRd + k) % (s.cfg.cap + 1)) = some (bytes.getD k 0)) ∧
      exec (.popN max) s =
        .next { s with rbRd := (s.rbRd + bytes.length) % (s.cfg.cap + 1),
                       events := .returned (.popN max) (.popped bytes.length bytes) :: s.events })

/-- R102: the four pure functions of the ring. -/
def Obligations.RingOccupancy : Prop :=
  ∀ s : State, s.rbWr < s.cfg.cap + 1 → s.rbRd < s.cfg.cap + 1 →
    (s.avail : Int) = ((s.rbWr : Int) - (s.rbRd : Int)) % ((s.cfg.cap : Int) + 1) ∧
    s.avail ≤ s.cfg.cap ∧ s.free + s.avail = s.cfg.cap ∧
    (s.isEmpty = true ↔ s.rbWr = s.rbRd) ∧ (s.isEmpty = true ↔ s.avail = 0) ∧
    (s.isFull = true ↔ (s.rbWr + 1) % (s.cfg.cap + 1) = s.rbRd) ∧ (s.isFull = true ↔ s.avail = s.cfg.cap)

/-- R103: an accepted `PUSH` raises `avail` by one, a refused one leaves it, a `POP_N` lowers it by the
count it returns; the ring's invariant is kept. -/
def Obligations.PushAndPopMoveAvail : Prop :=
  ∀ s : State, RingInv s → s.lkOpen = true →
    (∀ b, ∃ t r, exec (.push b) s = .next t ∧ t.events = .returned (.push b) r :: s.events ∧ RingInv t ∧
      ((r = .ok ∧ t.avail = s.avail + 1) ∨ (r = .full ∧ t.avail = s.avail ∧ s.avail = s.cfg.cap))) ∧
    (∀ max, ∃ t bytes, exec (.popN max) s = .next t ∧
      t.events = .returned (.popN max) (.popped bytes.length bytes) :: s.events ∧ RingInv t ∧
      s.avail = t.avail + bytes.length)

/-- R25: `PUSH`, `POP_N` and the resets read on the queue `rb_fifo` alone. -/
def Obligations.RingIsAQueue : Prop :=
  ∀ (s : State) (q : List Byte), RingInv s → s.lkOpen = true → ringContents s = .ok q →
    q.length = s.avail ∧
    (∀ b, q.length < s.cfg.cap → ∃ t, exec (.push b) s = .next t ∧
      t.events = .returned (.push b) .ok :: s.events ∧ ringContents t = .ok (q ++ [b])) ∧
    (∀ b, q.length = s.cfg.cap → ∃ t, exec (.push b) s = .next t ∧
      t.events = .returned (.push b) .full :: s.events ∧ ringContents t = .ok q) ∧
    (∀ max, ∃ t, exec (.popN max) s = .next t ∧
      t.events =
        .returned (.popN max) (.popped (min max.toNat q.length) (q.take max.toNat)) :: s.events ∧
      ringContents t = .ok (q.drop max.toNat)) ∧
    (∃ t, exec .resetLink s = .next t ∧ ringContents t = .ok []) ∧
    (∃ t, exec .exit s = .next t ∧ ringContents t = .ok [])

/-- R105: from empty, wherever `rb_rd` stands, exactly `CAP` pushes are accepted and the next is not,
and the refused one leaves the bytes in the ring as they were. -/
def Obligations.CapacityPushesThenFull : Prop :=
  ∀ (s : State) (bytes : List Byte), RingInv s → s.lkOpen = true → s.avail = 0 →
    bytes.length = s.cfg.cap →
      ∃ t, execAll (bytes.map .push) s = .next t ∧
        t.events = (bytes.map fun b => Event.returned (.push b) .ok).reverse ++ s.events ∧
        t.rbRd = s.rbRd ∧ t.fault = s.fault ∧ ringContents t = .ok bytes ∧
        ∀ b, ∃ u, exec (.push b) t = .next u ∧ u.events = .returned (.push b) .full :: t.events ∧
          ringContents u = .ok bytes

/-! ### The deframer, pass by pass -/

/-- R121, R181: a pass of `STEP`, and of `DRAIN` after any number `j` of packets, in `Idle`: the ring is
empty and nothing changes; a bad type byte is consumed, recorded and faults; a good one starts a frame.
-/
def Obligations.TypeBytePass : Prop :=
  ∀ s : State, RingInv s → s.active = .idle → s.lkOpen = true → s.fault = 0 → s.dfState = .idle →
    1 ≤ s.cfg.pktMax →
      (s.avail = 0 →
        exec .step s = .next { s with events := .returned .step .needMore :: s.events } ∧
        exec .drain s =
          .next { s with events := .returned .drain (.drained 0 .needMore) :: s.events } ∧
        ∀ j, consumerPass { s with active := .drain j } =
          .next { s with events := .returned .drain (.drained j .needMore) :: s.events }) ∧
      ∀ t, 0 < s.avail → memRead s.rbMem s.rbRd = some t →
        (t.toNat = 0 ∨ 5 ≤ t.toNat →
          exec .step s =
            .next { s with rbRd := (s.rbRd + 1) % (s.cfg.cap + 1), badType := t, fault := 0b0001#4,
                           events := .returned .step .fault :: s.events } ∧
          exec .drain s =
            .next { s with rbRd := (s.rbRd + 1) % (s.cfg.cap + 1), badType := t, fault := 0b0001#4,
                           events := .returned .drain (.drained 0 .fault) :: s.events } ∧
          ∀ j, consumerPass { s with active := .drain j } =
            .next { s with rbRd := (s.rbRd + 1) % (s.cfg.cap + 1), badType := t, fault := 0b0001#4,
                           events := .returned .drain (.drained j .fault) :: s.events }) ∧
        ∀ k : Kind, t = k.typeByte →
          exec .step s =
            .next { s with rbRd := (s.rbRd + 1) % (s.cfg.cap + 1), pkt := memWrite s.pkt 0 t,
                           dfState := .header, dfKind := k, dfNeeded := preambleSize k,
                           dfCollected := 0, active := .step } ∧
          exec .drain s =
            .next { s with rbRd := (s.rbRd + 1) % (s.cfg.cap + 1), pkt := memWrite s.pkt 0 t,
                           dfState := .header, dfKind := k, dfNeeded := preambleSize k,
                           dfCollected := 0, active := .drain 0 } ∧
          ∀ j, consumerPass { s with active := .drain j } =
            .next { s with rbRd := (s.rbRd + 1) % (s.cfg.cap + 1), pkt := memWrite s.pkt 0 t,
                           dfState := .header, dfKind := k, dfNeeded := preambleSize k,
                           dfCollected := 0, active := .drain j }

/-- R122, R184: a pass of `STEP`, and of `DRAIN` after any number `j` of packets, in `Header`: the bytes
the ring has, at most those the preamble wants, go to `pkt` from index `1 + df_collected` on and to no
other index; the preamble stays short, or announces a frame that fits `pkt`, or one that does not. -/
def Obligations.PreamblePass : Prop :=
  ∀ s : State, BlockInv s → s.active = .idle → s.lkOpen = true → s.fault = 0 → s.dfState = .header →
    ∃ (n : Nat) (m : List Host.Cell), n = min (s.dfNeeded - s.dfCollected) s.avail ∧ memWf m = true ∧
      (∀ a, memRead m a =
        if 1 + s.dfCollected ≤ a ∧ a < 1 + s.dfCollected + n then
          memRead s.rbMem ((s.rbRd + (a - (1 + s.dfCollected))) % (s.cfg.cap + 1))
        else memRead s.pkt a) ∧
      (s.dfCollected + n < s.dfNeeded →
        exec .step s =
          .next { s with rbRd := (s.rbRd + n) % (s.cfg.cap + 1), pkt := m, dfCollected := s.dfCollected + n,
                         events := .returned .step .needMore :: s.events } ∧
        exec .drain s =
          .next { s with rbRd := (s.rbRd + n) % (s.cfg.cap + 1), pkt := m, dfCollected := s.dfCollected + n,
                         events := .returned .drain (.drained 0 .needMore) :: s.events } ∧
        ∀ j, consumerPass { s with active := .drain j } =
          .next { s with rbRd := (s.rbRd + n) % (s.cfg.cap + 1), pkt := m, dfCollected := s.dfCollected + n,
                         events := .returned .drain (.drained j .needMore) :: s.events }) ∧
      (s.dfCollected + n = s.dfNeeded → ∃ len, readContentLength s.dfKind m = .ok len ∧
        (s.cfg.pktMax < 1 + preambleSize s.dfKind + len →
          exec .step s =
            .next { s with rbRd := (s.rbRd + n) % (s.cfg.cap + 1), pkt := m, fault := 0b1000#4,
                           dfState := .idle, dfNeeded := 0, dfCollected := 0,
                           events := .returned .step .fault :: s.events } ∧
          exec .drain s =
            .next { s with rbRd := (s.rbRd + n) % (s.cfg.cap + 1), pkt := m, fault := 0b1000#4,
                           dfState := .idle, dfNeeded := 0, dfCollected := 0,
                           events := .returned .drain (.drained 0 .fault) :: s.events } ∧
          ∀ j, consumerPass { s with active := .drain j } =
            .next { s with rbRd := (s.rbRd + n) % (s.cfg.cap + 1), pkt := m, fault := 0b1000#4,
                           dfState := .idle, dfNeeded := 0, dfCollected := 0,
                           events := .returned .drain (.drained j .fault) :: s.events }) ∧
        (1 + preambleSize s.dfKind + len ≤ s.cfg.pktMax →
          exec .step s =
            .next { s with rbRd := (s.rbRd + n) % (s.cfg.cap + 1), pkt := m, dfState := .content,
                           dfNeeded := len, dfCollected := 0, active := .step } ∧
          exec .drain s =
            .next { s with rbRd := (s.rbRd + n) % (s.cfg.cap + 1), pkt := m, dfState := .content,
                           dfNeeded := len, dfCollected := 0, active := .drain 0 } ∧
          ∀ j, consumerPass { s with active := .drain j } =
            .next { s with rbRd := (s.rbRd + n) % (s.cfg.cap + 1), pkt := m, dfState := .content,
                           dfNeeded := len, dfCollected := 0, active := .drain j }))

/-- R123: a pass of `STEP`, and of `DRAIN` after any number `j` of packets, in `Content`: the bytes the
ring has, at most those the content wants, go to `pkt` from index `1 + P + df_collected` on and to no
other index; the content stays short, or is complete. -/
def Obligations.ContentPass : Prop :=
  ∀ s : State, BlockInv s → s.active = .idle → s.lkOpen = true → s.fault = 0 → s.dfState = .content →
    ∃ (n : Nat) (m : List Host.Cell), n = min (s.dfNeeded - s.dfCollected) s.avail ∧ memWf m = true ∧
      (∀ a, memRead m a =
        if 1 + preambleSize s.dfKind + s.dfCollected ≤ a ∧
            a < 1 + preambleSize s.dfKind + s.dfCollected + n then
          memRead s.rbMem
            ((s.rbRd + (a - (1 + preambleSize s.dfKind + s.dfCollected))) % (s.cfg.cap + 1))
        else memRead s.pkt a) ∧
      (s.dfCollected + n < s.dfNeeded →
        exec .step s =
          .next { s with rbRd := (s.rbRd + n) % (s.cfg.cap + 1), pkt := m, dfCollected := s.dfCollected + n,
                         events := .returned .step .needMore :: s.events } ∧
        exec .drain s =
          .next { s with rbRd := (s.rbRd + n) % (s.cfg.cap + 1), pkt := m, dfCollected := s.dfCollected + n,
                         events := .returned .drain (.drained 0 .needMore) :: s.events } ∧
        ∀ j, consumerPass { s with active := .drain j } =
          .next { s with rbRd := (s.rbRd + n) % (s.cfg.cap + 1), pkt := m, dfCollected := s.dfCollected + n,
                         events := .returned .drain (.drained j .needMore) :: s.events }) ∧
      (s.dfCollected + n = s.dfNeeded →
        exec .step s =
          .next { s with rbRd := (s.rbRd + n) % (s.cfg.cap + 1), pkt := m, dfState := .complete,
                         dfCollected := s.dfNeeded, active := .step } ∧
        exec .drain s =
          .next { s with rbRd := (s.rbRd + n) % (s.cfg.cap + 1), pkt := m, dfState := .complete,
                         dfCollected := s.dfNeeded, active := .drain 0 } ∧
        ∀ j, consumerPass { s with active := .drain j } =
          .next { s with rbRd := (s.rbRd + n) % (s.cfg.cap + 1), pkt := m, dfState := .complete,
                         dfCollected := s.dfNeeded, active := .drain j })

/-- R124: the pass of `STEP` and of `DRAIN` in `Complete` delivers the record of the bytes in `pkt`,
returns to `Idle`, takes no byte and writes nothing else; a `STEP` ends there, a `DRAIN` counts. -/
def Obligations.DeliverPass : Prop :=
  ∀ s : State, BlockInv s → s.lkOpen = true → s.fault = 0 → s.dfState = .complete →
    ∃ (raw : List Byte) (p : RawPacket), raw.length = 1 + preambleSize s.dfKind + s.dfNeeded ∧
      (∀ a, a < raw.length → memRead s.pkt a = some (raw.getD a 0)) ∧
      p.raw = raw ∧ p.kind = s.dfKind ∧ p.header = headerOf s.dfKind raw ∧
      p.payload = raw.drop (1 + preambleSize s.dfKind) ∧
      (s.active = .step →
        consumerPass s =
          .next { s with dfState := .idle, dfNeeded := 0, dfCollected := 0, active := .idle,
                         events := .returned .step .packetComplete :: .deliver p :: s.events }) ∧
      (∀ k, s.active = .drain k →
        consumerPass s =
          .next { s with dfState := .idle, dfNeeded := 0, dfCollected := 0, active := .drain (k + 1),
                         events := .deliver p :: s.events })

/-- R125, R187: on a halted block `STEP` and `DRAIN` return `Fault` and change nothing; so does a later
pass of a `DRAIN`, with the number `j` of packets it has delivered. -/
def Obligations.HaltedStepAndDrain : Prop :=
  ∀ s : State, s.active = .idle → s.lkOpen = true → s.fault ≠ 0 →
    exec .step s = .next { s with events := .returned .step .fault :: s.events } ∧
    exec .drain s = .next { s with events := .returned .drain (.drained 0 .fault) :: s.events } ∧
    ∀ j, consumerPass { s with active := .drain j } =
      .next { s with events := .returned .drain (.drained j .fault) :: s.events }

/-- R13, R14, R183: on a corrupt index a pass of `STEP`, and of `DRAIN` after any number `j` of packets,
in a state that pops sets bit 2 of `fault`, returns `Fault` and does nothing else. R183 calls it
unreachable; that the transition ends so is read from R13 (log entry 9). -/
def Obligations.CorruptIndexPass : Prop :=
  ∀ s : State, s.active = .idle → s.lkOpen = true → s.fault = 0 → s.dfState ≠ .complete →
    s.cfg.cap + 1 ≤ s.rbWr ∨ s.cfg.cap + 1 ≤ s.rbRd →
      exec .step s =
        .next { s with fault := 0b0100#4, events := .returned .step .fault :: s.events } ∧
      exec .drain s =
        .next { s with fault := 0b0100#4, events := .returned .drain (.drained 0 .fault) :: s.events } ∧
      ∀ j, consumerPass { s with active := .drain j } =
        .next { s with fault := 0b0100#4, events := .returned .drain (.drained j .fault) :: s.events }

/-- R106, R216: the meanings of `STEP` and `DRAIN` refuse a second operation of the consumer. That the
model refuses it, under this name, is a choice R106 allows (log entry 8). -/
def Obligations.SecondConsumerRefused : Prop :=
  ∀ s : State, s.active ≠ .idle →
    exec .step s = .refused .secondConsumer ∧ exec .drain s = .refused .secondConsumer

/-! ### The deframer as a whole -/

/-- R126, R133: a `STEP` ends within four passes, with the results the rule names: `PacketComplete`
with exactly one `deliver`, `NeedMore` with the ring emptied, `Fault` with a fault pending, `Closed`. -/
def Obligations.StepEndsWithinFourPasses : Prop :=
  ∀ s : State, BlockInv s → s.active = .idle → s.feeding = none →
    ∃ (t : State) (r : Result) (out : List Event),
      Sys2Proof.core.run 4 { s with moves := [.issue 0x20000#19] } = .next t ∧ AtEnd t ∧
      t.events = .returned .step r :: (out ++ s.events) ∧
      ((r = .packetComplete ∧ ∃ p, out = [.deliver p]) ∨
       (r = .needMore ∧ out = [] ∧ t.fault = 0 ∧ t.isEmpty = true) ∨
       (r = .fault ∧ out = [] ∧ t.fault ≠ 0) ∨
       (r = .closed ∧ out = [] ∧ s.lkOpen = false))

/-- R127, R133: a `DRAIN` with no `PUSH` interleaved ends within `avail div 3 + 2` `STEP`s of four
passes, has delivered as many packets as it says, and leaves the ring empty or a fault pending. -/
def Obligations.DrainEnds : Prop :=
  ∀ s : State, BlockInv s → s.active = .idle → s.feeding = none →
    ∃ (t : State) (out : List Event),
      Sys2Proof.core.run (4 * (s.avail / 3 + 2)) { s with moves := [.issue 0x30000#19] } = .next t ∧
      AtEnd t ∧ (∀ e ∈ out, ∃ p, e = .deliver p) ∧
      ((s.lkOpen = false ∧ t.events = .returned .drain .closed :: s.events) ∨
       (t.events = .returned .drain (.drained out.length .needMore) :: (out ++ s.events) ∧ t.fault = 0 ∧
         t.isEmpty = true ∧ t.dfState ≠ .complete) ∨
       (t.events = .returned .drain (.drained out.length .fault) :: (out ++ s.events) ∧ t.fault ≠ 0))

/-- R127, R129: a `DRAIN` delivers exactly the packets of `parse` of the bytes the block holds, those
of the frame in assembly and those of the ring, and leaves the deframer where the residue says. Stated
for a `PKT_MAX` that holds every frame, as R129 supposes no fault but a bad type. -/
def Obligations.DrainDeliversParse : Prop :=
  ∀ (s : State) (stream : List Byte), BlockInv s → s.active = .idle → s.feeding = none →
    s.lkOpen = true → s.fault = 0 → 65540 ≤ s.cfg.pktMax → Holds s stream →
      ∃ (t : State) (why : DrainEnd),
        Sys2Proof.core.run (4 * (s.avail / 3 + 2)) { s with moves := [.issue 0x30000#19] } = .next t ∧
        AtEnd t ∧
        deliveries t.events = deliveries s.events ++ (parse stream).1.filterMap frameRecord ∧
        StandsAt t (parse stream).2 ∧
        t.events.head? = some (.returned .drain (.drained (parse stream).1.length why))

/-- R128, R129, R220: what is delivered depends on the bytes alone: whatever way a byte stream is cut
into `FEED`s, each followed by a `DRAIN` and none longer than `CAP`, the packets delivered are those of
`parse` of the whole, and the deframer ends where its residue says. -/
def Obligations.ChunkingDoesNotMatter : Prop :=
  ∀ (c : Config) (chunks : List (List Byte)), c.wf = true → 65540 ≤ c.pktMax →
    (∀ b ∈ chunks, b.length ≤ c.cap) →
      ∃ (n : Nat) (t : State),
        Sys2Proof.core.run n { State.resetWith c with moves := chunks.flatMap feedAndDrain } = .next t ∧
        AtEnd t ∧ deliveries t.events = (parse chunks.flatten).1.filterMap frameRecord ∧
        ((∀ x unread, (parse chunks.flatten).2 ≠ .badType x unread) →
          StandsAt t (parse chunks.flatten).2)

/-- R63, R126: where the ring begins with the bytes of a frame, a `STEP` in `Idle` is the meaning of
that frame: the state after it is that of the frame's `exec`, but for where the bytes came from, where
they were assembled, and the result returned. -/
def Obligations.StepOnAFrameIsItsMeaning : Prop :=
  ∀ (s : State) (i : Instr) (raw rest : List Byte), BlockInv s → s.active = .idle → s.feeding = none →
    s.lkOpen = true → s.fault = 0 → s.dfState = .idle → i.wf = true → encode i = .frame raw →
    raw.length ≤ s.cfg.pktMax → ringContents s = .ok (raw ++ rest) →
      ∃ t u : State,
        Sys2Proof.core.run 4 { s with moves := [.issue 0x20000#19] } = .next t ∧
        exec i { s with moves := [] } = .next u ∧ ringContents t = .ok rest ∧
        t = { u with rbRd := t.rbRd, pkt := t.pkt, dfKind := t.dfKind,
                     events := .returned .step .packetComplete :: u.events }

/-- R128: a pass of the consumer that leaves no fault loses no byte: what the block holds stays, but
for the bytes of a packet it delivers. -/
def Obligations.NoByteIsLost : Prop :=
  ∀ (s t : State) (stream : List Byte), BlockInv s → Holds s stream → consumerPass s = .next t →
    t.fault = 0 →
      (Holds t stream ∧ deliveries t.events = deliveries s.events) ∨
      (∃ p rest, stream = p.raw ++ rest ∧ Holds t rest ∧
        deliveries t.events = deliveries s.events ++ [p])

/-- R131: the edges of the deframer's states; there is no other. A change of state is a
micro-transition, on an open link without a fault, or one of the resets; back to `Idle` leads only the
delivery of a packet from `Complete`, FRAME_TOO_LONG from `Header`, and a reset. -/
def Obligations.StateEdges : Prop :=
  ∀ s t : State, step s = .next t → t.dfState ≠ s.dfState →
    (s.lkOpen = true ∧ s.fault = 0 ∧
      ((s.dfState = .idle ∧ t.dfState = .header) ∨ (s.dfState = .header ∧ t.dfState = .content) ∨
       (s.dfState = .content ∧ t.dfState = .complete) ∨
       (s.dfState = .header ∧ t.dfState = .idle ∧ t.faultBit 3 = true) ∨
       (s.dfState = .complete ∧ t.dfState = .idle ∧
         ∃ p, deliveries t.events = deliveries s.events ++ [p]))) ∨
    (t.dfState = .idle ∧ t.fault = 0 ∧ ∃ rest, s.moves = .issue 0x50000#19 :: rest ∨
      s.moves = .issue 0x60000#19 :: rest ∨ ∃ c, s.moves = .linkOpen c :: rest)

/-! ### The frames -/

/-- R94, R124: executing a frame on an open link without a fault delivers its record, made of its
operands, and makes the deframer idle; nothing else changes. That a frame has this meaning by itself,
whatever the deframer's state, is the model's (log entry 7): R124 gives it to `Complete`, and
`StepExecutesAssembledFrame` says that a step there is this. -/
def Obligations.FramesDeliverTheirRecord : Prop :=
  ∀ s : State, s.lkOpen = true → s.fault = 0 →
    (∀ (o : Half) (p : List Byte), p.length < 256 →
      exec (.h4Command o p) s =
        .next { s with dfState := .idle, dfNeeded := 0, dfCollected := 0,
                       events := .deliver ⟨0x01 :: lowByte o :: highByte o :: BitVec.ofNat 8 p.length :: p,
                         .command, .command o (BitVec.ofNat 8 p.length), p⟩ :: s.events }) ∧
    (∀ (h : Half) (p : List Byte), p.length < 65536 →
      exec (.h4Acl h p) s =
        .next { s with dfState := .idle, dfNeeded := 0, dfCollected := 0,
                       events := .deliver ⟨0x02 :: lowByte h :: highByte h ::
                           BitVec.ofNat 8 p.length :: BitVec.ofNat 8 (p.length / 256) :: p,
                         .acl, .acl h (BitVec.ofNat 16 p.length), p⟩ :: s.events }) ∧
    (∀ (h : Half) (p : List Byte), p.length < 256 →
      exec (.h4Sco h p) s =
        .next { s with dfState := .idle, dfNeeded := 0, dfCollected := 0,
                       events := .deliver ⟨0x03 :: lowByte h :: highByte h :: BitVec.ofNat 8 p.length :: p,
                         .sco, .sco h (BitVec.ofNat 8 p.length), p⟩ :: s.events }) ∧
    (∀ (e : Byte) (p : List Byte), p.length < 256 →
      exec (.h4Event e p) s =
        .next { s with dfState := .idle, dfNeeded := 0, dfCollected := 0,
                       events := .deliver ⟨0x04 :: e :: BitVec.ofNat 8 p.length :: p,
                         .event, .event e (BitVec.ofNat 8 p.length), p⟩ :: s.events })

/-- R125: on a closed link or while a fault is pending no frame is executed: nothing is delivered and
nothing changes. This is for `H4_COMMAND`, `H4_ACL`, `H4_SCO` and `H4_EVENT`. -/
def Obligations.HaltedFrames : Prop :=
  ∀ (i : Instr) (p : RawPacket) (s : State), frameRecord i = some p → s.lkOpen = false ∨ s.fault ≠ 0 →
    exec i s = .next s

/-! ### Faults, ownership, outputs -/

/-- R125, R187, R192: from a halted state no step delivers a packet, and none changes the deframer or
`pkt` unless it clears the fault. -/
def Obligations.HaltHolds : Prop :=
  ∀ s t : State, step s = .next t → s.fault ≠ 0 →
    deliveries t.events = deliveries s.events ∧
    (t.fault ≠ 0 → t.dfState = s.dfState ∧ t.dfKind = s.dfKind ∧ t.dfNeeded = s.dfNeeded ∧
      t.dfCollected = s.dfCollected ∧ t.pkt = s.pkt)

/-- R33, R34, R189, R190: a bit of `fault` once set stays set until all are cleared, only RESET_LINK,
EXIT and link-open clear them, and `bad_type` is written only by a pass in `Idle` that raises
BAD_TYPE. -/
def Obligations.FaultBitsAreSticky : Prop :=
  ∀ s t : State, step s = .next t →
    (∀ n, s.faultBit n = true → t.faultBit n = true ∨ t.fault = 0) ∧
    (s.fault ≠ 0 → t.fault = 0 → ∃ rest, s.moves = .issue 0x50000#19 :: rest ∨
      s.moves = .issue 0x60000#19 :: rest ∨ ∃ c, s.moves = .linkOpen c :: rest) ∧
    (t.badType ≠ s.badType → s.dfState = .idle ∧ s.fault = 0 ∧ t.faultBit 0 = true)

/-- R184: with the default `PKT_MAX`, or a larger one, FRAME_TOO_LONG is never raised. -/
def Obligations.FrameTooLongUnreachable : Prop :=
  ∀ s t : State, 65540 ≤ s.cfg.pktMax → step s = .next t → s.faultBit 3 = false → t.faultBit 3 = false

/-- R35, R40, R228: only link-open on a closed link chooses a configuration, only `EXIT` closes the
link, only link-open opens it. -/
def Obligations.LinkAndConfigChanges : Prop :=
  ∀ s t : State, step s = .next t →
    (t.cfg ≠ s.cfg → s.lkOpen = false ∧ ∃ c rest, s.moves = .linkOpen c :: rest ∧ t.cfg = c) ∧
    (s.lkOpen = true → t.lkOpen = false → ∃ rest, s.moves = .issue 0x60000#19 :: rest) ∧
    (s.lkOpen = false → t.lkOpen = true → ∃ c rest, s.moves = .linkOpen c :: rest)

/-- R43, R61, R66: who writes what. A byte of `rb_mem` changes only at `rb_wr` of a ring that is not
full, or at link-open; the producer touches nothing of the consumer's; the deframer, in every pass of a
`STEP` or a `DRAIN`, and `POP_N` touch neither `rb_mem` nor `rb_wr`. -/
def Obligations.StorageOwnership : Prop :=
  ∀ s t : State,
    (∀ a, memWf s.rbMem = true → step s = .next t → memRead t.rbMem a ≠ memRead s.rbMem a →
      (a = s.rbWr ∧ s.isFull = false ∧ s.lkOpen = true) ∨ ∃ c rest, s.moves = .linkOpen c :: rest) ∧
    (feedPass s = .next t →
      t.cfg = s.cfg ∧ t.rbRd = s.rbRd ∧ t.dfState = s.dfState ∧ t.dfKind = s.dfKind ∧
      t.dfNeeded = s.dfNeeded ∧ t.dfCollected = s.dfCollected ∧ t.pkt = s.pkt ∧ t.badType = s.badType ∧
      t.lkOpen = s.lkOpen ∧ t.active = s.active) ∧
    (consumerPass s = .next t →
      t.cfg = s.cfg ∧ t.rbMem = s.rbMem ∧ t.rbWr = s.rbWr ∧ t.lkOpen = s.lkOpen ∧
      t.feeding = s.feeding ∧ t.moves = s.moves) ∧
    (∀ i, issuer i = some .consumer → i ≠ .resetLink → i ≠ .exit → exec i s = .next t →
      t.cfg = s.cfg ∧ t.rbMem = s.rbMem ∧ t.rbWr = s.rbWr ∧ t.lkOpen = s.lkOpen ∧
      t.feeding = s.feeding ∧ t.moves = s.moves)

/-- R38, R124, R130, R224: outputs are only added to; a packet is delivered only by a step from
`Complete`, on an open link without a fault, and its bytes are those of `pkt`. -/
def Obligations.OutputsOnlyGrow : Prop :=
  ∀ s t : State, step s = .next t → ∃ new : List Event, t.events = new ++ s.events ∧ new.length ≤ 2 ∧
    ∀ p, Event.deliver p ∈ new →
      deliveries new = [p] ∧ s.dfState = .complete ∧ s.lkOpen = true ∧ s.fault = 0 ∧ t.dfState = .idle ∧
      p.kind = s.dfKind ∧ readPkt s.pkt 0 (1 + preambleSize s.dfKind + s.dfNeeded) = .ok p.raw

/-- R10, R25, R41: what is not observable has no effect: two states that differ only in stale bytes, in
`df_kind` while idle, in `bad_type` and in where the ring's window lies go on alike for ever, with the
same outputs. -/
def Obligations.HiddenStateIsUnobservable : Prop :=
  ∀ s s' t : State, Inv s → Inv s' → Alike s s' → step s = .next t →
    ∃ t', step s' = .next t' ∧ Alike t t'

/-! ### The classifier -/

/-- R150, R86: the class `CLASSIFY` returns, by what the table lists, and that it changes nothing. It
holds on a closed link and while halted too. -/
def Obligations.ClassifyMeaning : Prop :=
  ∀ (o : Half) (s : State), s.cfg.wf = true →
    ∃ c : Sys2Proof.Class,
      exec (.classify o) s =
        .next { s with events := .returned (.classify o) (.classified c) :: s.events } ∧
      ((∀ e ∈ s.cfg.ct, e.1.toNat ≠ o.toNat / 1024) → c = .onlyOne) ∧
      (∀ g c', (g, Group.uniform c') ∈ s.cfg.ct → g.toNat = o.toNat / 1024 → c = c') ∧
      (∀ g d overrides, (g, Group.perOcf d overrides) ∈ s.cfg.ct → g.toNat = o.toNat / 1024 →
        (∀ f c', (f, c') ∈ overrides → f.toNat = o.toNat % 1024 → c = c') ∧
        ((∀ e ∈ overrides, e.1.toNat ≠ o.toNat % 1024) → c = d))

/-- R156: the known points of the reference table, for every admitted table. -/
def Obligations.ClassifyKnownPoints : Prop :=
  ∀ s : State, s.cfg.wf = true →
    exec (.classify 0x0C03) s =
      .next { s with events := .returned (.classify 0x0C03) (.classified .mix) :: s.events } ∧
    exec (.classify 0x2006) s =
      .next { s with events := .returned (.classify 0x2006) (.classified .ble) :: s.events } ∧
    ∀ o : Half, (∀ e ∈ s.cfg.ct, e.1 ≠ ogf o) →
      exec (.classify o) s =
        .next { s with events := .returned (.classify o) (.classified .onlyOne) :: s.events }

/-! ### Link control -/

/-- R165: `RESET_LINK`, with the whole state after it. -/
def Obligations.ResetLinkMeaning : Prop :=
  ∀ s : State,
    (s.lkOpen = true →
      exec .resetLink s =
        .next { s with rbWr := 0, rbRd := 0, dfState := .idle, dfNeeded := 0, dfCollected := 0, fault := 0,
                       events := .returned .resetLink .done :: s.events }) ∧
    (s.lkOpen = false →
      exec .resetLink s = .next { s with events := .returned .resetLink .closed :: s.events })

/-- R166: `EXIT`, with the whole state after it. -/
def Obligations.ExitMeaning : Prop :=
  ∀ s : State,
    (s.lkOpen = true →
      exec .exit s =
        .next { s with rbWr := 0, rbRd := 0, dfState := .idle, dfNeeded := 0, dfCollected := 0, fault := 0,
                       lkOpen := false, events := .returned .exit .done :: s.events }) ∧
    (s.lkOpen = false → exec .exit s = .next { s with events := .returned .exit .closed :: s.events })

/-- R172: a closed link refuses every operation but `CLASSIFY`, and only link-open leaves the closed
state. -/
def Obligations.ClosedLinkRefuses : Prop :=
  ∀ s : State, s.lkOpen = false →
    (∀ b, exec (.push b) s = .next { s with events := .returned (.push b) .closed :: s.events }) ∧
    (∀ m, exec (.popN m) s = .next { s with events := .returned (.popN m) .closed :: s.events }) ∧
    (s.active = .idle →
      exec .step s = .next { s with events := .returned .step .closed :: s.events } ∧
      exec .drain s = .next { s with events := .returned .drain .closed :: s.events }) ∧
    exec .resetLink s = .next { s with events := .returned .resetLink .closed :: s.events } ∧
    exec .exit s = .next { s with events := .returned .exit .closed :: s.events } ∧
    (∀ o, exec (.classify o) s =
      .next { s with events := .returned (.classify o) (.classified (classOf s.cfg.ct o)) :: s.events }) ∧
    (∀ t, step s = .next t → t.lkOpen = true → ∃ c rest, s.moves = .linkOpen c :: rest)

/-- R171: a second `RESET_LINK` changes nothing but to return again, and the state after one does not
depend on the state before it, but for the don't-care elements. -/
def Obligations.ResetIsIdempotent : Prop :=
  ∀ s s' t t' : State, s.lkOpen = true → s'.lkOpen = true → s'.cfg = s.cfg →
    exec .resetLink s = .next t → exec .resetLink s' = .next t' →
      exec .resetLink t = .next { t with events := .returned .resetLink .done :: t.events } ∧
      t'.cfg = t.cfg ∧ t'.rbWr = t.rbWr ∧ t'.rbRd = t.rbRd ∧ t'.dfState = t.dfState ∧
      t'.dfNeeded = t.dfNeeded ∧ t'.dfCollected = t.dfCollected ∧ t'.fault = t.fault ∧
      t'.lkOpen = t.lkOpen

/-- R211, R167: the state after link-open, and that it emits nothing; `State.reset` has the same
values. -/
def Obligations.LinkOpenGivesResetState : Prop :=
  (∀ (s : State) (c : Config) (rest : List Move), s.moves = .linkOpen c :: rest →
    ∃ t, step s = .next t ∧ t.rbWr = 0 ∧ t.rbRd = 0 ∧ t.dfState = .idle ∧ t.dfNeeded = 0 ∧
      t.dfCollected = 0 ∧ t.fault = 0 ∧ t.faultOut = false ∧ t.lkOpen = true ∧ t.events = s.events ∧
      t.moves = rest ∧ (s.lkOpen = false → c.wf = true → t.cfg = c)) ∧
  (State.reset.rbWr = 0 ∧ State.reset.rbRd = 0 ∧ State.reset.dfState = .idle ∧
    State.reset.dfNeeded = 0 ∧ State.reset.dfCollected = 0 ∧ State.reset.fault = 0 ∧
    State.reset.faultOut = false ∧ State.reset.lkOpen = true ∧ State.reset.events = [])

/-- R168: a `FEED` offers every byte by its own `PUSH`, emits one `data_ready` after the last and
returns how many were accepted. That this takes one transition for each byte and exactly one more, the
`data_ready` and the count together, is the model's (log entry 12). -/
def Obligations.FeedRun : Prop :=
  ∀ (s : State) (bytes : List Byte), RingInv s → s.active = .idle → s.feeding = none →
    (∀ n, n ≤ bytes.length →
      ∃ u : State, Sys2Proof.core.run n { s with moves := [.feed bytes] } = .next u ∧ ¬ AtEnd u) ∧
    ∃ t : State, Sys2Proof.core.run (bytes.length + 1) { s with moves := [.feed bytes] } = .next t ∧
      AtEnd t ∧
      (s.lkOpen = true →
        t.events =
          .fed (min bytes.length s.free) :: .dataReady ::
            (((bytes.drop s.free).map fun b => Event.returned (.push b) .full).reverse ++
              ((bytes.take s.free).map fun b => Event.returned (.push b) .ok).reverse ++ s.events) ∧
        t.fault = (if bytes.length ≤ s.free then s.fault else s.fault ||| 0b0010#4) ∧
        t.rbRd = s.rbRd ∧
        ∀ q, ringContents s = .ok q → ringContents t = .ok (q ++ bytes.take s.free)) ∧
      (s.lkOpen = false →
        t = { s with moves := [],
                     events := .fed 0 :: .dataReady ::
                       ((bytes.map fun b => Event.returned (.push b) .closed).reverse ++ s.events) })

end
end

