-- ==== Sys2Proof/Laws/Decode.lean ====
section
/-! SUPPORT. The laws of the bit fields and of the table lookup that the decoders and encoders use. -/

namespace Sys2Proof

/-! ### Bytes, 16-bit values, operation words -/

theorem le16_lowByte_highByte (v : Half) : le16 (lowByte v) (highByte v) = v := by
  apply BitVec.eq_of_getLsbD_eq
  intro i hi
  simp only [le16, lowByte, highByte, BitVec.getLsbD_append, BitVec.getLsbD_extractLsb']
  by_cases h : i < 8
  · simp [h]
  · simp [h, show i - 8 < 8 by omega, show 8 + (i - 8) = i by omega]

theorem lowByte_le16 (a b : Byte) : lowByte (le16 a b) = a := by
  apply BitVec.eq_of_getLsbD_eq
  intro i hi
  simp only [le16, lowByte, BitVec.getLsbD_append, BitVec.getLsbD_extractLsb']; simp [hi]

theorem highByte_le16 (a b : Byte) : highByte (le16 a b) = b := by
  apply BitVec.eq_of_getLsbD_eq
  intro i hi
  simp only [le16, highByte, BitVec.getLsbD_append, BitVec.getLsbD_extractLsb']; simp [hi]

theorem lowByte_ofNat (n : Nat) : lowByte (BitVec.ofNat 16 n) = BitVec.ofNat 8 n := by
  apply BitVec.eq_of_toNat_eq
  simp [lowByte]

theorem highByte_ofNat (n : Nat) : highByte (BitVec.ofNat 16 n) = BitVec.ofNat 8 (n / 256) := by
  apply BitVec.eq_of_toNat_eq
  simp [highByte, Nat.shiftRight_eq_div_pow]; omega

theorem opField_opWord (o : BitVec 3) (a : Half) : opField (opWord o a) = o := by
  apply BitVec.eq_of_getLsbD_eq
  intro i hi
  simp only [opField, opWord, BitVec.getLsbD_append, BitVec.getLsbD_extractLsb']; simp [hi]

theorem argField_opWord (o : BitVec 3) (a : Half) : argField (opWord o a) = a := by
  apply BitVec.eq_of_getLsbD_eq
  intro i hi
  simp only [argField, opWord, BitVec.getLsbD_append, BitVec.getLsbD_extractLsb']; simp [hi]

theorem opWord_fields (w : OpWord) : opWord (opField w) (argField w) = w := by
  apply BitVec.eq_of_getLsbD_eq
  intro i hi
  simp only [opField, argField, opWord, BitVec.getLsbD_append, BitVec.getLsbD_extractLsb']
  by_cases h16 : i < 16
  · simp [h16]
  · simp [h16, show i - 16 < 3 by omega, show 16 + (i - 16) = i by omega]

theorem highByte_setWidth (b : Byte) : highByte (b.setWidth 16) = 0 := by
  apply BitVec.eq_of_getLsbD_eq
  intro i hi
  simp [highByte]

theorem lowByte_setWidth (b : Byte) : lowByte (b.setWidth 16) = b := by
  apply BitVec.eq_of_getLsbD_eq
  intro i hi
  simp only [lowByte, BitVec.getLsbD_extractLsb', BitVec.getLsbD_setWidth]; simp [hi]; omega

theorem setWidth_lowByte (a : Half) (h : highByte a = 0) : (lowByte a).setWidth 16 = a := by
  have := le16_lowByte_highByte a
  rw [h] at this
  conv => rhs; rw [← this]
  apply BitVec.eq_of_getLsbD_eq
  intro i hi
  simp only [le16, lowByte, BitVec.getLsbD_append, BitVec.getLsbD_setWidth, BitVec.getLsbD_extractLsb']
  by_cases h : i < 8 <;> simp [h, hi]

/-! ### Lookup in an ascending list -/

theorem ascending_cons {n : Nat} {α : Type} {e : BitVec n × α} {l : List (BitVec n × α)} (h : ascending (e :: l) = true) :
    ascending l = true ∧ ∀ x ∈ l, e.1 < x.1 := by
  induction l generalizing e with
  | nil => simp [ascending]
  | cons f l ih =>
    obtain ⟨a, b⟩ := e; obtain ⟨c, d⟩ := f
    simp only [ascending, Bool.and_eq_true, decide_eq_true_eq] at h
    refine ⟨h.2, ?_⟩
    intro x hx
    rcases List.mem_cons.mp hx with rfl | hx
    · exact h.1
    · exact BitVec.lt_trans h.1 ((ih h.2).2 x hx)

theorem assoc_eq_some {n : Nat} {α : Type} {k : BitVec n} {v : α} {l : List (BitVec n × α)} (h : ascending l = true)
    (hm : (k, v) ∈ l) : assoc k l = some v := by
  induction l with
  | nil => cases hm
  | cons e l ih =>
    obtain ⟨x, w⟩ := e
    obtain ⟨h1, h2⟩ := ascending_cons h
    rcases List.mem_cons.mp hm with h0 | h0
    · cases h0; simp [assoc]
    · have := h2 _ h0
      simp only at this
      have hne : x ≠ k := fun e => by subst e; exact absurd this (BitVec.lt_irrefl _)
      simp [assoc, hne, ih h1 h0]

theorem assoc_eq_none {n : Nat} {α : Type} {k : BitVec n} {l : List (BitVec n × α)} (h : ∀ e ∈ l, e.1 ≠ k) :
    assoc k l = none := by
  induction l with
  | nil => rfl
  | cons e l ih =>
    obtain ⟨x, w⟩ := e
    have := h (x, w) (by simp)
    simp only at this
    simp [assoc, this, ih (fun e he => h e (by simp [he]))]

end Sys2Proof
end

