-- ==== Sys2Proof/Laws/Memory.lean ====
section
/-! SUPPORT. The laws of the two memories: read after write, the canonical form is kept, what runs of
reads and stores do. -/

namespace Sys2Proof.Machine

theorem memRead_memWrite (m : List Host.Cell) (a x : Nat) (b : Byte) (h : memWf m = true) :
    memRead (memWrite m a b) x = if x = a then some b else memRead m x := by
  induction m with
  | nil => simp [memWrite, memRead, eq_comm]
  | cons c rest ih =>
    obtain ⟨y, v⟩ := c
    have below : ∀ (r : List Host.Cell) (y : Nat) (v : Byte), memWf ((y, v) :: r) = true →
        ∀ z, z ≤ y → z ≠ y → memRead r z = none := by
      intro r
      induction r with
      | nil => intros; rfl
      | cons d r ihr =>
        obtain ⟨w, u⟩ := d
        intro y v hw z hz hne
        simp only [memWf, Bool.and_eq_true, decide_eq_true_eq] at hw
        have : w ≠ z := by omega
        simp only [memRead, this, if_false]
        exact ihr w u hw.2 z (by omega) (by omega)
    have htail : memWf rest = true := by
      cases rest with
      | nil => rfl
      | cons d r => simp only [memWf, Bool.and_eq_true] at h; exact h.2
    simp only [memWrite]
    split
    · by_cases hx : x = a
      · subst hx; simp [memRead]
      · simp [memRead, hx, Ne.symm hx]
    · split
      · rename_i _ he
        subst he
        by_cases hx : x = a
        · subst hx; simp [memRead]
        · simp [memRead, hx, Ne.symm hx]
      · rename_i hlt hne
        simp only [memRead, ih htail]
        by_cases hx : x = a
        · subst hx; simp [Ne.symm hne]
        · simp [hx]

theorem memWrite_wf (m : List Host.Cell) (a : Nat) (b : Byte) (h : memWf m = true) :
    memWf (memWrite m a b) = true := by
  induction m with
  | nil => rfl
  | cons c rest ih =>
    obtain ⟨y, v⟩ := c
    simp only [memWrite]
    split
    · rename_i hlt
      simp [memWf, hlt, h]
    · split
      · rename_i _ he
        subst he
        cases rest with
        | nil => rfl
        | cons d r => simpa [memWf] using h
      · rename_i hlt hne
        cases rest with
        | nil => simp [memWrite, memWf]; omega
        | cons d r =>
          obtain ⟨w, u⟩ := d
          simp only [memWf, Bool.and_eq_true, decide_eq_true_eq] at h
          have h' := ih h.2
          simp only [memWrite] at h' ⊢
          split
          · rename_i hw
            simp only [hw, if_true] at h'
            simp only [memWf, Bool.and_eq_true, decide_eq_true_eq] at h' ⊢
            exact ⟨by omega, h'⟩
          · rename_i hw
            simp only [hw, if_false] at h'
            split
            · rename_i he
              subst he
              simp only [if_true] at h'
              simp only [memWf, Bool.and_eq_true, decide_eq_true_eq]
              exact ⟨by omega, h'⟩
            · rename_i he
              simp only [he, if_false] at h'
              simp only [memWf, Bool.and_eq_true, decide_eq_true_eq]
              exact ⟨h.1, h'⟩

@[simp] theorem readByte_ok (sp : Space) (m : List Host.Cell) (a : Nat) (b : Byte) :
    readByte sp m a = .ok b ↔ memRead m a = some b := by
  unfold readByte
  split <;> simp_all

/-- What a run of ring reads that succeeds returns. -/
theorem readRing_ok {n i count : Nat} {m : List Host.Cell} {bytes : List Byte}
    (h : readRing n m i count = .ok bytes) :
    bytes.length = count ∧ ∀ k, k < count → memRead m ((i + k) % n) = some (bytes.getD k 0) := by
  induction count generalizing i bytes with
  | zero =>
    simp only [readRing, Except.ok.injEq] at h
    subst h
    simp
  | succ count ih =>
    simp only [readRing] at h
    split at h
    · cases h
    · rename_i b hb
      split at h
      · cases h
      · rename_i rest hr
        cases h
        obtain ⟨hl, hk⟩ := ih hr
        refine ⟨by simp [hl], ?_⟩
        intro k hk'
        cases k with
        | zero => simpa using hb
        | succ k => simpa [Nat.add_assoc, Nat.add_comm 1 k] using hk k (by omega)

/-- A run of ring reads returns the bytes it should where every slot holds one. -/
theorem readRing_eq {n i count : Nat} {m : List Host.Cell} {bytes : List Byte}
    (hl : bytes.length = count)
    (h : ∀ k, k < count → memRead m ((i + k) % n) = some (bytes.getD k 0)) :
    readRing n m i count = .ok bytes := by
  induction count generalizing i bytes with
  | zero =>
    rw [List.eq_nil_of_length_eq_zero hl]
    rfl
  | succ count ih =>
    cases bytes with
    | nil => simp at hl
    | cons b bytes =>
      have h0 := h 0 (by omega)
      have hr := ih (i := i + 1) (bytes := bytes) (by simpa using hl) fun k hk => by
        simpa [Nat.add_assoc, Nat.add_comm 1 k] using h (k + 1) (by omega)
      simp only [Nat.add_zero] at h0
      simp [readRing, readByte, h0, hr]

/-- A run of ring reads succeeds where every slot has been written. -/
theorem readRing_total {n i count : Nat} {m : List Host.Cell}
    (h : ∀ k, k < count → (memRead m ((i + k) % n)).isSome = true) :
    ∃ bytes, readRing n m i count = .ok bytes :=
  ⟨List.ofFn fun k : Fin count => (memRead m ((i + k) % n)).getD 0, readRing_eq (by simp) (by
    intro k hk
    obtain ⟨b, hb⟩ := Option.isSome_iff_exists.mp (h k hk)
    simp [hb, hk])⟩

/-- What a run of `pkt` reads that succeeds returns. -/
theorem readPkt_ok {i count : Nat} {m : List Host.Cell} {bytes : List Byte}
    (h : readPkt m i count = .ok bytes) :
    bytes.length = count ∧ ∀ k, k < count → memRead m (i + k) = some (bytes.getD k 0) := by
  induction count generalizing i bytes with
  | zero =>
    simp only [readPkt, Except.ok.injEq] at h
    subst h
    simp
  | succ count ih =>
    simp only [readPkt] at h
    split at h
    · cases h
    · rename_i b hb
      split at h
      · cases h
      · rename_i rest hr
        cases h
        obtain ⟨hl, hk⟩ := ih hr
        refine ⟨by simp [hl], ?_⟩
        intro k hk'
        cases k with
        | zero => simpa using hb
        | succ k => simpa [Nat.add_assoc, Nat.add_comm 1 k] using hk k (by omega)

/-- A run of `pkt` reads returns the bytes it should where every index holds one. -/
theorem readPkt_eq {i count : Nat} {m : List Host.Cell} {bytes : List Byte}
    (hl : bytes.length = count)
    (h : ∀ k, k < count → memRead m (i + k) = some (bytes.getD k 0)) :
    readPkt m i count = .ok bytes := by
  induction count generalizing i bytes with
  | zero =>
    rw [List.eq_nil_of_length_eq_zero hl]
    rfl
  | succ count ih =>
    cases bytes with
    | nil => simp at hl
    | cons b bytes =>
      have h0 := h 0 (by omega)
      have hr := ih (i := i + 1) (bytes := bytes) (by simpa using hl) fun k hk => by
        simpa [Nat.add_assoc, Nat.add_comm 1 k] using h (k + 1) (by omega)
      simp only [Nat.add_zero] at h0
      simp [readPkt, readByte, h0, hr]

/-- A run of `pkt` reads succeeds where every byte has been written. -/
theorem readPkt_total {i count : Nat} {m : List Host.Cell}
    (h : ∀ k, k < count → (memRead m (i + k)).isSome = true) :
    ∃ bytes, readPkt m i count = .ok bytes :=
  ⟨List.ofFn fun k : Fin count => (memRead m (i + k)).getD 0, readPkt_eq (by simp) (by
    intro k hk
    obtain ⟨b, hb⟩ := Option.isSome_iff_exists.mp (h k hk)
    simp [hb, hk])⟩

/-- Every address a memory lists is below `n`. -/
theorem memRead_below {m : List Host.Cell} {n a : Nat} {b : Byte}
    (h : (m.all fun c => c.1 < n) = true) (hr : memRead m a = some b) : a < n := by
  induction m with
  | nil => cases hr
  | cons c rest ih =>
    obtain ⟨x, v⟩ := c
    simp only [List.all_cons, Bool.and_eq_true, decide_eq_true_eq] at h
    simp only [memRead] at hr
    split at hr
    · rename_i hx
      subst hx
      exact h.1
    · exact ih h.2 hr

theorem memWrite_below {m : List Host.Cell} {n a : Nat} (b : Byte)
    (h : (m.all fun c => c.1 < n) = true) (ha : a < n) :
    ((memWrite m a b).all fun c => c.1 < n) = true := by
  induction m with
  | nil => simp [memWrite, ha]
  | cons c rest ih =>
    obtain ⟨x, v⟩ := c
    simp only [List.all_cons, Bool.and_eq_true, decide_eq_true_eq] at h
    simp only [memWrite]
    split
    · simp only [List.all_cons, Bool.and_eq_true, decide_eq_true_eq]
      exact ⟨ha, h.1, h.2⟩
    · split
      · simp only [List.all_cons, Bool.and_eq_true, decide_eq_true_eq]
        exact ⟨ha, h.2⟩
      · simp only [List.all_cons, Bool.and_eq_true, decide_eq_true_eq]
        exact ⟨h.1, ih h.2⟩

/-- What a run of stores that succeeds does: its indices exist, the canonical form and the bound are
kept, the stored bytes read back and every other byte reads as before. -/
theorem storePkt_ok {size i : Nat} {m m' : List Host.Cell} {bytes : List Byte}
    (h : storePkt size m i bytes = .ok m') :
    (bytes = [] ∨ i + bytes.length ≤ size) ∧
      ((m.all fun c => c.1 < size) = true → (m'.all fun c => c.1 < size) = true) ∧
      (memWf m = true → memWf m' = true ∧
        ∀ a, memRead m' a =
          if i ≤ a ∧ a < i + bytes.length then some (bytes.getD (a - i) 0) else memRead m a) := by
  induction bytes generalizing m i with
  | nil =>
    simp only [storePkt, Except.ok.injEq] at h
    subst h
    refine ⟨.inl rfl, id, fun hw => ⟨hw, fun a => ?_⟩⟩
    rw [if_neg (by simp)]
  | cons b bytes ih =>
    simp only [storePkt] at h
    split at h
    · rename_i hi
      obtain ⟨h2, hb, h3⟩ := ih h
      refine ⟨?_, fun hm => hb (memWrite_below b hm hi), ?_⟩
      · right
        rcases h2 with h2 | h2
        · subst h2; simpa using hi
        · simp only [List.length_cons]
          omega
      · intro hw
        obtain ⟨h4, h5⟩ := h3 (memWrite_wf _ _ _ hw)
        refine ⟨h4, fun a => ?_⟩
        rw [h5 a, memRead_memWrite _ _ _ _ hw]
        by_cases ha : a = i
        · subst ha; simp
        · by_cases hb : i + 1 ≤ a ∧ a < i + 1 + bytes.length
          · rw [if_pos hb, if_pos (by simp only [List.length_cons]; omega)]
            obtain ⟨k, rfl⟩ : ∃ k, a = i + 1 + k := ⟨a - (i + 1), by omega⟩
            have e1 : i + 1 + k - (i + 1) = k := by omega
            have e2 : i + 1 + k - i = k + 1 := by omega
            rw [e1, e2]
            rfl
          · rw [if_neg hb, if_neg ha, if_neg (by simp only [List.length_cons]; omega)]
    · cases h

/-- A run of stores succeeds within the size of `pkt`. -/
theorem storePkt_total {size i : Nat} {m : List Host.Cell} {bytes : List Byte}
    (h : i + bytes.length ≤ size) : ∃ m', storePkt size m i bytes = .ok m' := by
  induction bytes generalizing m i with
  | nil => exact ⟨m, rfl⟩
  | cons b bytes ih =>
    simp only [List.length_cons] at h
    obtain ⟨m', hm'⟩ := ih (m := memWrite m i b) (i := i + 1) (by omega)
    exact ⟨m', by simp [storePkt, show i < size by omega, hm']⟩

end Sys2Proof.Machine
end

