-- ==== Sys2Proof/Laws/State.lean ====
section
/-! SUPPORT. One lemma per field and named update of the state, so that no proof unfolds a record
update. -/

namespace Sys2Proof.Machine

/-! ### s.emit e -/

@[simp] theorem State.emit_cfg (s : State) (e : Event) : (s.emit e).cfg = s.cfg := rfl
@[simp] theorem State.emit_rbMem (s : State) (e : Event) : (s.emit e).rbMem = s.rbMem := rfl
@[simp] theorem State.emit_rbWr (s : State) (e : Event) : (s.emit e).rbWr = s.rbWr := rfl
@[simp] theorem State.emit_rbRd (s : State) (e : Event) : (s.emit e).rbRd = s.rbRd := rfl
@[simp] theorem State.emit_dfState (s : State) (e : Event) : (s.emit e).dfState = s.dfState := rfl
@[simp] theorem State.emit_dfKind (s : State) (e : Event) : (s.emit e).dfKind = s.dfKind := rfl
@[simp] theorem State.emit_dfNeeded (s : State) (e : Event) : (s.emit e).dfNeeded = s.dfNeeded := rfl
@[simp] theorem State.emit_dfCollected (s : State) (e : Event) : (s.emit e).dfCollected = s.dfCollected := rfl
@[simp] theorem State.emit_pkt (s : State) (e : Event) : (s.emit e).pkt = s.pkt := rfl
@[simp] theorem State.emit_fault (s : State) (e : Event) : (s.emit e).fault = s.fault := rfl
@[simp] theorem State.emit_badType (s : State) (e : Event) : (s.emit e).badType = s.badType := rfl
@[simp] theorem State.emit_lkOpen (s : State) (e : Event) : (s.emit e).lkOpen = s.lkOpen := rfl
@[simp] theorem State.emit_events (s : State) (e : Event) : (s.emit e).events = e :: s.events := rfl
@[simp] theorem State.emit_active (s : State) (e : Event) : (s.emit e).active = s.active := rfl
@[simp] theorem State.emit_feeding (s : State) (e : Event) : (s.emit e).feeding = s.feeding := rfl
@[simp] theorem State.emit_moves (s : State) (e : Event) : (s.emit e).moves = s.moves := rfl

/-! ### s.ret i r -/

@[simp] theorem State.ret_cfg (s : State) (i : Instr) (r : Result) : (s.ret i r).cfg = s.cfg := rfl
@[simp] theorem State.ret_rbMem (s : State) (i : Instr) (r : Result) : (s.ret i r).rbMem = s.rbMem := rfl
@[simp] theorem State.ret_rbWr (s : State) (i : Instr) (r : Result) : (s.ret i r).rbWr = s.rbWr := rfl
@[simp] theorem State.ret_rbRd (s : State) (i : Instr) (r : Result) : (s.ret i r).rbRd = s.rbRd := rfl
@[simp] theorem State.ret_dfState (s : State) (i : Instr) (r : Result) : (s.ret i r).dfState = s.dfState := rfl
@[simp] theorem State.ret_dfKind (s : State) (i : Instr) (r : Result) : (s.ret i r).dfKind = s.dfKind := rfl
@[simp] theorem State.ret_dfNeeded (s : State) (i : Instr) (r : Result) : (s.ret i r).dfNeeded = s.dfNeeded := rfl
@[simp] theorem State.ret_dfCollected (s : State) (i : Instr) (r : Result) : (s.ret i r).dfCollected = s.dfCollected := rfl
@[simp] theorem State.ret_pkt (s : State) (i : Instr) (r : Result) : (s.ret i r).pkt = s.pkt := rfl
@[simp] theorem State.ret_fault (s : State) (i : Instr) (r : Result) : (s.ret i r).fault = s.fault := rfl
@[simp] theorem State.ret_badType (s : State) (i : Instr) (r : Result) : (s.ret i r).badType = s.badType := rfl
@[simp] theorem State.ret_lkOpen (s : State) (i : Instr) (r : Result) : (s.ret i r).lkOpen = s.lkOpen := rfl
@[simp] theorem State.ret_events (s : State) (i : Instr) (r : Result) : (s.ret i r).events = .returned i r :: s.events := rfl
@[simp] theorem State.ret_active (s : State) (i : Instr) (r : Result) : (s.ret i r).active = s.active := rfl
@[simp] theorem State.ret_feeding (s : State) (i : Instr) (r : Result) : (s.ret i r).feeding = s.feeding := rfl
@[simp] theorem State.ret_moves (s : State) (i : Instr) (r : Result) : (s.ret i r).moves = s.moves := rfl

/-! ### s.raise f -/

@[simp] theorem State.raise_cfg (s : State) (f : FaultCode) : (s.raise f).cfg = s.cfg := rfl
@[simp] theorem State.raise_rbMem (s : State) (f : FaultCode) : (s.raise f).rbMem = s.rbMem := rfl
@[simp] theorem State.raise_rbWr (s : State) (f : FaultCode) : (s.raise f).rbWr = s.rbWr := rfl
@[simp] theorem State.raise_rbRd (s : State) (f : FaultCode) : (s.raise f).rbRd = s.rbRd := rfl
@[simp] theorem State.raise_dfState (s : State) (f : FaultCode) : (s.raise f).dfState = s.dfState := rfl
@[simp] theorem State.raise_dfKind (s : State) (f : FaultCode) : (s.raise f).dfKind = s.dfKind := rfl
@[simp] theorem State.raise_dfNeeded (s : State) (f : FaultCode) : (s.raise f).dfNeeded = s.dfNeeded := rfl
@[simp] theorem State.raise_dfCollected (s : State) (f : FaultCode) : (s.raise f).dfCollected = s.dfCollected := rfl
@[simp] theorem State.raise_pkt (s : State) (f : FaultCode) : (s.raise f).pkt = s.pkt := rfl
@[simp] theorem State.raise_fault (s : State) (f : FaultCode) : (s.raise f).fault = withFaultBit s.fault f := rfl
@[simp] theorem State.raise_badType (s : State) (f : FaultCode) : (s.raise f).badType = recordedType s.badType f := rfl
@[simp] theorem State.raise_lkOpen (s : State) (f : FaultCode) : (s.raise f).lkOpen = s.lkOpen := rfl
@[simp] theorem State.raise_events (s : State) (f : FaultCode) : (s.raise f).events = s.events := rfl
@[simp] theorem State.raise_active (s : State) (f : FaultCode) : (s.raise f).active = s.active := rfl
@[simp] theorem State.raise_feeding (s : State) (f : FaultCode) : (s.raise f).feeding = s.feeding := rfl
@[simp] theorem State.raise_moves (s : State) (f : FaultCode) : (s.raise f).moves = s.moves := rfl

/-! ### s.toIdle -/

@[simp] theorem State.toIdle_cfg (s : State) : (s.toIdle).cfg = s.cfg := rfl
@[simp] theorem State.toIdle_rbMem (s : State) : (s.toIdle).rbMem = s.rbMem := rfl
@[simp] theorem State.toIdle_rbWr (s : State) : (s.toIdle).rbWr = s.rbWr := rfl
@[simp] theorem State.toIdle_rbRd (s : State) : (s.toIdle).rbRd = s.rbRd := rfl
@[simp] theorem State.toIdle_dfState (s : State) : (s.toIdle).dfState = .idle := rfl
@[simp] theorem State.toIdle_dfKind (s : State) : (s.toIdle).dfKind = s.dfKind := rfl
@[simp] theorem State.toIdle_dfNeeded (s : State) : (s.toIdle).dfNeeded = 0 := rfl
@[simp] theorem State.toIdle_dfCollected (s : State) : (s.toIdle).dfCollected = 0 := rfl
@[simp] theorem State.toIdle_pkt (s : State) : (s.toIdle).pkt = s.pkt := rfl
@[simp] theorem State.toIdle_fault (s : State) : (s.toIdle).fault = s.fault := rfl
@[simp] theorem State.toIdle_badType (s : State) : (s.toIdle).badType = s.badType := rfl
@[simp] theorem State.toIdle_lkOpen (s : State) : (s.toIdle).lkOpen = s.lkOpen := rfl
@[simp] theorem State.toIdle_events (s : State) : (s.toIdle).events = s.events := rfl
@[simp] theorem State.toIdle_active (s : State) : (s.toIdle).active = s.active := rfl
@[simp] theorem State.toIdle_feeding (s : State) : (s.toIdle).feeding = s.feeding := rfl
@[simp] theorem State.toIdle_moves (s : State) : (s.toIdle).moves = s.moves := rfl

/-! ### s.clearLink -/

@[simp] theorem State.clearLink_cfg (s : State) : (s.clearLink).cfg = s.cfg := rfl
@[simp] theorem State.clearLink_rbMem (s : State) : (s.clearLink).rbMem = s.rbMem := rfl
@[simp] theorem State.clearLink_rbWr (s : State) : (s.clearLink).rbWr = 0 := rfl
@[simp] theorem State.clearLink_rbRd (s : State) : (s.clearLink).rbRd = 0 := rfl
@[simp] theorem State.clearLink_dfState (s : State) : (s.clearLink).dfState = .idle := rfl
@[simp] theorem State.clearLink_dfKind (s : State) : (s.clearLink).dfKind = s.dfKind := rfl
@[simp] theorem State.clearLink_dfNeeded (s : State) : (s.clearLink).dfNeeded = 0 := rfl
@[simp] theorem State.clearLink_dfCollected (s : State) : (s.clearLink).dfCollected = 0 := rfl
@[simp] theorem State.clearLink_pkt (s : State) : (s.clearLink).pkt = s.pkt := rfl
@[simp] theorem State.clearLink_fault (s : State) : (s.clearLink).fault = 0 := rfl
@[simp] theorem State.clearLink_badType (s : State) : (s.clearLink).badType = s.badType := rfl
@[simp] theorem State.clearLink_lkOpen (s : State) : (s.clearLink).lkOpen = s.lkOpen := rfl
@[simp] theorem State.clearLink_events (s : State) : (s.clearLink).events = s.events := rfl
@[simp] theorem State.clearLink_active (s : State) : (s.clearLink).active = s.active := rfl
@[simp] theorem State.clearLink_feeding (s : State) : (s.clearLink).feeding = s.feeding := rfl
@[simp] theorem State.clearLink_moves (s : State) : (s.clearLink).moves = s.moves := rfl

/-! ### s.append b -/

@[simp] theorem State.append_cfg (s : State) (b : Byte) : (s.append b).cfg = s.cfg := rfl
@[simp] theorem State.append_rbMem (s : State) (b : Byte) : (s.append b).rbMem = memWrite s.rbMem s.rbWr b := rfl
@[simp] theorem State.append_rbWr (s : State) (b : Byte) : (s.append b).rbWr = s.ringIndex s.rbWr 1 := rfl
@[simp] theorem State.append_rbRd (s : State) (b : Byte) : (s.append b).rbRd = s.rbRd := rfl
@[simp] theorem State.append_dfState (s : State) (b : Byte) : (s.append b).dfState = s.dfState := rfl
@[simp] theorem State.append_dfKind (s : State) (b : Byte) : (s.append b).dfKind = s.dfKind := rfl
@[simp] theorem State.append_dfNeeded (s : State) (b : Byte) : (s.append b).dfNeeded = s.dfNeeded := rfl
@[simp] theorem State.append_dfCollected (s : State) (b : Byte) : (s.append b).dfCollected = s.dfCollected := rfl
@[simp] theorem State.append_pkt (s : State) (b : Byte) : (s.append b).pkt = s.pkt := rfl
@[simp] theorem State.append_fault (s : State) (b : Byte) : (s.append b).fault = s.fault := rfl
@[simp] theorem State.append_badType (s : State) (b : Byte) : (s.append b).badType = s.badType := rfl
@[simp] theorem State.append_lkOpen (s : State) (b : Byte) : (s.append b).lkOpen = s.lkOpen := rfl
@[simp] theorem State.append_events (s : State) (b : Byte) : (s.append b).events = s.events := rfl
@[simp] theorem State.append_active (s : State) (b : Byte) : (s.append b).active = s.active := rfl
@[simp] theorem State.append_feeding (s : State) (b : Byte) : (s.append b).feeding = s.feeding := rfl
@[simp] theorem State.append_moves (s : State) (b : Byte) : (s.append b).moves = s.moves := rfl

/-! ### s.atRest -/

@[simp] theorem State.atRest_cfg (s : State) : (s.atRest).cfg = s.cfg := rfl
@[simp] theorem State.atRest_rbMem (s : State) : (s.atRest).rbMem = s.rbMem := rfl
@[simp] theorem State.atRest_rbWr (s : State) : (s.atRest).rbWr = s.rbWr := rfl
@[simp] theorem State.atRest_rbRd (s : State) : (s.atRest).rbRd = s.rbRd := rfl
@[simp] theorem State.atRest_dfState (s : State) : (s.atRest).dfState = s.dfState := rfl
@[simp] theorem State.atRest_dfKind (s : State) : (s.atRest).dfKind = s.dfKind := rfl
@[simp] theorem State.atRest_dfNeeded (s : State) : (s.atRest).dfNeeded = s.dfNeeded := rfl
@[simp] theorem State.atRest_dfCollected (s : State) : (s.atRest).dfCollected = s.dfCollected := rfl
@[simp] theorem State.atRest_pkt (s : State) : (s.atRest).pkt = s.pkt := rfl
@[simp] theorem State.atRest_fault (s : State) : (s.atRest).fault = s.fault := rfl
@[simp] theorem State.atRest_badType (s : State) : (s.atRest).badType = s.badType := rfl
@[simp] theorem State.atRest_lkOpen (s : State) : (s.atRest).lkOpen = s.lkOpen := rfl
@[simp] theorem State.atRest_events (s : State) : (s.atRest).events = s.events := rfl
@[simp] theorem State.atRest_active (s : State) : (s.atRest).active = .idle := rfl
@[simp] theorem State.atRest_feeding (s : State) : (s.atRest).feeding = none := rfl
@[simp] theorem State.atRest_moves (s : State) : (s.atRest).moves = s.moves := rfl

/-! ### Functions of the state that an update leaves alone -/

@[simp] theorem State.emit_slots (s : State) (e : Event) : (s.emit e).slots = s.slots := rfl
@[simp] theorem State.ret_slots (s : State) (i : Instr) (r : Result) : (s.ret i r).slots = s.slots := rfl
@[simp] theorem State.raise_slots (s : State) (f : FaultCode) : (s.raise f).slots = s.slots := rfl
@[simp] theorem State.emit_avail (s : State) (e : Event) : (s.emit e).avail = s.avail := rfl
@[simp] theorem State.ret_avail (s : State) (i : Instr) (r : Result) : (s.ret i r).avail = s.avail := rfl
@[simp] theorem State.raise_avail (s : State) (f : FaultCode) : (s.raise f).avail = s.avail := rfl
@[simp] theorem State.clearLink_avail (s : State) : s.clearLink.avail = 0 := by
  simp [State.avail]
@[simp] theorem State.resetWith_avail (c : Config) : (State.resetWith c).avail = 0 := by
  simp [State.avail, State.resetWith]

theorem State.enabled_iff (s : State) : s.enabled = true ↔ s.lkOpen = true ∧ s.fault = 0 := by
  simp [State.enabled, State.faultOut]

theorem State.faultOut_iff (s : State) : s.faultOut = true ↔ s.fault ≠ 0 := by
  simp [State.faultOut]

/-- Taking a fault leaves `fault` nonzero: the deframer is halted from then on (R186 (4)). -/
theorem State.raise_fault_ne (s : State) (f : FaultCode) : (s.raise f).fault ≠ 0 := by
  simp only [State.raise_fault, withFaultBit]
  have h : ∀ v : BitVec 4, ∀ n : Fin 4, v ||| (1#4 <<< n.val) ≠ 0 := by decide
  cases f
  · exact h _ 0
  · exact h _ 1
  · exact h _ 2
  · exact h _ 3

/-- Taking a fault sets its own bit and no other (R186 (1)). -/
theorem State.raise_faultBit (s : State) (f : FaultCode) (n : Nat) (hn : n < 4) :
    (s.raise f).faultBit n = (s.faultBit n || (n == f.bit)) := by
  simp only [State.faultBit, State.raise_fault, withFaultBit]
  have h : ∀ v : BitVec 4, ∀ k n : Fin 4,
      (v ||| (1#4 <<< k.val)).getLsbD n.val = (v.getLsbD n.val || (n.val == k.val)) := by decide
  cases f
  · exact h _ 0 ⟨n, hn⟩
  · exact h _ 1 ⟨n, hn⟩
  · exact h _ 2 ⟨n, hn⟩
  · exact h _ 3 ⟨n, hn⟩

end Sys2Proof.Machine
end

