-- ==== Sys2Proof/Laws/Ring.lean ====
section
/-! SUPPORT. The laws of the ring: the arithmetic of the indices (R102, R103) and, said once, all that
`pushByte` and `popBytes` can do. -/

namespace Sys2Proof.Machine

theorem State.slots_pos (s : State) : 0 < s.slots := Nat.succ_pos _

theorem State.ringIndex_lt (s : State) (i k : Nat) : s.ringIndex i k < s.slots :=
  Nat.mod_lt _ s.slots_pos

/-- `avail` by cases, for indices in range. -/
theorem State.avail_eq {s : State} (hw : s.rbWr < s.slots) (hr : s.rbRd < s.slots) :
    s.avail = if s.rbRd ≤ s.rbWr then s.rbWr - s.rbRd else s.rbWr + s.slots - s.rbRd := by
  unfold State.avail
  split
  · rw [Int.emod_eq_of_lt (by omega) (by omega)]
    omega
  · rw [← Int.add_emod_right, Int.emod_eq_of_lt (by omega) (by omega)]
    omega

/-- One step of an index, by cases. -/
theorem State.ringIndex_eq {s : State} {i k : Nat} (hi : i < s.slots) (hk : k < s.slots) :
    s.ringIndex i k = if i + k < s.slots then i + k else i + k - s.slots := by
  unfold State.ringIndex
  split
  · exact Nat.mod_eq_of_lt ‹_›
  · rw [Nat.mod_eq_sub_mod (by omega), Nat.mod_eq_of_lt (by omega)]

theorem State.avail_lt {s : State} (hw : s.rbWr < s.slots) (hr : s.rbRd < s.slots) :
    s.avail < s.slots := by
  rw [State.avail_eq hw hr]
  split <;> omega

theorem State.idxCorrupt_false {s : State} (hw : s.rbWr < s.slots) (hr : s.rbRd < s.slots) :
    s.idxCorrupt = false := by
  simp [State.idxCorrupt, hw, hr]

/-- All that `PUSH` can do (R100). -/
theorem pushByte_cases (b : Byte) (s : State) :
    (s.lkOpen = false ∧ pushByte b s = (.closed, s)) ∨
    (s.lkOpen = true ∧ s.idxCorrupt = true ∧ pushByte b s = (.full, s.raise .idxCorrupt)) ∨
    (s.lkOpen = true ∧ s.idxCorrupt = false ∧ s.isFull = true ∧
      pushByte b s = (.full, s.raise .rbOverflow)) ∨
    (s.lkOpen = true ∧ s.idxCorrupt = false ∧ s.isFull = false ∧ pushByte b s = (.ok, s.append b)) := by
  unfold pushByte
  cases s.lkOpen <;> cases s.idxCorrupt <;> cases s.isFull <;> simp

/-- All that `POP_N` on an open link can do (R101), for indices in range. -/
theorem popBytes_ok {n : Nat} {s s' : State} {bs : List Byte} (hc : s.idxCorrupt = false)
    (h : popBytes n s = .ok (bs, s')) :
    bs.length = min n s.avail ∧ readRing s.slots s.rbMem s.rbRd (min n s.avail) = .ok bs ∧
      s' = { s with rbRd := s.ringIndex s.rbRd bs.length } := by
  simp only [popBytes, hc, Bool.false_eq_true, if_false] at h
  split at h
  · cases h
  · rename_i bs' hr
    cases h
    have hl := (readRing_ok hr).1
    exact ⟨hl, hr, by rw [hl]⟩

/-- `POP_N` succeeds where the valid window has been written. -/
theorem popBytes_total {n : Nat} {s : State} (hc : s.idxCorrupt = false)
    (hw : ∀ k, k < s.avail → (memRead s.rbMem (s.ringIndex s.rbRd k)).isSome = true) :
    ∃ bs, popBytes n s = .ok (bs, { s with rbRd := s.ringIndex s.rbRd (min n s.avail) }) := by
  obtain ⟨bs, hbs⟩ := readRing_total (n := s.slots) (m := s.rbMem) (i := s.rbRd)
    (count := min n s.avail) (fun k hk => hw k (by omega))
  exact ⟨bs, by simp [popBytes, hc, hbs]⟩

/-- `POP_N` on corrupt indices (R183). -/
theorem popBytes_corrupt {n : Nat} {s : State} (hc : s.idxCorrupt = true) :
    popBytes n s = .ok ([], s.raise .idxCorrupt) := by
  simp [popBytes, hc]

end Sys2Proof.Machine
end

