-- ==== Sys2Proof/Laws/Deframer.lean ====
section
/-! SUPPORT. The laws of the deframer: said once, all that each micro-transition and one pass of the
consumer can do (R121 to R127, R131). -/

namespace Sys2Proof.Machine

theorem Kind.ofTypeByte_typeByte (k : Kind) : Kind.ofTypeByte k.typeByte = some k := by
  cases k <;> decide

theorem Kind.typeByte_of_ofTypeByte {t : Byte} {k : Kind} (h : Kind.ofTypeByte t = some k) :
    t = k.typeByte := by
  revert h
  unfold Kind.ofTypeByte
  repeat' split
  all_goals
    intro h
    cases h
    try assumption

theorem State.ringIndex_zero {s : State} (h : s.rbRd < s.slots) : s.ringIndex s.rbRd 0 = s.rbRd :=
  Nat.mod_eq_of_lt h

/-- All that a micro-transition that pops can do (R13, R101): `go` is what follows its `POP_N`. -/
theorem withPopped_cases {n : Nat} {s s' : State} {r : MicroResult}
    {go : List Byte → State → Except Fault (MicroResult × State)}
    (h : withPopped n s go = .ok (r, s')) :
    (s.idxCorrupt = true ∧ r = .fault ∧ s' = s.raise .idxCorrupt) ∨
    (s.idxCorrupt = false ∧ ∃ bytes u, popBytes n s = .ok (bytes, u) ∧ go bytes u = .ok (r, s')) := by
  unfold withPopped at h
  split at h
  · cases h
    exact .inl ⟨‹_›, rfl, rfl⟩
  · rename_i hc
    split at h
    · cases h
    · exact .inr ⟨by simpa using hc, _, _, ‹_›, h⟩

/-- The same for indices in range: the bytes are the ring's, and `rb_rd` moves past them. -/
theorem withPopped_ok {n : Nat} {s s' : State} {r : MicroResult}
    {go : List Byte → State → Except Fault (MicroResult × State)} (hc : s.idxCorrupt = false)
    (h : withPopped n s go = .ok (r, s')) :
    ∃ bytes, bytes.length = min n s.avail ∧
      readRing s.slots s.rbMem s.rbRd (min n s.avail) = .ok bytes ∧
      go bytes { s with rbRd := s.ringIndex s.rbRd bytes.length } = .ok (r, s') := by
  rcases withPopped_cases h with ⟨h1, _⟩ | ⟨_, bytes, u, hp, hg⟩
  · simp [hc] at h1
  · obtain ⟨hl, hrd, rfl⟩ := popBytes_ok hc hp
    exact ⟨bytes, hl, hrd, hg⟩

/-- A micro-transition that pops goes on where the valid window has been written. -/
theorem withPopped_total {n : Nat} {s : State} (hc : s.idxCorrupt = false)
    (hw : ∀ k, k < s.avail → (memRead s.rbMem (s.ringIndex s.rbRd k)).isSome = true) :
    ∃ bytes, bytes.length = min n s.avail ∧
      ∀ go, withPopped n s go = go bytes { s with rbRd := s.ringIndex s.rbRd bytes.length } := by
  obtain ⟨bytes, hp⟩ := popBytes_total (n := n) hc hw
  obtain ⟨hl, -, hs⟩ := popBytes_ok hc hp
  exact ⟨bytes, hl, fun go => by simp only [withPopped, hc, Bool.false_eq_true, if_false, hp, hs]⟩

/-- All that `T_IDLE` can do (R121), for indices in range. -/
theorem tIdle_cases {s s' : State} {r : MicroResult} (hc : s.idxCorrupt = false)
    (hr : s.rbRd < s.slots) (h : tIdle s = .ok (r, s')) :
    (s.avail = 0 ∧ r = .needMore ∧ s' = s) ∨
    (∃ t, 0 < s.avail ∧ memRead s.rbMem s.rbRd = some t ∧
      ((Kind.ofTypeByte t = none ∧ r = .fault ∧
          s' = ({ s with rbRd := s.ringIndex s.rbRd 1 } : State).raise (.badType t)) ∨
       (∃ k, Kind.ofTypeByte t = some k ∧ 0 < s.cfg.pktMax ∧ r = .progress ∧
          s' = { s with rbRd := s.ringIndex s.rbRd 1, pkt := memWrite s.pkt 0 t, dfState := .header,
                        dfKind := k, dfNeeded := preambleSize k, dfCollected := 0 }))) := by
  obtain ⟨bytes, hl, hrd, hg⟩ := withPopped_ok hc h
  split at hg
  · cases hg
    simp only [List.length_nil] at hl
    exact .inl ⟨by omega, rfl, by simp [State.ringIndex_zero hr]⟩
  · rename_i t rest
    simp only [List.length_cons] at hl
    obtain rfl : rest = [] := List.eq_nil_of_length_eq_zero (by omega)
    have hav : 0 < s.avail := by
      simp only [List.length_nil] at hl
      omega
    have hm : min 1 s.avail = 1 := by omega
    rw [hm] at hrd
    have hmem := (readRing_ok hrd).2 0 (by omega)
    rw [Nat.add_zero, Nat.mod_eq_of_lt hr] at hmem
    refine .inr ⟨t, hav, by simpa using hmem, ?_⟩
    split at hg
    · cases hg
      exact .inl ⟨‹_›, rfl, rfl⟩
    · rename_i k hk
      refine .inr ⟨k, hk, ?_⟩
      simp only [storePkt] at hg
      by_cases hp : 0 < s.cfg.pktMax
      · simp only [hp, if_true, Except.ok.injEq, Prod.mk.injEq] at hg
        exact ⟨hp, hg.1.symm, hg.2.symm⟩
      · simp only [hp, if_false] at hg
        cases hg

/-- All that the end of `T_HEADER` can do (R122, R184). -/
theorem finishPreamble_cases {s s' : State} {r : MicroResult} (h : finishPreamble s = .ok (r, s')) :
    ∃ len, readContentLength s.dfKind s.pkt = .ok len ∧
      ((s.cfg.pktMax < frameLength s.dfKind len ∧ r = .fault ∧ s' = (s.raise .frameTooLong).toIdle) ∨
       (frameLength s.dfKind len ≤ s.cfg.pktMax ∧ r = .progress ∧
          s' = { s with dfState := .content, dfNeeded := len, dfCollected := 0 })) := by
  unfold finishPreamble at h
  split at h
  · cases h
  · rename_i len hl
    refine ⟨len, hl, ?_⟩
    split at h
    · cases h
      exact .inl ⟨‹_›, rfl, rfl⟩
    · cases h
      exact .inr ⟨by omega, rfl, rfl⟩

/-- All that `T_HEADER` can do (R122), for indices in range: `m` is `pkt` with the popped bytes stored. -/
theorem tHeader_cases {s s' : State} {r : MicroResult} (hc : s.idxCorrupt = false)
    (h : tHeader s = .ok (r, s')) :
    ∃ bytes m, bytes.length = min s.want s.avail ∧
      readRing s.slots s.rbMem s.rbRd (min s.want s.avail) = .ok bytes ∧
      storePkt s.cfg.pktMax s.pkt s.preambleIndex bytes = .ok m ∧
      ((s.dfCollected + bytes.length < s.dfNeeded ∧ r = .needMore ∧
          s' = { s with rbRd := s.ringIndex s.rbRd bytes.length, pkt := m,
                        dfCollected := s.dfCollected + bytes.length }) ∨
       (s.dfNeeded ≤ s.dfCollected + bytes.length ∧
          finishPreamble { s with rbRd := s.ringIndex s.rbRd bytes.length, pkt := m } =
            .ok (r, s'))) := by
  obtain ⟨bytes, hl, hrd, hg⟩ := withPopped_ok hc h
  split at hg
  · cases hg
  · rename_i m hst
    refine ⟨bytes, m, hl, hrd, hst, ?_⟩
    split at hg
    · cases hg
      exact .inl ⟨‹_›, rfl, rfl⟩
    · exact .inr ⟨by omega, hg⟩

/-- All that `T_CONTENT` can do (R123), for indices in range: `m` is `pkt` with the popped bytes stored. -/
theorem tContent_cases {s s' : State} {r : MicroResult} (hc : s.idxCorrupt = false)
    (h : tContent s = .ok (r, s')) :
    ∃ bytes m, bytes.length = min s.want s.avail ∧
      readRing s.slots s.rbMem s.rbRd (min s.want s.avail) = .ok bytes ∧
      storePkt s.cfg.pktMax s.pkt s.contentIndex bytes = .ok m ∧
      ((s.dfCollected + bytes.length < s.dfNeeded ∧ r = .needMore ∧
          s' = { s with rbRd := s.ringIndex s.rbRd bytes.length, pkt := m,
                        dfCollected := s.dfCollected + bytes.length }) ∨
       (s.dfNeeded ≤ s.dfCollected + bytes.length ∧ r = .progress ∧
          s' = { s with rbRd := s.ringIndex s.rbRd bytes.length, pkt := m, dfState := .complete,
                        dfCollected := s.dfCollected + bytes.length })) := by
  obtain ⟨bytes, hl, hrd, hg⟩ := withPopped_ok hc h
  split at hg
  · cases hg
  · rename_i m hst
    refine ⟨bytes, m, hl, hrd, hst, ?_⟩
    split at hg
    · cases hg
      exact .inl ⟨‹_›, rfl, rfl⟩
    · cases hg
      exact .inr ⟨by omega, rfl, rfl⟩

/-- All that `T_COMPLETE` can do (R124). -/
theorem tComplete_cases {s s' : State} {r : MicroResult} (h : tComplete s = .ok (r, s')) :
    ∃ raw, readPkt s.pkt 0 (frameLength s.dfKind s.dfNeeded) = .ok raw ∧ r = .packetComplete ∧
      s' = completeFrame (packetOf s.dfKind raw) s := by
  unfold tComplete at h
  split at h
  · cases h
  · rename_i raw hr
    cases h
    exact ⟨raw, hr, rfl, rfl⟩

/-- All that one pass of the consumer can do (R126): nothing to do, closed, halted, or one
micro-transition `m` and what its result makes of the operation in progress. -/
theorem consumerPass_cases {s s' : State} (h : consumerPass s = .next s') :
    (s.active = .idle ∧ s' = s) ∨
    (s.active ≠ .idle ∧ s.lkOpen = false ∧ s' = closeConsumer s) ∨
    (s.active ≠ .idle ∧ s.lkOpen = true ∧ s.fault ≠ 0 ∧ s' = finishConsumer s .fault) ∨
    (s.active ≠ .idle ∧ s.lkOpen = true ∧ s.fault = 0 ∧ ∃ r m, microTransition s = .ok (r, m) ∧
      ((r = .progress ∧ s' = m) ∨ (r = .packetComplete ∧ s' = countPacket m) ∨
       (r = .needMore ∧ s' = finishConsumer m .needMore) ∨
       (r = .fault ∧ s' = finishConsumer m .fault))) := by
  unfold consumerPass at h
  split at h
  · cases h
    exact .inl ⟨‹_›, rfl⟩
  · rename_i ha
    split at h
    · rename_i hl
      cases h
      exact .inr (.inl ⟨ha, by simpa using hl, rfl⟩)
    · rename_i hl
      have hl' : s.lkOpen = true := by simpa using hl
      split at h
      · rename_i hf
        cases h
        exact .inr (.inr (.inl ⟨ha, hl', by simpa [State.faultOut] using hf, rfl⟩))
      · rename_i hf
        refine .inr (.inr (.inr ⟨ha, hl', by simpa [State.faultOut] using hf, ?_⟩))
        split at h
        · cases h
        all_goals
          rename_i m hm
          cases h
          exact ⟨_, _, hm, by simp⟩

/-- What `POP_N` leaves alone, whatever the indices (R43, R101). -/
theorem popBytes_frame {n : Nat} {s s' : State} {bs : List Byte} (h : popBytes n s = .ok (bs, s')) :
    s' = { s with rbRd := s'.rbRd, fault := s'.fault } ∧
      (s'.fault = s.fault ∨ s'.fault = withFaultBit s.fault .idxCorrupt) := by
  unfold popBytes at h
  split at h
  · cases h
    exact ⟨rfl, .inr rfl⟩
  · split at h
    · cases h
    · cases h
      exact ⟨rfl, .inl rfl⟩

/-- The edges of the deframer's states that a micro-transition can take (R131). -/
def Edge (s t : State) : Prop :=
  t.dfState = s.dfState ∨ (s.dfState = .idle ∧ t.dfState = .header) ∨
  (s.dfState = .header ∧ t.dfState = .content) ∨ (s.dfState = .content ∧ t.dfState = .complete) ∨
  (s.dfState = .header ∧ t.dfState = .idle ∧ t.faultBit 3 = true) ∨
  (s.dfState = .complete ∧ t.dfState = .idle ∧ ∃ p new, t.events = new ++ .deliver p :: s.events)

/-- Outputs added afterwards leave an edge an edge. -/
theorem Edge.emitted {s m t : State} (h : Edge s m) (hd : t.dfState = m.dfState) (hf : t.fault = m.fault)
    (he : ∃ new, t.events = new ++ m.events) : Edge s t := by
  obtain ⟨more, he⟩ := he
  unfold Edge State.faultBit at *
  rw [hd, hf]
  obtain h | h | h | h | h | ⟨h1, h2, p, new, h3⟩ := h
  · exact .inl h
  · exact .inr (.inl h)
  · exact .inr (.inr (.inl h))
  · exact .inr (.inr (.inr (.inl h)))
  · exact .inr (.inr (.inr (.inr (.inl h))))
  · exact .inr (.inr (.inr (.inr (.inr ⟨h1, h2, p, more ++ new, by rw [he, h3, List.append_assoc]⟩))))

theorem State.faultBit_raise {s : State} {f : FaultCode} {n : Nat} (h : s.faultBit n = true) :
    (s.raise f).faultBit n = true := by
  simp only [State.faultBit] at h
  simp [State.faultBit, State.raise, withFaultBit, h]

theorem State.faultBit_raise_self (s : State) (f : FaultCode) : (s.raise f).faultBit f.bit = true := by
  cases f <;> simp [State.faultBit, State.raise, withFaultBit, FaultCode.mask, FaultCode.bit]

/-- What a micro-transition leaves alone, whatever the state; and what it does to the deframer's state,
to `fault`, to `bad_type` and to the outputs (R43, R131, R180). -/
theorem micro_frame {s s' : State} {r : MicroResult} (h : microTransition s = .ok (r, s')) :
    s' = { s with rbRd := s'.rbRd, dfState := s'.dfState, dfKind := s'.dfKind,
                  dfNeeded := s'.dfNeeded, dfCollected := s'.dfCollected, pkt := s'.pkt,
                  fault := s'.fault, badType := s'.badType, events := s'.events } ∧
      Edge s s' ∧ (∀ n, s.faultBit n = true → s'.faultBit n = true) ∧
      (s'.badType = s.badType ∨ (s.dfState = .idle ∧ s'.faultBit 0 = true)) ∧
      ((r ≠ .packetComplete ∧ s'.events = s.events) ∨
        ∃ raw, r = .packetComplete ∧ s.dfState = .complete ∧ s'.dfState = .idle ∧
          readPkt s.pkt 0 (frameLength s.dfKind s.dfNeeded) = .ok raw ∧
          s'.events = .deliver (packetOf s.dfKind raw) :: s.events) := by
  unfold microTransition at h
  cases hd : s.dfState <;> simp only [hd] at h
  · rcases withPopped_cases h with ⟨_, rfl, rfl⟩ | ⟨hc, bytes, u, hp, hg⟩
    · exact ⟨rfl, .inl rfl, fun _ hn => State.faultBit_raise hn, .inl rfl, .inl ⟨by simp, rfl⟩⟩
    · obtain ⟨-, -, rfl⟩ := popBytes_ok hc hp
      split at hg
      · cases hg
        exact ⟨rfl, .inl rfl, fun _ hn => hn, .inl rfl, .inl ⟨by simp, rfl⟩⟩
      · split at hg
        · cases hg
          exact ⟨rfl, .inl rfl, fun _ hn => State.faultBit_raise hn,
            .inr ⟨rfl, State.faultBit_raise_self _ (.badType _)⟩, .inl ⟨by simp, rfl⟩⟩
        · split at hg
          · cases hg
          · cases hg
            exact ⟨rfl, .inr (.inl ⟨hd, rfl⟩), fun _ hn => hn, .inl rfl, .inl ⟨by simp, rfl⟩⟩
  · rcases withPopped_cases h with ⟨_, rfl, rfl⟩ | ⟨hc, bytes, u, hp, hg⟩
    · exact ⟨rfl, .inl rfl, fun _ hn => State.faultBit_raise hn, .inl rfl, .inl ⟨by simp, rfl⟩⟩
    · obtain ⟨-, -, rfl⟩ := popBytes_ok hc hp
      split at hg
      · cases hg
      · split at hg
        · cases hg
          exact ⟨rfl, .inl rfl, fun _ hn => hn, .inl rfl, .inl ⟨by simp, rfl⟩⟩
        · obtain ⟨len, -, ⟨-, rfl, rfl⟩ | ⟨-, rfl, rfl⟩⟩ := finishPreamble_cases hg
          · exact ⟨rfl, .inr (.inr (.inr (.inr (.inl ⟨hd, rfl, State.faultBit_raise_self _ .frameTooLong⟩)))),
              fun _ hn => State.faultBit_raise hn, .inl rfl, .inl ⟨by simp, rfl⟩⟩
          · exact ⟨rfl, .inr (.inr (.inl ⟨hd, rfl⟩)), fun _ hn => hn, .inl rfl, .inl ⟨by simp, rfl⟩⟩
  · rcases withPopped_cases h with ⟨_, rfl, rfl⟩ | ⟨hc, bytes, u, hp, hg⟩
    · exact ⟨rfl, .inl rfl, fun _ hn => State.faultBit_raise hn, .inl rfl, .inl ⟨by simp, rfl⟩⟩
    · obtain ⟨-, -, rfl⟩ := popBytes_ok hc hp
      split at hg
      · cases hg
      · split at hg
        · cases hg
          exact ⟨rfl, .inl rfl, fun _ hn => hn, .inl rfl, .inl ⟨by simp, rfl⟩⟩
        · cases hg
          exact ⟨rfl, .inr (.inr (.inr (.inl ⟨hd, rfl⟩))), fun _ hn => hn, .inl rfl, .inl ⟨by simp, rfl⟩⟩
  · obtain ⟨raw, hr, rfl, rfl⟩ := tComplete_cases h
    exact ⟨rfl, .inr (.inr (.inr (.inr (.inr ⟨hd, rfl, _, [], rfl⟩)))), fun _ hn => hn, .inl rfl,
      .inr ⟨raw, rfl, rfl, rfl, hr, rfl⟩⟩

end Sys2Proof.Machine
end

