-- ==== Sys2Proof/Laws/Frames.lean ====
section
/-! SUPPORT. Said once for each meaning: what it leaves alone, and what it may do to what it does not,
whatever the state. -/

namespace Sys2Proof.Machine

/-- What a pass of the consumer leaves alone, what it may do to the deframer's state, to `fault`, to
`bad_type` and to the outputs, whatever the state (R43, R125, R131). -/
theorem consumerPass_frame {s t : State} (h : consumerPass s = .next t) :
    t.cfg = s.cfg ∧ t.rbMem = s.rbMem ∧ t.rbWr = s.rbWr ∧ t.lkOpen = s.lkOpen ∧
   t.feeding = s.feeding ∧ t.moves = s.moves ∧
   Edge s t ∧ (t.dfState ≠ s.dfState → s.lkOpen = true ∧ s.fault = 0) ∧
   (∀ n, s.faultBit n = true → t.faultBit n = true) ∧
   (t.badType = s.badType ∨ (s.dfState = .idle ∧ s.fault = 0 ∧ t.faultBit 0 = true)) ∧
   (s.fault ≠ 0 → t.dfState = s.dfState ∧ t.dfKind = s.dfKind ∧ t.dfNeeded = s.dfNeeded ∧
      t.dfCollected = s.dfCollected ∧ t.pkt = s.pkt) ∧
   ∃ new, t.events = new ++ s.events ∧ new.length ≤ 2 ∧ ((∀ p, Event.deliver p ∉ new) ∨
     (∃ raw, (new = [.deliver (packetOf s.dfKind raw)] ∨ ∃ i r, new = [.returned i r, .deliver (packetOf s.dfKind raw)]) ∧ s.lkOpen = true ∧ s.fault = 0 ∧
       s.dfState = .complete ∧ t.dfState = .idle ∧ readPkt s.pkt 0 (frameLength s.dfKind s.dfNeeded) = .ok raw)) := by
  have fin : ∀ u w, finishConsumer u w = { u with active := (finishConsumer u w).active, events := (finishConsumer u w).events } ∧
     ∃ new, (finishConsumer u w).events = new ++ u.events ∧ new.length ≤ 1 ∧ ∀ p, Event.deliver p ∉ new := by
    intro u w
    unfold finishConsumer
    cases u.active
    · exact ⟨rfl, [], rfl, by simp, by simp⟩
    · exact ⟨rfl, [_], rfl, by simp, by simp⟩
    · exact ⟨rfl, [_], rfl, by simp, by simp⟩
  rcases consumerPass_cases h with ⟨_, rfl⟩ | ⟨_, ho, rfl⟩ | ⟨_, ho, hf, rfl⟩ | ⟨_, ho, hf, r, m, hm, hr⟩
  · exact ⟨rfl, rfl, rfl, rfl, rfl, rfl, .inl rfl, fun h => absurd rfl h, fun _ h => h, .inl rfl, fun _ => ⟨rfl, rfl, rfl, rfl, rfl⟩, [], rfl, by simp, .inl (by simp)⟩
  · unfold closeConsumer
    cases s.active
    · exact ⟨rfl, rfl, rfl, rfl, rfl, rfl, .inl rfl, fun h => absurd rfl h, fun _ h => h, .inl rfl, fun _ => ⟨rfl, rfl, rfl, rfl, rfl⟩, [], rfl, by simp, .inl (by simp)⟩
    · exact ⟨rfl, rfl, rfl, rfl, rfl, rfl, .inl rfl, fun h => absurd rfl h, fun _ h => h, .inl rfl, fun _ => ⟨rfl, rfl, rfl, rfl, rfl⟩, [_], rfl, by simp, .inl (by simp)⟩
    · exact ⟨rfl, rfl, rfl, rfl, rfl, rfl, .inl rfl, fun h => absurd rfl h, fun _ h => h, .inl rfl, fun _ => ⟨rfl, rfl, rfl, rfl, rfl⟩, [_], rfl, by simp, .inl (by simp)⟩
  · obtain ⟨e, new, e2, hl, hn⟩ := fin s .fault
    rw [e]
    exact ⟨rfl, rfl, rfl, rfl, rfl, rfl, .inl rfl, fun h => absurd rfl h, fun _ h => h, .inl rfl, fun _ => ⟨rfl, rfl, rfl, rfl, rfl⟩, new, e2, by omega, .inl hn⟩
  · obtain ⟨me, mst, mbit, mbad, mev⟩ := micro_frame hm
    have hmc : m.cfg = s.cfg ∧ m.rbMem = s.rbMem ∧ m.rbWr = s.rbWr ∧ m.lkOpen = s.lkOpen ∧ m.feeding = s.feeding ∧ m.moves = s.moves ∧ m.active = s.active := by
      rw [me]; exact ⟨rfl, rfl, rfl, rfl, rfl, rfl, rfl⟩
    obtain ⟨c1, c2, c3, c4, c5, c6, c7⟩ := hmc
    have mbad' : m.badType = s.badType ∨ (s.dfState = .idle ∧ s.fault = 0 ∧ m.faultBit 0 = true) := by
      rcases mbad with h | ⟨h1, h2⟩
      · exact .inl h
      · exact .inr ⟨h1, hf, h2⟩
    have hopen : m.dfState ≠ s.dfState → s.lkOpen = true ∧ s.fault = 0 := fun _ => ⟨ho, hf⟩
    have hnpc : r ≠ .packetComplete → m.events = s.events := by
      intro hr
      rcases mev with ⟨-, h⟩ | ⟨_, h, -⟩
      · exact h
      · exact absurd h hr
    rcases hr with ⟨rfl, rfl⟩ | ⟨rfl, rfl⟩ | ⟨rfl, rfl⟩ | ⟨rfl, rfl⟩
    · exact ⟨c1, c2, c3, c4, c5, c6, mst, hopen, mbit, mbad', fun h0 => absurd hf h0, [], by simp [hnpc], by simp, .inl (by simp)⟩
    · obtain ⟨hn, -⟩ | ⟨raw, -, h1, h2, h3, h4⟩ := mev
      · exact absurd rfl hn
      unfold countPacket
      cases ha : m.active
      · exact ⟨c1, c2, c3, c4, c5, c6, mst, hopen, mbit, mbad', fun h0 => absurd hf h0, [_], h4, by simp, .inr ⟨raw, .inl rfl, ho, hf, h1, h2, h3⟩⟩
      · exact ⟨c1, c2, c3, c4, c5, c6, mst.emitted rfl rfl ⟨[_], rfl⟩, hopen, mbit, mbad', fun h0 => absurd hf h0, [.returned .step .packetComplete, .deliver (packetOf s.dfKind raw)], by simp [h4], by simp, .inr ⟨raw, .inr ⟨_, _, rfl⟩, ho, hf, h1, h2, h3⟩⟩
      · exact ⟨c1, c2, c3, c4, c5, c6, mst.emitted rfl rfl ⟨[], rfl⟩, hopen, mbit, mbad', fun h0 => absurd hf h0, [_], by simp [h4], by simp, .inr ⟨raw, .inl rfl, ho, hf, h1, h2, h3⟩⟩
    · obtain ⟨e, new, e2, hl, hn⟩ := fin m .needMore
      rw [e]
      exact ⟨c1, c2, c3, c4, c5, c6, mst.emitted rfl rfl ⟨new, e2⟩, hopen, mbit, mbad', fun h0 => absurd hf h0, new, by simp [e2, hnpc], by omega, .inl hn⟩
    · obtain ⟨e, new, e2, hl, hn⟩ := fin m .fault
      rw [e]
      exact ⟨c1, c2, c3, c4, c5, c6, mst.emitted rfl rfl ⟨new, e2⟩, hopen, mbit, mbad', fun h0 => absurd hf h0, new, by simp [e2, hnpc], by omega, .inl hn⟩

/-- What a transition of a `FEED` leaves alone, and what it may do to `fault`, to `rb_mem` and to the
outputs (R43, R168). -/
theorem feedPass_frame {s t : State} (h : feedPass s = .next t) :
   t = { s with rbMem := t.rbMem, rbWr := t.rbWr, fault := t.fault, events := t.events, feeding := t.feeding } ∧
   (t.fault = s.fault ∨ ∃ f, t.fault = withFaultBit s.fault f ∧ (f = .rbOverflow ∨ f = .idxCorrupt)) ∧
   (t.rbMem = s.rbMem ∨ (s.isFull = false ∧ s.lkOpen = true ∧ ∃ b, t.rbMem = memWrite s.rbMem s.rbWr b)) ∧
   ∃ new, t.events = new ++ s.events ∧ new.length ≤ 2 ∧ (∀ p, Event.deliver p ∉ new) := by
  unfold feedPass at h
  split at h
  · cases h; exact ⟨rfl, .inl rfl, .inl rfl, [], rfl, by simp, by simp⟩
  · cases h; exact ⟨rfl, .inl rfl, .inl rfl, [_, _], rfl, by simp, by simp⟩
  · rename_i b rest acc _
    cases h
    rcases pushByte_cases b s with ⟨_, e⟩ | ⟨_, hc, e⟩ | ⟨ho, hc, hf, e⟩ | ⟨ho, hc, hf, e⟩ <;> rw [e]
    · exact ⟨rfl, .inl rfl, .inl rfl, [_], rfl, by simp, by simp⟩
    · exact ⟨rfl, .inr ⟨_, rfl, .inr rfl⟩, .inl rfl, [_], rfl, by simp, by simp⟩
    · exact ⟨rfl, .inr ⟨_, rfl, .inl rfl⟩, .inl rfl, [_], rfl, by simp, by simp⟩
    · exact ⟨rfl, .inl rfl, .inr ⟨hf, ho, b, rfl⟩, [_], rfl, by simp, by simp⟩

/-- What `PUSH` leaves alone, and what it may do to `fault`, to `rb_mem` and to the outputs
(R43, R100). -/
theorem execPush_frame {s t : State} {b : Byte} (h : execPush b s = .next t) :
   t = { s with rbMem := t.rbMem, rbWr := t.rbWr, fault := t.fault, events := t.events } ∧
   (t.fault = s.fault ∨ ∃ f, t.fault = withFaultBit s.fault f ∧ (f = .rbOverflow ∨ f = .idxCorrupt)) ∧
   (t.rbMem = s.rbMem ∨ (s.isFull = false ∧ s.lkOpen = true ∧ ∃ b, t.rbMem = memWrite s.rbMem s.rbWr b)) ∧
   ∃ new, t.events = new ++ s.events ∧ new.length ≤ 2 ∧ (∀ p, Event.deliver p ∉ new) := by
  cases h
  rcases pushByte_cases b s with ⟨_, e⟩ | ⟨_, hc, e⟩ | ⟨ho, hc, hf, e⟩ | ⟨ho, hc, hf, e⟩ <;> rw [e]
  · exact ⟨rfl, .inl rfl, .inl rfl, [_], rfl, by simp, by simp⟩
  · exact ⟨rfl, .inr ⟨_, rfl, .inr rfl⟩, .inl rfl, [_], rfl, by simp, by simp⟩
  · exact ⟨rfl, .inr ⟨_, rfl, .inl rfl⟩, .inl rfl, [_], rfl, by simp, by simp⟩
  · exact ⟨rfl, .inl rfl, .inr ⟨hf, ho, b, rfl⟩, [_], rfl, by simp, by simp⟩

/-- What `POP_N` leaves alone, and what it may do to `fault` and to the outputs (R43, R101). -/
theorem execPopN_frame {s t : State} {n : Half} (h : execPopN n s = .next t) :
   t = { s with rbRd := t.rbRd, fault := t.fault, events := t.events } ∧
   (t.fault = s.fault ∨ t.fault = withFaultBit s.fault .idxCorrupt) ∧
   ∃ new, t.events = new ++ s.events ∧ new.length ≤ 2 ∧ (∀ p, Event.deliver p ∉ new) := by
  unfold execPopN at h
  split at h
  · cases h; exact ⟨rfl, .inl rfl, [_], rfl, by simp, by simp⟩
  · split at h
    · cases h
    · rename_i hp
      cases h
      obtain ⟨e1, e2⟩ := popBytes_frame hp
      rw [e1]
      exact ⟨rfl, e2, [_], rfl, by simp, by simp⟩

/-- A pass of a consumer that is neither closed nor halted is one micro-transition (R126). -/
theorem consumerPass_micro {s m : State} {r : MicroResult} (ho : s.lkOpen = true) (hf : s.fault = 0)
    (ha : s.active ≠ .idle) (h : microTransition s = .ok (r, m)) :
    consumerPass s =
      match r with
      | .progress => .next m
      | .packetComplete => .next (countPacket m)
      | .needMore => .next (finishConsumer m .needMore)
      | .fault => .next (finishConsumer m .fault) := by
  have hf' : s.faultOut = false := by simp [State.faultOut, hf]
  unfold consumerPass
  rw [if_neg ha, if_neg (by simp [ho]), if_neg (by simp [hf'])]
  simp only [h]
  cases r <;> rfl

end Sys2Proof.Machine
end

