-- ==== Sys2Proof/Laws/Invariant.lean ====
section
/-! SUPPORT. The invariant as a check that can be run on a concrete state, and what the invariant does not depend on. -/

namespace Sys2Proof.Machine

/-! ### The check -/

/-- The invariant as a Bool. -/
def invCheck (s : State) : Bool :=
  decide (s.cfg.wf = true) &&
  decide (s.rbWr < s.slots ∧ s.rbRd < s.slots ∧ memWf s.rbMem = true ∧
    memBelow s.rbMem s.slots = true ∧
    ∀ k, k < s.avail → (memRead s.rbMem (s.ringIndex s.rbRd k)).isSome = true) &&
  decide ((s.dfState = .idle → s.dfNeeded = 0 ∧ s.dfCollected = 0) ∧
    (s.dfState = .header → s.dfNeeded = preambleSize s.dfKind ∧ s.dfCollected < s.dfNeeded) ∧
    (s.dfState = .content → readContentLength s.dfKind s.pkt = .ok s.dfNeeded ∧ s.dfCollected ≤ s.dfNeeded ∧
      frameLength s.dfKind s.dfNeeded ≤ s.cfg.pktMax) ∧
    (s.dfState = .complete → readContentLength s.dfKind s.pkt = .ok s.dfNeeded ∧ s.dfCollected = s.dfNeeded ∧
      frameLength s.dfKind s.dfNeeded ≤ s.cfg.pktMax)) &&
  decide (memWf s.pkt = true ∧ memBelow s.pkt s.cfg.pktMax = true ∧
    (∀ i, i < s.pktLen → (memRead s.pkt i).isSome = true) ∧
    (s.dfState ≠ .idle → memRead s.pkt 0 = some s.dfKind.typeByte)) &&
  decide (s.faultBit 2 = false ∧ ¬ (s.faultBit 0 = true ∧ s.faultBit 3 = true) ∧
    (s.faultBit 0 = true ∨ s.faultBit 3 = true → s.dfState = .idle)) &&
  decide (s.lkOpen = false → s.rbWr = 0 ∧ s.rbRd = 0 ∧ s.dfState = .idle ∧ s.dfNeeded = 0 ∧
    s.dfCollected = 0 ∧ s.fault = 0) &&
  decide (s.active = .idle → s.fault = 0 →
    s.dfState ≠ .complete ∧ (s.dfState = .content → s.dfCollected < s.dfNeeded))

theorem inv_of_check {s : State} (h : invCheck s = true) : Inv s := by
  simp only [invCheck, Bool.and_eq_true, decide_eq_true_eq] at h
  obtain ⟨⟨⟨⟨⟨⟨h1, r1, r2, r3, r4, r5⟩, p1, p2, p3, p4⟩, d1, d2, d3, d4⟩, f1, f2, f3⟩, c⟩, a⟩ := h
  exact ⟨⟨h1, ⟨r1, r2, r3, r4, r5⟩, ⟨⟨p1, p2, p3, p4⟩, d1, d2, d3, d4⟩, ⟨f1, f2, f3⟩, c⟩, a⟩

/-! ### What the invariant depends on -/

/-- The block's invariant depends on the spec's state alone: not on the outputs, the agents, the
moves or `bad_type`. -/
theorem BlockInv.congr {s t : State} (h : BlockInv s) (h1 : t.cfg = s.cfg) (h2 : t.rbMem = s.rbMem)
    (h3 : t.rbWr = s.rbWr) (h4 : t.rbRd = s.rbRd) (h5 : t.dfState = s.dfState)
    (h6 : t.dfKind = s.dfKind) (h7 : t.dfNeeded = s.dfNeeded) (h8 : t.dfCollected = s.dfCollected)
    (h9 : t.pkt = s.pkt) (h10 : t.fault = s.fault) (h11 : t.lkOpen = s.lkOpen) : BlockInv t := by
  have hs : t.slots = s.slots := by simp [State.slots, h1]
  have ha : t.avail = s.avail := by simp [State.avail, hs, h3, h4]
  have hl : t.pktLen = s.pktLen := by simp [State.pktLen, h5, h6, h8]
  have hx : ∀ i k, t.ringIndex i k = s.ringIndex i k := fun i k => by simp [State.ringIndex, hs]
  have hb : ∀ n, t.faultBit n = s.faultBit n := fun n => by simp [State.faultBit, h10]
  refine ⟨by rw [h1]; exact h.cfg, ⟨?_, ?_, ?_, ?_, ?_⟩, ⟨⟨?_, ?_, ?_, ?_⟩, ?_, ?_, ?_, ?_⟩,
    ⟨?_, ?_, ?_⟩, ?_⟩
  · rw [h3, hs]; exact h.ring.wr_lt
  · rw [h4, hs]; exact h.ring.rd_lt
  · rw [h2]; exact h.ring.mem_wf
  · rw [h2, hs]; exact h.ring.mem_below
  · intro k hk
    rw [h2, hx, h4]
    exact h.ring.window k (ha ▸ hk)
  · rw [h5, h7, h8]; exact h.deframer.phase.idle
  · rw [h5, h6, h7, h8]; exact h.deframer.phase.header
  · rw [h5, h6, h7, h8, h9, h1]; exact h.deframer.phase.content
  · rw [h5, h6, h7, h8, h9, h1]; exact h.deframer.phase.complete
  · rw [h9]; exact h.deframer.pkt_wf
  · rw [h9, h1]; exact h.deframer.pkt_below
  · rw [h9, hl]; exact h.deframer.written
  · rw [h5, h6, h9]; exact h.deframer.type_byte
  · rw [hb]; exact h.faults.no_corrupt
  · rw [hb, hb]; exact h.faults.one_deframer_fault
  · rw [hb, hb, h5]; exact h.faults.aborted
  · unfold ClosedInv
    rw [h11, h3, h4, h5, h7, h8, h10]
    exact h.closed

theorem BlockInv.idx {s : State} (h : BlockInv s) : s.idxCorrupt = false :=
  State.idxCorrupt_false h.ring.wr_lt h.ring.rd_lt

theorem config_wf_pktMax {c : Config} (h : c.wf = true) : 5 ≤ c.pktMax := by
  simp only [Config.wf, Bool.and_eq_true, decide_eq_true_eq] at h
  exact h.1.2

theorem config_wf_cap {c : Config} (h : c.wf = true) : 1 ≤ c.cap := by
  simp only [Config.wf, Bool.and_eq_true, decide_eq_true_eq] at h
  exact h.1.1

theorem preambleSize_bounds (k : Kind) : 2 ≤ preambleSize k ∧ preambleSize k ≤ 4 := by
  cases k <;> decide

/-- The length field ends the preamble. -/
theorem lengthIndex_bounds (k : Kind) :
    1 ≤ lengthIndex k ∧ lengthIndex k + lengthBytes k = 1 + preambleSize k := by
  cases k <;> decide

theorem leNat_lt (bytes : List Byte) : leNat bytes < 256 ^ bytes.length := by
  induction bytes with
  | nil => simp [leNat]
  | cons b bytes ih =>
    simp only [leNat, List.length_cons, Nat.pow_succ]
    have := b.isLt
    omega

/-! ### The parts of the invariant under the operations -/

/-- The ring's invariant depends on the ring alone. -/
theorem RingInv.congr {s t : State} (h : RingInv s) (h1 : t.cfg = s.cfg) (h2 : t.rbMem = s.rbMem)
    (h3 : t.rbWr = s.rbWr) (h4 : t.rbRd = s.rbRd) : RingInv t := by
  have hs : t.slots = s.slots := by simp [State.slots, h1]
  have ha : t.avail = s.avail := by simp [State.avail, hs, h3, h4]
  have hx : ∀ i k, t.ringIndex i k = s.ringIndex i k := fun i k => by simp [State.ringIndex, hs]
  refine ⟨?_, ?_, ?_, ?_, ?_⟩
  · rw [h3, hs]; exact h.wr_lt
  · rw [h4, hs]; exact h.rd_lt
  · rw [h2]; exact h.mem_wf
  · rw [h2, hs]; exact h.mem_below
  · intro k hk
    rw [h2, hx, h4]
    exact h.window k (ha ▸ hk)

/-- Advancing `rb_rd` over `n` bytes of the window keeps the ring's invariant and lowers `avail` by `n`
(R103). -/
theorem RingInv.pop {s t : State} (h : RingInv s) (n : Nat) (hn : n ≤ s.avail) (h1 : t.cfg = s.cfg)
    (h2 : t.rbMem = s.rbMem) (h3 : t.rbWr = s.rbWr) (h4 : t.rbRd = s.ringIndex s.rbRd n) :
    RingInv t ∧ t.avail = s.avail - n := by
  have hsl : t.slots = s.slots := by simp [State.slots, h1]
  have hav := State.avail_lt h.wr_lt h.rd_lt
  have hrd : t.rbRd < t.slots := by rw [h4, hsl]; exact State.ringIndex_lt _ _ _
  have hwr : t.rbWr < t.slots := by rw [h3, hsl]; exact h.wr_lt
  have e := State.avail_eq hwr hrd
  have e' := State.avail_eq h.wr_lt h.rd_lt
  have e2 := State.ringIndex_eq (k := n) h.rd_lt (by omega)
  have hw := h.wr_lt
  have hr := h.rd_lt
  have av : t.avail = s.avail - n := by
    rw [e, h3, h4, hsl, e2]
    split at e' <;> split <;> split <;> omega
  refine ⟨⟨hwr, hrd, h2 ▸ h.mem_wf, by rw [h2, hsl]; exact h.mem_below, ?_⟩, av⟩
  intro k hk
  have hb := h.window (n + k) (by omega)
  rw [h2, h4]
  convert hb using 3
  simp only [State.ringIndex, hsl, Nat.mod_add_mod, Nat.add_assoc]

/-- Appending to a ring that is not full keeps the ring's invariant and raises `avail` by one
(R103). -/
theorem RingInv.push {s : State} (b : Byte) (h : RingInv s) (hf : s.isFull = false) :
    RingInv (s.append b) ∧ (s.append b).avail = s.avail + 1 := by
  have hw := h.wr_lt
  have hr := h.rd_lt
  have hav := State.avail_lt hw hr
  have hf' : s.ringIndex s.rbWr 1 ≠ s.rbRd := by simpa [State.isFull] using hf
  by_cases hone : 1 < s.slots
  swap
  · exfalso
    have : s.slots = 1 := by have := s.slots_pos; omega
    apply hf'
    simp only [State.ringIndex, this, Nat.mod_one]; omega
  have e2 := State.ringIndex_eq (k := 1) hw hone
  have sl : (s.append b).slots = s.slots := rfl
  have hw' : (s.append b).rbWr < (s.append b).slots := State.ringIndex_lt _ _ _
  have e := State.avail_eq (s := s.append b) hw' hr
  have e' := State.avail_eq hw hr
  simp only [State.append_rbWr, State.append_rbRd, sl] at e
  have av : (s.append b).avail = s.avail + 1 := by
    rw [e, e']; rw [e2] at hf' ⊢
    clear e e' e2 hw' hav hf sl
    by_cases c1 : s.rbWr + 1 < s.slots <;> by_cases c2 : s.rbRd ≤ s.rbWr <;>
      simp only [c1, c2, if_true, if_false] at hf' ⊢ <;> split <;> omega
  refine ⟨⟨hw', hr, memWrite_wf _ _ _ h.mem_wf, memWrite_below _ h.mem_below hw, ?_⟩, av⟩
  · intro k hk
    rw [av] at hk
    simp only [State.append_rbMem, memRead_memWrite _ _ _ _ h.mem_wf]
    split
    · rfl
    · rename_i hne
      apply h.window k
      by_contra hk2
      have : k = s.avail := by omega
      subst this
      apply hne
      show s.ringIndex s.rbRd s.avail = s.rbWr
      have := State.ringIndex_eq (k := s.avail) hr hav
      rw [this]
      split at e' <;> split <;> omega

/-- What a run of stores into `pkt` leaves, under the invariant. -/
theorem BlockInv.stored {s : State} (h : BlockInv s) {base : Nat} {bytes : List Byte} {m : List Host.Cell}
    (hst : storePkt s.cfg.pktMax s.pkt base bytes = .ok m) :
    memWf m = true ∧ memBelow m s.cfg.pktMax = true ∧
    ∀ a, memRead m a = if base ≤ a ∧ a < base + bytes.length then some (bytes.getD (a - base) 0) else memRead s.pkt a := by
  obtain ⟨h1, h2, h3⟩ := storePkt_ok hst
  obtain ⟨h4, h5⟩ := h3 h.deframer.pkt_wf
  exact ⟨h4, h2 h.deframer.pkt_below, h5⟩

/-- The content length depends on the preamble's bytes alone (R80). -/
theorem readContentLength_eq {k : Kind} {m m' : List Host.Cell} (h : ∀ a, lengthIndex k ≤ a → a < 1 + preambleSize k → memRead m' a = memRead m a) :
    readContentLength k m' = readContentLength k m := by
  have hli := lengthIndex_bounds k
  have aux : ∀ n i, (∀ a, i ≤ a → a < i + n → memRead m' a = memRead m a) → readPkt m' i n = readPkt m i n := by
    intro n
    induction n with
    | zero => intros; rfl
    | succ n ih =>
      intro i hi
      simp only [readPkt, readByte, hi i (by omega) (by omega), ih (i+1) (fun a h1 h2 => hi a (by omega) (by omega))]
  unfold readContentLength
  rw [aux _ _ (fun a h1 h2 => h a h1 (by omega))]

/-- Without a fault there is nothing to say of `fault`. -/
theorem FaultInv.of_zero {t : State} (h : t.fault = 0) : FaultInv t := by
  constructor <;> simp [State.faultBit, h]
/-- BAD_TYPE alone, in `Idle` (R181). -/
theorem FaultInv.of_bad {t : State} {x : Byte} (h : t.fault = withFaultBit 0 (.badType x)) (hd : t.dfState = .idle) : FaultInv t := by
  have e : t.fault = 1#4 := by rw [h]; simp [withFaultBit, FaultCode.mask, FaultCode.bit]
  refine ⟨by simp [State.faultBit, e], by simp [State.faultBit, e], fun _ => hd⟩
/-- FRAME_TOO_LONG alone, in `Idle` (R184). -/
theorem FaultInv.of_long {t : State} (h : t.fault = withFaultBit 0 .frameTooLong) (hd : t.dfState = .idle) : FaultInv t := by
  have e : t.fault = 8#4 := by rw [h]; rfl
  refine ⟨by simp [State.faultBit, e], by simp [State.faultBit, e], fun _ => hd⟩

end Sys2Proof.Machine
end

