-- ==== Sys2Proof/Laws/MicroTransition.lean ====
section
/-! SUPPORT. The micro-transitions under the invariant: they always answer, and keep the block's
invariant. -/

namespace Sys2Proof.Machine

/-- What an enabled micro-transition keeps and what its result says of the state after (R126, R133). -/
theorem micro_inv {s s' : State} {r : MicroResult} (h : BlockInv s) (ho : s.lkOpen = true) (hf : s.fault = 0)
    (hm : microTransition s = .ok (r, s')) :
    BlockInv s' ∧ s'.active = s.active ∧ s'.cfg = s.cfg ∧ (s'.dfState = .complete → r = .progress) ∧
      (r = .needMore → s'.dfState = .content → s'.dfCollected < s'.dfNeeded) ∧
      (r = .fault → s'.fault ≠ 0) ∧ (r = .packetComplete → s'.dfState = .idle) := by
  have hidx := h.idx
  have hpm := config_wf_pktMax h.cfg
  unfold microTransition at hm
  have hp := preambleSize_bounds s.dfKind
  have hli := lengthIndex_bounds s.dfKind
  have hwant : s.want = s.dfNeeded - s.dfCollected := rfl
  cases hd : s.dfState <;> simp only [hd] at hm
  · -- idle
    have hph := h.deframer.phase.idle hd
    rcases tIdle_cases hidx h.ring.rd_lt hm with ⟨_, rfl, rfl⟩ | ⟨t, hav, ht, ⟨_, rfl, rfl⟩ | ⟨k, hk, _, rfl, rfl⟩⟩
    · exact ⟨h, rfl, rfl, by simp [hd], by simp [hd], by simp, by simp⟩
    · obtain ⟨r1, r2⟩ := RingInv.pop h.ring (t := ({ s with rbRd := s.ringIndex s.rbRd 1 } : State).raise (.badType t)) 1 hav rfl rfl rfl rfl
      refine ⟨⟨h.cfg, r1, ⟨⟨?_,?_,?_,?_⟩, h.deframer.pkt_wf, h.deframer.pkt_below, ?_, ?_⟩, FaultInv.of_bad (x := t) (by simp [hf]) hd, ?_⟩, rfl, rfl, by simp [hd], by simp [hd], fun _ => State.raise_fault_ne _ _, by simp⟩
      · intro _; exact hph
      · simp [hd]
      · simp [hd]
      · simp [hd]
      · simp [State.pktLen, hd]
      · simp [hd]
      · intro hc; simp [ho] at hc
    · have hkt := Kind.typeByte_of_ofTypeByte hk
      obtain ⟨r1, r2⟩ := RingInv.pop h.ring (t := { s with rbRd := s.ringIndex s.rbRd 1, pkt := memWrite s.pkt 0 t, dfState := .header, dfKind := k, dfNeeded := preambleSize k, dfCollected := 0 }) 1 hav rfl rfl rfl rfl
      have hp := preambleSize_bounds k
      refine ⟨⟨h.cfg, r1, ⟨⟨?_,?_,?_,?_⟩, memWrite_wf _ _ _ h.deframer.pkt_wf, memWrite_below _ h.deframer.pkt_below (by omega), ?_, ?_⟩, FaultInv.of_zero hf, ?_⟩, rfl, rfl, by simp, by simp, by simp, by simp⟩
      · simp
      · simp; omega
      · simp
      · simp
      · intro i hi
        simp only [State.pktLen] at hi
        have : i = 0 := by omega
        subst this
        simp [memRead_memWrite _ _ _ _ h.deframer.pkt_wf]
      · intro _
        simp [memRead_memWrite _ _ _ _ h.deframer.pkt_wf, hkt]
      · intro hc; simp [ho] at hc
  · -- header
    have hph := h.deframer.phase.header hd
    obtain ⟨bytes, m, hl, hrd, hst, hcase⟩ := tHeader_cases hidx hm
    obtain ⟨hw, hbel, hread⟩ := h.stored hst
    have hwr : ∀ i, i < 1 + s.dfCollected + bytes.length → (memRead m i).isSome = true := by
      intro i hi
      rw [hread]
      split
      · rfl
      · rename_i hn
        apply h.deframer.written
        simp only [State.pktLen, hd]
        simp only [State.preambleIndex] at hn
        omega
    have htb : memRead m 0 = some s.dfKind.typeByte := by
      rw [hread, if_neg (by simp only [State.preambleIndex]; omega)]
      exact h.deframer.type_byte (by simp [hd])
    have hr0 := (RingInv.pop (t := { s with rbRd := s.ringIndex s.rbRd bytes.length }) h.ring bytes.length (by omega) rfl rfl rfl rfl).1
    rcases hcase with ⟨hlt, rfl, rfl⟩ | ⟨hge, hfin⟩
    · refine ⟨⟨h.cfg, hr0.congr rfl rfl rfl rfl, ⟨⟨?_,?_,?_,?_⟩, hw, hbel, ?_, fun _ => htb⟩, FaultInv.of_zero hf, ?_⟩, rfl, rfl, by simp [hd], by simp [hd], by simp, by simp⟩
      · simp [hd]
      · intro _; exact ⟨hph.1, hlt⟩
      · simp [hd]
      · simp [hd]
      · intro i hi
        simp only [State.pktLen, hd] at hi
        exact hwr i (by omega)
      · intro hc; simp [ho] at hc
    · obtain ⟨len, hlen, ⟨hbig, rfl, rfl⟩ | ⟨hfit, rfl, rfl⟩⟩ := finishPreamble_cases hfin
      · refine ⟨⟨h.cfg, hr0.congr rfl rfl rfl rfl, ⟨⟨?_,?_,?_,?_⟩, hw, hbel, ?_, ?_⟩, FaultInv.of_long (by simp [hf]) rfl, ?_⟩, rfl, rfl, by simp, by simp, fun _ => State.raise_fault_ne _ _, by simp⟩
        · simp
        · simp
        · simp
        · simp
        · simp [State.pktLen]
        · simp
        · intro hc; simp [ho] at hc
      · refine ⟨⟨h.cfg, hr0.congr rfl rfl rfl rfl, ⟨⟨?_,?_,?_,?_⟩, hw, hbel, ?_, fun _ => htb⟩, FaultInv.of_zero hf, ?_⟩, rfl, rfl, by simp, by simp, by simp, by simp⟩
        · simp
        · simp
        · intro _; exact ⟨hlen, Nat.zero_le _, hfit⟩
        · simp
        · intro i hi
          simp only [State.pktLen] at hi
          apply hwr i
          omega
        · intro hc; simp [ho] at hc
  · -- content
    have hph := h.deframer.phase.content hd
    obtain ⟨bytes, m, hl, hrd, hst, hcase⟩ := tContent_cases hidx hm
    obtain ⟨hw, hbel, hread⟩ := h.stored hst
    have hwr : ∀ i, i < 1 + preambleSize s.dfKind + s.dfCollected + bytes.length → (memRead m i).isSome = true := by
      intro i hi
      rw [hread]
      split
      · rfl
      · rename_i hn
        apply h.deframer.written
        simp only [State.pktLen, hd]
        simp only [State.contentIndex] at hn
        omega
    have htb : memRead m 0 = some s.dfKind.typeByte := by
      rw [hread, if_neg (by simp only [State.contentIndex]; omega)]
      exact h.deframer.type_byte (by simp [hd])
    have hcl : readContentLength s.dfKind m = .ok s.dfNeeded := by
      rw [← hph.1]
      apply readContentLength_eq
      intro a h1 h2
      rw [hread, if_neg (by simp only [State.contentIndex]; omega)]
    have hr0 := (RingInv.pop (t := { s with rbRd := s.ringIndex s.rbRd bytes.length }) h.ring bytes.length (by omega) rfl rfl rfl rfl).1
    rcases hcase with ⟨hlt, rfl, rfl⟩ | ⟨hge, rfl, rfl⟩
    · refine ⟨⟨h.cfg, hr0.congr rfl rfl rfl rfl, ⟨⟨?_,?_,?_,?_⟩, hw, hbel, ?_, fun _ => htb⟩, FaultInv.of_zero hf, ?_⟩, rfl, rfl, by simp [hd], fun _ _ => hlt, by simp, by simp⟩
      · simp [hd]
      · simp [hd]
      · intro _; exact ⟨hcl, by show s.dfCollected + bytes.length ≤ s.dfNeeded; omega, hph.2.2⟩
      · simp [hd]
      · intro i hi
        simp only [State.pktLen, hd] at hi
        exact hwr i (by omega)
      · intro hc; simp [ho] at hc
    · refine ⟨⟨h.cfg, hr0.congr rfl rfl rfl rfl, ⟨⟨?_,?_,?_,?_⟩, hw, hbel, ?_, fun _ => htb⟩, FaultInv.of_zero hf, ?_⟩, rfl, rfl, by simp, by simp, by simp, by simp⟩
      · simp
      · simp
      · simp
      · intro _; exact ⟨hcl, by show s.dfCollected + bytes.length = s.dfNeeded; omega, hph.2.2⟩
      · intro i hi
        simp only [State.pktLen] at hi
        exact hwr i (by omega)
      · intro hc; simp [ho] at hc
  · -- complete
    obtain ⟨raw, hraw, rfl, rfl⟩ := tComplete_cases hm
    refine ⟨⟨h.cfg, h.ring.congr rfl rfl rfl rfl, ⟨⟨?_,?_,?_,?_⟩, h.deframer.2, h.deframer.3, ?_, ?_⟩, FaultInv.of_zero hf, ?_⟩, rfl, rfl, ?_, by simp, by simp, ?_⟩
    · simp [completeFrame]
    · simp [completeFrame]
    · simp [completeFrame]
    · simp [completeFrame]
    · simp [State.pktLen, completeFrame]
    · simp [completeFrame]
    · intro hc; simp [completeFrame, ho] at hc
    · simp [completeFrame]
    · simp [completeFrame]

/-- A micro-transition always has a next state under the invariant: no unwritten byte is read and
no index outside `pkt` is stored to (R132, R212). -/
theorem micro_total {s : State} (h : BlockInv s) : ∃ r s', microTransition s = .ok (r, s') := by
  have hidx := h.idx
  have hpm := config_wf_pktMax h.cfg
  have hp := preambleSize_bounds s.dfKind
  have hli := lengthIndex_bounds s.dfKind
  have hwant : s.want = s.dfNeeded - s.dfCollected := rfl
  unfold microTransition
  cases hd : s.dfState <;> simp only
  · unfold tIdle
    obtain ⟨bs, -, hbs⟩ := withPopped_total (n := 1) hidx h.ring.window
    rw [hbs]
    cases bs with
    | nil => exact ⟨_, _, rfl⟩
    | cons t rest =>
      simp only
      cases Kind.ofTypeByte t with
      | none => exact ⟨_, _, rfl⟩
      | some k =>
        simp only [storePkt]
        rw [if_pos (by show 0 < s.cfg.pktMax; omega)]
        exact ⟨_, _, rfl⟩
  · have hph := h.deframer.phase.header hd
    unfold tHeader
    obtain ⟨bs, hl, hbs⟩ := withPopped_total (n := s.want) hidx h.ring.window
    rw [hbs]
    obtain ⟨m, hst⟩ := storePkt_total (size := s.cfg.pktMax) (m := s.pkt) (i := s.preambleIndex) (bytes := bs)
      (by simp only [State.preambleIndex]; omega)
    simp only [hst]
    split
    · exact ⟨_, _, rfl⟩
    · rename_i hge
      obtain ⟨hw, hbel, hread⟩ := h.stored hst
      obtain ⟨l, hlr⟩ := readPkt_total (m := m) (i := lengthIndex s.dfKind) (count := lengthBytes s.dfKind) (by
        intro k hk
        rw [hread]
        split
        · rfl
        · rename_i hn
          apply h.deframer.written
          simp only [State.pktLen, hd]
          simp only [State.preambleIndex] at hn
          omega)
      unfold finishPreamble readContentLength
      simp only [hlr]
      split <;> exact ⟨_, _, rfl⟩
  · have hph := h.deframer.phase.content hd
    unfold tContent
    obtain ⟨bs, hl, hbs⟩ := withPopped_total (n := s.want) hidx h.ring.window
    rw [hbs]
    have := hph.2.2
    unfold frameLength at this
    obtain ⟨m, hst⟩ := storePkt_total (size := s.cfg.pktMax) (m := s.pkt) (i := s.contentIndex) (bytes := bs)
      (by simp only [State.contentIndex]; omega)
    simp only [hst]
    split <;> exact ⟨_, _, rfl⟩
  · have hph := h.deframer.phase.complete hd
    unfold tComplete
    obtain ⟨raw, hr⟩ := readPkt_total (m := s.pkt) (i := 0) (count := frameLength s.dfKind s.dfNeeded) (by
      intro k hk
      apply h.deframer.written
      simp only [State.pktLen, hd]
      unfold frameLength at hk
      omega)
    rw [hr]
    exact ⟨_, _, rfl⟩

end Sys2Proof.Machine
end

