-- ==== Sys2Proof/Laws/Step.lean ====
section
/-! SUPPORT. Said once: all that a step can do (R9). -/

namespace Sys2Proof.Machine

/-- A run's first step, for any machine of the host's interface. -/
theorem run_next (m : Host.Core) (n : Nat) {s t : m.State} (h : m.step s = .next t) :
    m.run (n + 1) s = m.run n t := by
  rw [Host.Core.run, h]

/-- All that a step can do (R9): a pass of an operation in progress, or a move: an operation begun, one
whole operation, an illegal word, link-open, or nothing. `ms` are the moves left. -/
theorem step_cases {s t : State} (h : step s = .next t) : ∃ ms,
    (consumerPass { s with moves := ms } = .next t) ∨
    (feedPass { s with moves := ms } = .next t) ∨
    (∃ op, s.active = .idle ∧ consumerPass { s with moves := ms, active := op } = .next t) ∨
    (∃ bytes, s.feeding = none ∧
      feedPass { s with moves := ms, feeding := some ⟨bytes, 0⟩ } = .next t) ∨
    (∃ w, s.moves = .issue w :: ms ∧
      ((∃ b, execPush b { s with moves := ms } = .next t) ∨
       (∃ n, execPopN n { s with moves := ms } = .next t) ∨
       (∃ o, execClassify o { s with moves := ms } = .next t) ∨
       (decodeOp w = .ok .resetLink ∧ execResetLink { s with moves := ms } = .next t) ∨
       (decodeOp w = .ok .exit ∧ execExit { s with moves := ms } = .next t) ∨
       t = ({ s with moves := ms } : State).emit (.illegalOp w))) ∨
    (∃ c, s.moves = .linkOpen c :: ms ∧ t = linkOpen c { s with moves := ms }) ∨
    t = { s with moves := ms } := by
  unfold step runNext at h
  split at h
  · refine ⟨s.moves, ?_⟩
    unfold goOn at h
    split at h
    · exact .inl h
    · exact .inr (.inl h)
  · rename_i m ms hm
    split at h
    · rename_i c _
      refine ⟨s.moves, ?_⟩
      cases c
      · exact .inr (.inl h)
      · exact .inl h
    · rename_i hw
      have hfree : ∀ c, m.needs s = some c → s.busy c = false := by
        intro c hc
        simp only [Move.waitsFor, hc] at hw
        cases hb : s.busy c
        · rfl
        · simp [hb] at hw
      refine ⟨ms, ?_⟩
      cases m with
      | issue w =>
        simp only [perform, issueWord] at h
        cases hd : decodeOp w with
        | error e =>
          rw [hd] at h
          cases h
          exact .inr (.inr (.inr (.inr (.inl ⟨w, hm, .inr (.inr (.inr (.inr (.inr rfl))))⟩))))
        | ok i =>
          rw [hd] at h
          have hi : ∀ c, issuer i = some c → s.busy c = false := fun c hc =>
            hfree c (by simp [Move.needs, hd, hc])
          cases i with
          | push b => exact .inr (.inr (.inr (.inr (.inl ⟨w, hm, .inl ⟨b, h⟩⟩))))
          | popN n => exact .inr (.inr (.inr (.inr (.inl ⟨w, hm, .inr (.inl ⟨n, h⟩)⟩))))
          | classify o =>
            exact .inr (.inr (.inr (.inr (.inl ⟨w, hm, .inr (.inr (.inl ⟨o, h⟩))⟩))))
          | resetLink =>
            exact .inr (.inr (.inr (.inr (.inl ⟨w, hm, .inr (.inr (.inr (.inl ⟨hd, h⟩)))⟩))))
          | exit =>
            exact .inr (.inr (.inr (.inr (.inl ⟨w, hm, .inr (.inr (.inr (.inr (.inl ⟨hd, h⟩))))⟩))))
          | step =>
            have ha : s.active = .idle := by simpa [State.busy] using hi .consumer rfl
            simp only [exec, execStep, beginConsumer, ha, if_true] at h
            exact .inr (.inr (.inl ⟨_, ha, h⟩))
          | drain =>
            have ha : s.active = .idle := by simpa [State.busy] using hi .consumer rfl
            simp only [exec, execDrain, beginConsumer, ha, if_true] at h
            exact .inr (.inr (.inl ⟨_, ha, h⟩))
          | h4Command o p | h4Acl o p | h4Sco o p | h4Event o p =>
            unfold decodeOp decodeNullary at hd
            repeat' split at hd
            all_goals cases hd
      | feed bytes =>
        have hf : s.feeding = none := by
          simpa [State.busy] using hfree .producer rfl
        exact .inr (.inr (.inr (.inl ⟨bytes, hf, h⟩)))
      | onIndata =>
        have ha : s.active = .idle := by simpa [State.busy] using hfree .consumer rfl
        simp only [perform, exec, execDrain, beginConsumer, ha, if_true] at h
        exact .inr (.inr (.inl ⟨_, ha, h⟩))
      | linkOpen c =>
        cases h
        exact .inr (.inr (.inr (.inr (.inr (.inl ⟨c, hm, rfl⟩)))))
      | turn c =>
        cases c
        · exact .inr (.inl h)
        · exact .inl h
      | await =>
        cases h
        exact .inr (.inr (.inr (.inr (.inr (.inr rfl)))))

end Sys2Proof.Machine
end

