-- ==== Sys2Proof/Tests/Slice0.lean ====
section
/-! SUPPORT. Tests. Expected results come from the spec: its encoding tables (R72 to R77, R89), its
worked examples (in the rules and in `95_test_vectors.md` Part 1), its derived vectors (Part 2, V-…),
each named where it is used. Then, for every statement with hypotheses, a witness that meets them. -/

namespace Sys2Proof.Tests

open Sys2Proof.Machine

/-! ### Helpers -/

/-- A state after reset, with the fixture `CT0` (R157). -/
def fresh (cap pktMax : Nat) : State := State.resetWith ⟨cap, pktMax, Config.ct0⟩

/-- The same with bytes in the ring. -/
def holding (cap pktMax : Nat) (bytes : List Byte) : State :=
  bytes.foldl (fun s b => s.append b) (fresh cap pktMax)

/-- A frame's first bytes in `pkt`. -/
def inPkt (bytes : List Byte) : List Host.Cell := bytes.zipIdx.map fun c => (c.2, c.1)

/-- The next state of an outcome has a property. -/
def gives (o : Outcome) (p : State → Bool) : Bool :=
  match o with
  | .next t => p t
  | .fault _ => false
  | .refused _ => false

theorem next_of_gives {o : Outcome} {p : State → Bool} (h : gives o p = true) :
    ∃ t, o = .next t ∧ p t = true := by
  cases o with
  | next t => exact ⟨t, rfl, h⟩
  | fault f => cases h
  | refused r => cases h

/-- The state of vector V-R1 after its row 7: a full ring whose window wraps, `CAP = 3`. -/
def wrapped : State :=
  { fresh 3 65540 with
    rbMem := inPkt [0xFF, 0xBB, 0xCC, 0xEE], rbWr := 1, rbRd := 2, fault := 0b0010 }

/-- The state of the example in R122: `Header` of an Event frame, ring `[0E 04]`. -/
def inHeader (pktMax : Nat) (bytes : List Byte) : State :=
  { holding 9 pktMax bytes with dfState := .header, dfKind := .event, dfNeeded := 2, pkt := inPkt [0x04] }

/-- The state of the example in R123: `Content` of an Event frame, ring `[01 03 0C 00 04]`. -/
def inContent (bytes : List Byte) : State :=
  { holding 9 65540 bytes with
    dfState := .content, dfKind := .event, dfNeeded := 4, pkt := inPkt [0x04, 0x0E, 0x04] }

/-- The state of the example in R124, inside an operation. -/
def inComplete (op : ConsumerOp) : State :=
  { fresh 9 65540 with
    dfState := .complete, dfKind := .event, dfNeeded := 4, dfCollected := 4,
    pkt := inPkt [0x04, 0x0E, 0x04, 0x01, 0x03, 0x0C, 0x00], active := op }

/-- The record of scenario S1. -/
def recordS1 : RawPacket :=
  ⟨[0x04, 0x0E, 0x04, 0x01, 0x03, 0x0C, 0x00], .event, .event 0x0E 0x04, [0x01, 0x03, 0x0C, 0x00]⟩

/-! ### Well-formedness refuses -/

theorem test_wf_command_too_long : (Instr.h4Command 0 (List.replicate 256 0)).wf = false := by
  simp only [Instr.wf, List.length_replicate]
  decide
theorem test_wf_acl_too_long : (Instr.h4Acl 0 (List.replicate 65536 0)).wf = false := by
  simp only [Instr.wf, List.length_replicate]
  decide
theorem test_wf_sco_too_long : (Instr.h4Sco 0 (List.replicate 256 0)).wf = false := by
  simp only [Instr.wf, List.length_replicate]
  decide
theorem test_wf_event_too_long : (Instr.h4Event 0 (List.replicate 256 0)).wf = false := by
  simp only [Instr.wf, List.length_replicate]
  decide
theorem test_wf_no_capacity : (Config.wf ⟨0, 65540, Config.ct0⟩) = false := by decide
theorem test_wf_pkt_too_small : (Config.wf ⟨1, 4, Config.ct0⟩) = false := by decide
theorem test_wf_smallest_config : (Config.wf ⟨1, 5, Config.ct0⟩) = true := by decide
theorem test_wf_table_empty : tableWf [] = false := by decide
theorem test_wf_table_without_ble : tableWf [(3, .uniform .mix), (8, .uniform .bt)] = false := by decide
theorem test_wf_table_group_twice :
    tableWf [(3, .uniform .mix), (3, .uniform .mix), (8, .uniform .ble)] = false := by decide
theorem test_wf_table_ocf_twice :
    tableWf [(3, .perOcf .bt [(3, .mix), (3, .bt)]), (8, .uniform .ble)] = false := by decide

/-! ### Decoding -/

/-- V-W and R89: one word of each operation, bit 18 first. -/
theorem test_decode_words :
    decodeOp 0b0000000000011111111#19 = .ok (.push 0xFF) ∧
    decodeOp 0b0011111111111111111#19 = .ok (.popN 65535) ∧
    decodeOp 0b0100000000000000000#19 = .ok .step ∧ decodeOp 0b0110000000000000000#19 = .ok .drain ∧
    decodeOp 0b1001111111111111111#19 = .ok (.classify 0xFFFF) ∧
    decodeOp 0b1010000000000000000#19 = .ok .resetLink ∧
    decodeOp 0b1100000000000000000#19 = .ok .exit := by decide

/-- V-W: the illegal words, rejected by name. -/
theorem test_decode_illegal_words :
    decodeOp 0x00100#19 = .error (.operandNotZero 0x00100) ∧
    decodeOp 0x0FF04#19 = .error (.operandNotZero 0x0FF04) ∧
    decodeOp 0x20001#19 = .error (.operandNotZero 0x20001) ∧
    decodeOp 0x38000#19 = .error (.operandNotZero 0x38000) ∧
    decodeOp 0x50001#19 = .error (.operandNotZero 0x50001) ∧
    decodeOp 0x6FFFF#19 = .error (.operandNotZero 0x6FFFF) ∧
    decodeOp 0x70000#19 = .error (.unassignedOp 0x70000) ∧
    decodeOp 0x7FFFF#19 = .error (.unassignedOp 0x7FFFF) := by decide

/-- V-D2, V-D3, V-D7, V-D8: one frame of each kind. -/
theorem test_decode_frames :
    decode (.frame [0x01, 0x06, 0x04, 0x03, 0x2A, 0x00, 0x13]) =
      .ok (.h4Command 0x0406 [0x2A, 0x00, 0x13]) ∧
    decode (.frame [0x02, 0x01, 0x20, 0x03, 0x00, 0xAA, 0xBB, 0xCC]) =
      .ok (.h4Acl 0x2001 [0xAA, 0xBB, 0xCC]) ∧
    decode (.frame [0x03, 0x05, 0x00, 0x02, 0x11, 0x22]) = .ok (.h4Sco 0x0005 [0x11, 0x22]) ∧
    decode (.frame [0x04, 0x13, 0x00]) = .ok (.h4Event 0x13 []) := by decide

/-- R81: the values beside the legal ones. -/
theorem test_decode_bad_types :
    decodeFrame [0x00, 1, 2, 3] = .error (.badType 0x00) ∧
    decodeFrame [0x05, 1, 2, 3] = .error (.badType 0x05) ∧
    decodeFrame [0xFF] = .error (.badType 0xFF) ∧ decodeFrame [0x81, 1, 2, 3] = .error (.badType 0x81) :=
  by decide

/-- V-D4, V-D5: the byte order of the Acl length. -/
theorem test_acl_length_byte_order :
    contentLength .acl [0x02, 0x01, 0x00, 0x01, 0x00] = 1 ∧
    contentLength .acl [0x02, 0x01, 0x00, 0x00, 0x01] = 256 := by decide

/-- V-D11, V-D12, V-D18: `parse` of three streams. -/
theorem test_parse :
    parse [0x04, 0x13, 0x02, 0x05, 0x00, 0x04, 0x13, 0x00] =
      ([.h4Event 0x13 [0x05, 0x00], .h4Event 0x13 []], .idle) ∧
    parse [0x01, 0x03, 0x0C, 0x00, 0x04, 0x13] = ([.h4Command 0x0C03 []], .header .event 1) ∧
    parse [0x04, 0x13, 0x00, 0x07, 0x04, 0x13, 0x00] =
      ([.h4Event 0x13 []], .badType 0x07 [0x04, 0x13, 0x00]) := by decide

/-- The table's rows, through the host's two functions, from `State.reset`. -/
theorem test_fetch_operations :
    decodeTableWord 19 0x00004 = some (.push 4) ∧ decodeTableWord 19 0x30000 = some .drain ∧
    decodeTableWord 19 0x70000 = none ∧
    gives (step (State.reset.withFetchWord 19 0x00004)) (fun t => t.events = [.returned (.push 4) .ok]) ∧
    gives (step (State.reset.withFetchWord 19 0x10003))
      (fun t => t.events = [.returned (.popN 3) (.popped 0 [])]) ∧
    gives (step (State.reset.withFetchWord 19 0x20000)) (fun t => t.events = [.returned .step .needMore]) ∧
    gives (step (State.reset.withFetchWord 19 0x30000))
      (fun t => t.events = [.returned .drain (.drained 0 .needMore)]) ∧
    gives (step (State.reset.withFetchWord 19 0x50000)) (fun t => t.events = [.returned .resetLink .done]) ∧
    gives (step (State.reset.withFetchWord 19 0x60000)) (fun t => !t.lkOpen) := by decide

theorem test_fetch_frames :
    decodeTableWord 8 0x01 = some (.h4Command 0 []) ∧ decodeTableWord 8 0x05 = none ∧
    gives (step (State.reset.withFetchWord 8 0x01))
      (fun t => deliveries t.events = [⟨[1, 0, 0, 0], .command, .command 0 0, []⟩]) ∧
    gives (step (State.reset.withFetchWord 8 0x02))
      (fun t => deliveries t.events = [⟨[2, 0, 0, 0, 0], .acl, .acl 0 0, []⟩]) ∧
    gives (step (State.reset.withFetchWord 8 0x03))
      (fun t => deliveries t.events = [⟨[3, 0, 0, 0], .sco, .sco 0 0, []⟩]) ∧
    gives (step (State.reset.withFetchWord 8 0x04))
      (fun t => deliveries t.events = [⟨[4, 0, 0], .event, .event 0 0, []⟩]) := by decide

/-! ### The ring -/

/-- R100's example: `N = 4`, `rb_wr = 3`, `rb_rd = 2`. -/
theorem test_push_wraps :
    gives (exec (.push 0xEE) { wrapped with rbWr := 3 })
      (fun t => t.rbWr = 0 && memRead t.rbMem 3 = some 0xEE &&
        t.events = [.returned (.push 0xEE) .ok]) := by decide

/-- V-R2 and V-L2: `CAP = 1`, the second byte finds the ring full, and the fault bits accumulate. -/
theorem test_push_full :
    gives (exec (.push 2) { holding 1 65540 [1] with fault := 0b0001 })
      (fun t => t.fault = 0b0011 && t.rbWr = 1 && t.rbMem = [(0, 1)] &&
        t.events = [.returned (.push 2) .full]) := by decide

/-- R101's example, V-R1 row 9: across the wrap, with a fault pending. -/
theorem test_pop_across_wrap :
    gives (exec (.popN 10) wrapped)
      (fun t => t.rbRd = 1 && t.avail = 0 &&
        t.events = [.returned (.popN 10) (.popped 3 [0xCC, 0xEE, 0xFF])]) := by decide

/-- R183: an index outside the ring. -/
theorem test_pop_index_corrupt :
    gives (exec (.popN 1) { fresh 3 65540 with rbWr := 4 })
      (fun t => t.fault = 0b0100 && t.rbRd = 0 && t.events = [.returned (.popN 1) (.popped 0 [])]) := by
  decide

/-! ### The deframer -/

/-- R121's example, ring `[04 0E 04]`: the type byte is fetched, the rest stays. -/
theorem test_step_fetches_type_byte :
    gives (exec .step (holding 9 65540 [0x04, 0x0E, 0x04]))
      (fun t => t.dfState = .header && t.dfKind = .event && t.dfNeeded = 2 &&
        memRead t.pkt 0 = some 0x04 && t.rbRd = 1 && t.events = []) := by decide

/-- V-D18: stream `05 01 02`. -/
theorem test_step_bad_type :
    gives (exec .step (holding 9 65540 [0x05, 0x01, 0x02]))
      (fun t => t.fault = 0b0001 && t.badType = 0x05 && t.dfState = .idle && t.rbRd = 1 &&
        t.events = [.returned .step .fault]) := by decide

/-- R122's example. -/
theorem test_drain_collects_preamble :
    gives (exec .drain (inHeader 65540 [0x0E, 0x04]))
      (fun t => t.dfState = .content && t.dfNeeded = 4 && t.dfCollected = 0 &&
        t.pkt = inPkt [0x04, 0x0E, 0x04] && t.avail = 0) := by decide

/-- R123's example: the byte after the frame stays in the ring. -/
theorem test_drain_collects_content :
    gives (exec .drain (inContent [0x01, 0x03, 0x0C, 0x00, 0x04]))
      (fun t => t.dfState = .complete && t.dfCollected = 4 && t.avail = 1 &&
        t.pkt = inPkt [0x04, 0x0E, 0x04, 0x01, 0x03, 0x0C, 0x00]) := by decide

/-- V-D19: `PKT_MAX = 5`, stream `04 13 03`, and `PKT_MAX = 6`, which holds the frame. -/
theorem test_frame_too_long :
    gives (exec .step (inHeader 5 [0x13, 0x03]))
      (fun t => t.fault = 0b1000 && t.dfState = .idle && t.dfNeeded = 0 &&
        t.events = [.returned .step .fault]) ∧
    gives (exec .step (inHeader 6 [0x13, 0x03])) (fun t => t.fault = 0 && t.dfState = .content) := by
  decide

/-- R124's example, S1: the frame in `pkt` is delivered. -/
theorem test_complete_delivers :
    gives (consumerPass (inComplete .step))
      (fun t => t.events = [.returned .step .packetComplete, .deliver recordS1] && t.dfState = .idle &&
        t.active = .idle) ∧
    gives (consumerPass (inComplete (.drain 1)))
      (fun t => t.events = [.deliver recordS1] && t.active = .drain 2) := by decide

/-! ### The frames, as V-D1, V-D3, V-D7 and S1 give their records -/

theorem test_h4_command :
    gives (exec (.h4Command 0x0C03 []) (fresh 9 65540))
      (fun t => t.events = [.deliver ⟨[0x01, 0x03, 0x0C, 0x00], .command, .command 0x0C03 0, []⟩]) := by
  decide

theorem test_h4_acl :
    gives (exec (.h4Acl 0x2001 [0xAA, 0xBB, 0xCC]) (fresh 9 65540))
      (fun t => t.events =
        [.deliver ⟨[0x02, 0x01, 0x20, 0x03, 0x00, 0xAA, 0xBB, 0xCC], .acl, .acl 0x2001 3,
          [0xAA, 0xBB, 0xCC]⟩]) := by decide

theorem test_h4_sco :
    gives (exec (.h4Sco 0x0005 [0x11, 0x22]) (fresh 9 65540))
      (fun t => t.events =
        [.deliver ⟨[0x03, 0x05, 0x00, 0x02, 0x11, 0x22], .sco, .sco 0x0005 2, [0x11, 0x22]⟩]) := by
  decide

theorem test_h4_event :
    gives (exec (.h4Event 0x0E [0x01, 0x03, 0x0C, 0x00]) (fresh 9 65540))
      (fun t => t.events = [.deliver recordS1]) := by decide

/-! ### The classifier, link control, illegal words -/

/-- S2 and V-C: an override, and on a closed and halted block. -/
theorem test_classify :
    gives (exec (.classify 0x0C03) (fresh 1 5))
      (fun t => t.events = [.returned (.classify 0x0C03) (.classified .mix)]) ∧
    gives (exec (.classify 0x0406) { fresh 1 5 with lkOpen := false, fault := 1 })
      (fun t => t.events = [.returned (.classify 0x0406) (.classified .notSure)]) := by decide

/-- V-C: a group's one class, a group's default, an unregistered group. -/
theorem test_class_of :
    classOf Config.ct0 0x23FF = .ble ∧ classOf Config.ct0 0x0FFF = .onlyOne ∧
    classOf Config.ct0 0x07FF = .bt ∧ classOf Config.ct0 0xFFFF = .onlyOne := by decide

/-- R165's example. -/
theorem test_reset_link :
    gives (exec .resetLink
        { inContent [] with rbWr := 5, rbRd := 2, dfNeeded := 9, dfCollected := 7, fault := 0b0010 })
      (fun t => t.rbWr = 0 && t.rbRd = 0 && t.dfState = .idle && t.dfCollected = 0 && t.dfNeeded = 0 &&
        t.fault = 0 && t.lkOpen && t.dfKind = .event && t.events = [.returned .resetLink .done]) := by
  decide

/-- V-L3: `EXIT`, and again on the closed link. -/
theorem test_exit :
    gives (exec .exit wrapped) (fun t => t.rbWr = 0 && t.fault = 0 && !t.lkOpen &&
      t.events = [.returned .exit .done]) ∧
    gives (exec .exit { fresh 3 65540 with lkOpen := false }) (fun t => t.events = [.returned .exit .closed]) :=
  by decide

/-- V-W: an illegal word changes no state. -/
theorem test_illegal_word :
    gives (step { wrapped with moves := [.issue 0x70000] })
      (fun t => t = { wrapped with events := [.illegalOp 0x70000] }) := by decide

/-- V-L4: the last transition of a `FEED`. -/
theorem test_feed_ends :
    gives (step { fresh 3 65540 with feeding := some ⟨[], 3⟩ })
      (fun t => t.events = [.fed 3, .dataReady] && t.feeding = none) := by decide

/-- R167: link-open of a closed link with a new configuration. -/
theorem test_link_open :
    gives (step { wrapped with lkOpen := false, moves := [.linkOpen ⟨7, 16, Config.ct0⟩] })
      (fun t => t.cfg.cap = 7 && t.lkOpen && t.rbWr = 0 && t.fault = 0) := by decide

/-! ### Witnesses

One theorem for each statement of `Obligations.lean` with hypotheses: states and operands that meet
them, one for each clause where there are several. -/

/-- A frame of an `Instr` with the longest payload is well formed. -/
theorem witness_EncodeThenDecode :
    (Instr.h4Acl 0xFFFF (List.replicate 65535 0xFF)).wf = true ∧
    (Instr.h4Command 0 (List.replicate 255 0)).wf = true ∧ Instr.exit.wf = true := by
  simp only [Instr.wf, List.length_replicate]
  decide

theorem witness_DecodeThenEncode :
    decode (.word 0x000FF#19) = .ok (.push 0xFF) ∧
    decode (.frame [0x04, 0x13, 0x00]) = .ok (.h4Event 0x13 []) := by decide

theorem witness_FrameIsReadOffTheFront :
    (Instr.h4Event 0x13 []).wf = true ∧ encode (.h4Event 0x13 []) = .frame [0x04, 0x13, 0x00] ∧
    (frameRecord (.h4Event 0x13 [])).isSome = true := by decide

/-- A `pkt` that holds only what an Event frame's length needs, one that holds what Command and Sco
need, one that holds what Acl needs. -/
theorem witness_ContentLengthFromPreamble :
    (memRead (inPkt [0x04, 0x13, 0xFF]) 2 = some 0xFF ∧ memRead (inPkt [0x04, 0x13, 0xFF]) 3 = none) ∧
    (memRead (inPkt [0x01, 0x03, 0x0C, 0x00]) 3 = some 0x00 ∧
      memRead (inPkt [0x01, 0x03, 0x0C, 0x00]) 4 = none) ∧
    memRead (inPkt [0x02, 0x01, 0x00, 0xFF, 0xFF]) 3 = some 0xFF ∧
    memRead (inPkt [0x02, 0x01, 0x00, 0xFF, 0xFF]) 4 = some 0xFF := by decide

theorem witness_IllegalWordIsRefused :
    decodeOp 0x00100#19 = .error (.operandNotZero 0x00100) ∧
    ({ wrapped with moves := [.issue 0x00100] } : State).moves = .issue 0x00100 :: [] := by decide

theorem witness_StepRunsIssuedWord :
    decodeOp 0x30000#19 = .ok .drain ∧ issuer .drain = some .consumer ∧
    (fresh 1 5).busy .consumer = false ∧ (inComplete .step).busy .consumer = true := by decide

/-- No move with the consumer busy, with the producer busy, with nothing to do; a move made; a move
kept waiting by the consumer and by the producer. -/
theorem witness_StepFollowsTheMoves :
    ((inComplete .step).moves = [] ∧ (inComplete .step).busy .consumer = true ∧
      (inComplete .step).active = .step) ∧
    ((fresh 1 5).moves = [] ∧ (fresh 1 5).busy .consumer = false ∧ (fresh 1 5).busy .producer = false ∧
      AtEnd (fresh 1 5)) ∧
    (inComplete (.drain 0)).active = .drain 0 ∧
    ({ fresh 1 5 with moves := [.turn .producer] } : State).moves = .turn .producer :: [] ∧
    (({ inComplete .step with moves := [.onIndata] } : State).moves = .onIndata :: [] ∧
      ({ inComplete .step with moves := [.onIndata] } : State).busy .consumer = true) ∧
    (({ fresh 1 5 with feeding := some ⟨[1], 0⟩, moves := [.await] } : State).busy .consumer = false ∧
      ({ fresh 1 5 with feeding := some ⟨[1], 0⟩, moves := [.await] } : State).busy .producer = true) := by
  unfold AtEnd
  decide

theorem witness_StepExecutesAssembledFrame :
    BlockInv { inComplete (.drain 1) with moves := [.turn .consumer] } ∧
    ({ inComplete (.drain 1) with moves := [.turn .consumer] } : State).lkOpen = true :=
  ⟨(inv_of_check (by decide)).toBlockInv, by decide⟩

theorem witness_ResetMeetsInvariant : (Config.wf ⟨1, 5, Config.ct0⟩) = true := by decide

theorem witness_StepKeepsInvariant :
    Inv { wrapped with moves := [.issue 0x10003] } ∧
    ∃ t, step { wrapped with moves := [.issue 0x10003] } = .next t :=
  ⟨inv_of_check (by decide), (next_of_gives (p := fun _ => true) (by decide)).imp fun _ h => h.1⟩

theorem witness_StepAlwaysAnswers : Inv (inComplete .step) ∧ Inv wrapped ∧ Inv (fresh 1 5) :=
  ⟨inv_of_check (by decide), inv_of_check (by decide), inv_of_check (by decide)⟩

/-- V-D19: the longest frame's preamble has been read. -/
theorem witness_CountersFit :
    Inv { fresh 9 65540 with
      dfState := .content, dfKind := .acl, dfNeeded := 65535,
      pkt := inPkt [0x02, 0x34, 0x12, 0xFF, 0xFF] } :=
  inv_of_check (by decide)

/-- A closed link; each index just outside; a full ring with the write index at its end; a ring that
is not full, `CAP = 1`. -/
theorem witness_PushMeaning :
    ({ fresh 1 5 with lkOpen := false } : State).lkOpen = false ∧
    (3 + 1 ≤ ({ fresh 3 5 with rbWr := 4 } : State).rbWr) ∧
    (3 + 1 ≤ ({ fresh 3 5 with rbRd := 4 } : State).rbRd) ∧
    ((holding 3 5 [1, 2, 3]).lkOpen = true ∧ (holding 3 5 [1, 2, 3]).rbWr < 3 + 1 ∧
      (holding 3 5 [1, 2, 3]).rbRd < 3 + 1 ∧
      ((holding 3 5 [1, 2, 3]).rbWr + 1) % (3 + 1) = (holding 3 5 [1, 2, 3]).rbRd) ∧
    ((fresh 1 5).rbWr + 1) % (1 + 1) ≠ (fresh 1 5).rbRd ∧ memWf (holding 3 5 [1, 2, 3]).rbMem = true := by
  decide

theorem witness_PopNMeaning :
    ({ fresh 1 5 with lkOpen := false } : State).lkOpen = false ∧
    (1 + 1 ≤ ({ fresh 1 5 with rbRd := 2 } : State).rbRd) ∧ wrapped.lkOpen = true ∧ RingInv wrapped :=
  ⟨rfl, by decide, rfl, (inv_of_check (by decide)).ring⟩

theorem witness_RingOccupancy :
    (wrapped.rbWr < 3 + 1 ∧ wrapped.rbRd < 3 + 1 ∧ wrapped.isFull = true) ∧
    (fresh 1 5).isEmpty = true ∧ (holding 1 5 [9]).isFull = true := by decide

theorem witness_PushAndPopMoveAvail : RingInv wrapped ∧ wrapped.lkOpen = true :=
  ⟨(inv_of_check (by decide)).ring, rfl⟩

/-- A full ring, and one that is not. -/
theorem witness_RingIsAQueue :
    (RingInv wrapped ∧ wrapped.lkOpen = true ∧ ringContents wrapped = .ok [0xCC, 0xEE, 0xFF] ∧
      wrapped.cfg.cap = 3) ∧
    RingInv (holding 9 5 [7]) ∧ ringContents (holding 9 5 [7]) = .ok [7] :=
  ⟨⟨(inv_of_check (by decide)).ring, by decide⟩, (inv_of_check (by decide)).ring, by decide⟩

/-- V-R1 row 11: empty, with `rb_rd = 1`. -/
theorem witness_CapacityPushesThenFull :
    RingInv { wrapped with rbRd := 1 } ∧ ({ wrapped with rbRd := 1 } : State).avail = 0 ∧
    [0x21#8, 0x22, 0x23].length = ({ wrapped with rbRd := 1 } : State).cfg.cap :=
  ⟨(inv_of_check (by decide)).ring, by decide⟩

/-- An empty ring; the bad type bytes beside the legal ones; the legal ones. -/
theorem witness_TypeBytePass :
    (RingInv (fresh 1 5) ∧ (fresh 1 5).avail = 0) ∧
    (∀ t ∈ [0x00#8, 0x01, 0x02, 0x03, 0x04, 0x05, 0xFF],
      RingInv (holding 1 5 [t]) ∧ (holding 1 5 [t]).active = .idle ∧ (holding 1 5 [t]).lkOpen = true ∧
      (holding 1 5 [t]).fault = 0 ∧ (holding 1 5 [t]).dfState = .idle ∧ 1 ≤ (holding 1 5 [t]).cfg.pktMax ∧
      0 < (holding 1 5 [t]).avail ∧ memRead (holding 1 5 [t]).rbMem 0 = some t ∧
      (t.toNat = 0 ∨ 5 ≤ t.toNat ∨ t ∈ [Kind.command, .acl, .sco, .event].map Kind.typeByte)) := by
  refine ⟨⟨(inv_of_check (by decide)).ring, by decide⟩, ?_⟩
  simp only [List.forall_mem_cons, List.not_mem_nil, false_implies, implies_true, and_true]
  refine ⟨?_, ?_, ?_, ?_, ?_, ?_, ?_⟩ <;> exact ⟨(inv_of_check (by decide)).ring, by decide⟩

/-- A preamble that stays short; one whose frame just fits; one whose frame just does not. -/
theorem witness_PreamblePass :
    (BlockInv (inHeader 5 [0x13]) ∧ 0 + min 2 (inHeader 5 [0x13]).avail < 2) ∧
    (BlockInv (inHeader 6 [0x13, 0x03]) ∧ 0 + min 2 (inHeader 6 [0x13, 0x03]).avail = 2) ∧
    (BlockInv (inHeader 5 [0x13, 0x03]) ∧ (inHeader 5 [0x13, 0x03]).active = .idle ∧
      (inHeader 5 [0x13, 0x03]).lkOpen = true ∧ (inHeader 5 [0x13, 0x03]).fault = 0 ∧
      (inHeader 5 [0x13, 0x03]).dfState = .header ∧
      readContentLength .event (inPkt [0x04, 0x13, 0x03]) = .ok 3) :=
  ⟨⟨(inv_of_check (by decide)).toBlockInv, by decide⟩,
    ⟨(inv_of_check (by decide)).toBlockInv, by decide⟩,
    (inv_of_check (by decide)).toBlockInv, by decide⟩

/-- A content that stays short by one byte; one that is complete. -/
theorem witness_ContentPass :
    (BlockInv (inContent [1, 2, 3]) ∧ 0 + min 4 (inContent [1, 2, 3]).avail < 4) ∧
    (BlockInv (inContent [1, 2, 3, 4]) ∧ (inContent [1, 2, 3, 4]).active = .idle ∧
      (inContent [1, 2, 3, 4]).lkOpen = true ∧ (inContent [1, 2, 3, 4]).fault = 0 ∧
      (inContent [1, 2, 3, 4]).dfState = .content ∧ 0 + min 4 (inContent [1, 2, 3, 4]).avail = 4) :=
  ⟨⟨(inv_of_check (by decide)).toBlockInv, by decide⟩,
    (inv_of_check (by decide)).toBlockInv, by decide⟩

theorem witness_DeliverPass :
    (BlockInv (inComplete .step) ∧ (inComplete .step).lkOpen = true ∧ (inComplete .step).fault = 0 ∧
      (inComplete .step).dfState = .complete ∧ (inComplete .step).active = .step) ∧
    BlockInv (inComplete (.drain 0)) ∧ (inComplete (.drain 0)).active = .drain 0 :=
  ⟨⟨(inv_of_check (by decide)).toBlockInv, by decide⟩,
    (inv_of_check (by decide)).toBlockInv, by decide⟩

theorem witness_HaltedStepAndDrain :
    wrapped.active = .idle ∧ wrapped.lkOpen = true ∧ wrapped.fault ≠ 0 := by decide

/-- An index just outside the ring, in each of the three states that pop. -/
theorem witness_CorruptIndexPass :
    ((fresh 1 5).cfg.cap + 1 ≤ ({ fresh 1 5 with rbRd := 2 } : State).rbRd ∧ (fresh 1 5).active = .idle ∧
      (fresh 1 5).lkOpen = true ∧ (fresh 1 5).fault = 0 ∧ (fresh 1 5).dfState ≠ .complete) ∧
    ((inHeader 5 []).cfg.cap + 1 ≤ ({ inHeader 5 [] with rbWr := 10 } : State).rbWr ∧
      (inHeader 5 []).fault = 0 ∧ (inHeader 5 []).dfState ≠ .complete) ∧
    (inContent []).cfg.cap + 1 ≤ ({ inContent [] with rbWr := 10 } : State).rbWr ∧
    (inContent []).fault = 0 ∧ (inContent []).dfState ≠ .complete := by decide

theorem witness_SecondConsumerRefused : (inComplete (.drain 0)).active ≠ .idle := by decide

/-- Mid-frame, halted, and closed. -/
theorem witness_StepEndsWithinFourPasses :
    (BlockInv (inContent [1, 2]) ∧ (inContent [1, 2]).active = .idle ∧ (inContent [1, 2]).feeding = none) ∧
    BlockInv wrapped ∧ BlockInv { fresh 1 5 with lkOpen := false } :=
  ⟨⟨(inv_of_check (by decide)).toBlockInv, by decide⟩, (inv_of_check (by decide)).toBlockInv,
    (inv_of_check (by decide)).toBlockInv⟩

theorem witness_DrainEnds :
    (BlockInv (inContent [1, 2]) ∧ (inContent [1, 2]).active = .idle ∧ (inContent [1, 2]).feeding = none) ∧
    BlockInv wrapped ∧ BlockInv { fresh 1 5 with lkOpen := false } :=
  witness_StepEndsWithinFourPasses

/-- Mid-frame, with the rest of the frame and a bad type byte in the ring. -/
theorem witness_DrainDeliversParse :
    BlockInv (inContent [1, 2, 3, 4, 7]) ∧ (inContent [1, 2, 3, 4, 7]).active = .idle ∧
    (inContent [1, 2, 3, 4, 7]).lkOpen = true ∧ (inContent [1, 2, 3, 4, 7]).fault = 0 ∧
    65540 ≤ (inContent [1, 2, 3, 4, 7]).cfg.pktMax ∧
    Holds (inContent [1, 2, 3, 4, 7]) [0x04, 0x0E, 0x04, 1, 2, 3, 4, 7] :=
  ⟨(inv_of_check (by decide)).toBlockInv, by decide, by decide, by decide, by decide,
    [0x04, 0x0E, 0x04], [1, 2, 3, 4, 7], by decide⟩

/-- S1, cut after its third byte, through a ring of 4 bytes. -/
theorem witness_ChunkingDoesNotMatter :
    (Config.wf ⟨4, 65540, Config.ct0⟩) = true ∧
    (∀ b ∈ [[0x04#8, 0x0E, 0x04], [0x01, 0x03, 0x0C, 0x00], []], b.length ≤ 4) ∧
    (parse [0x04, 0x0E, 0x04, 0x01, 0x03, 0x0C, 0x00]).2 = .idle := by decide

theorem witness_StepOnAFrameIsItsMeaning :
    BlockInv (holding 9 5 [0x04, 0x13, 0x02, 0xAA, 0xBB, 0x01]) ∧
    (Instr.h4Event 0x13 [0xAA, 0xBB]).wf = true ∧
    encode (.h4Event 0x13 [0xAA, 0xBB]) = .frame [0x04, 0x13, 0x02, 0xAA, 0xBB] ∧
    ringContents (holding 9 5 [0x04, 0x13, 0x02, 0xAA, 0xBB, 0x01]) =
      .ok ([0x04, 0x13, 0x02, 0xAA, 0xBB] ++ [0x01]) ∧
    [0x04#8, 0x13, 0x02, 0xAA, 0xBB].length ≤ 5 :=
  ⟨(inv_of_check (by decide)).toBlockInv, by decide⟩

/-- A pass that delivers, and one that does not. -/
theorem witness_NoByteIsLost :
    (BlockInv (inComplete .step) ∧
      Holds (inComplete .step) [0x04, 0x0E, 0x04, 0x01, 0x03, 0x0C, 0x00] ∧
      ∃ t, consumerPass (inComplete .step) = .next t ∧ decide (t.fault = 0) = true) ∧
    ∃ t, consumerPass { inContent [1, 2] with active := .step } = .next t ∧ decide (t.fault = 0) = true :=
  ⟨⟨(inv_of_check (by decide)).toBlockInv,
      ⟨[0x04, 0x0E, 0x04, 0x01, 0x03, 0x0C, 0x00], [], by decide⟩, next_of_gives (by decide)⟩,
    next_of_gives (by decide)⟩

/-- Each edge: into `Header`, `Content` and `Complete`; back to `Idle` by a delivery, by FRAME_TOO_LONG
and by a reset. -/
theorem witness_StateEdges :
    (∃ t, step { holding 1 5 [4] with active := .step } = .next t ∧
      decide (t.dfState = .header) = true) ∧
    (∃ t, step { inHeader 6 [0x13, 0x03] with active := .step } = .next t ∧
      decide (t.dfState = .content) = true) ∧
    (∃ t, step { inContent [1, 2, 3, 4] with active := .step } = .next t ∧
      decide (t.dfState = .complete) = true) ∧
    (∃ t, step (inComplete .step) = .next t ∧ decide (t.dfState = .idle) = true) ∧
    (∃ t, step { inHeader 5 [0x13, 0x03] with active := .step } = .next t ∧
      decide (t.dfState = .idle) = true) ∧
    ∃ t, step { inContent [] with moves := [.issue 0x50000] } = .next t ∧
      decide (t.dfState = .idle) = true :=
  ⟨next_of_gives (by decide), next_of_gives (by decide), next_of_gives (by decide),
    next_of_gives (by decide), next_of_gives (by decide), next_of_gives (by decide)⟩

theorem witness_FramesDeliverTheirRecord :
    (fresh 1 5).lkOpen = true ∧ (fresh 1 5).fault = 0 ∧ (List.replicate 255 0#8).length < 256 ∧
    (List.replicate 65535 0#8).length < 65536 := by
  simp only [List.length_replicate]
  decide

/-- The four frames, on a closed link and on a halted one. -/
theorem witness_HaltedFrames :
    (frameRecord (.h4Command 0 [])).isSome = true ∧ (frameRecord (.h4Acl 0 [])).isSome = true ∧
    (frameRecord (.h4Sco 0 [])).isSome = true ∧ (frameRecord (.h4Event 0 [])).isSome = true ∧
    ({ fresh 1 5 with lkOpen := false } : State).lkOpen = false ∧ wrapped.fault ≠ 0 := by decide

/-- A halted block takes a `DRAIN`. -/
theorem witness_HaltHolds :
    wrapped.fault ≠ 0 ∧
    ∃ t, step { wrapped with moves := [.issue 0x30000] } = .next t ∧ decide (t.fault ≠ 0) = true :=
  ⟨by decide, next_of_gives (by decide)⟩

/-- A bit stays set; a set bit is cleared; `bad_type` is written. -/
theorem witness_FaultBitsAreSticky :
    (∃ t, step { wrapped with moves := [.issue 0x000AA] } = .next t ∧ t.faultBit 1 = true) ∧
    (wrapped.fault ≠ 0 ∧ ∃ t, step { wrapped with moves := [.issue 0x50000] } = .next t ∧
      decide (t.fault = 0) = true) ∧
    ∃ t, step { holding 1 5 [7] with moves := [.issue 0x20000] } = .next t ∧
      decide (t.badType ≠ (holding 1 5 [7]).badType) = true :=
  ⟨next_of_gives (by decide), ⟨by decide, next_of_gives (by decide)⟩, next_of_gives (by decide)⟩

theorem witness_FrameTooLongUnreachable :
    65540 ≤ (inHeader 65540 [0x13, 0xFF]).cfg.pktMax ∧ (inHeader 65540 [0x13, 0xFF]).faultBit 3 = false ∧
    ∃ t, step { inHeader 65540 [0x13, 0xFF] with moves := [.issue 0x20000] } = .next t :=
  ⟨by decide, by decide, (next_of_gives (p := fun _ => true) (by decide)).imp fun _ h => h.1⟩

/-- The configuration changes; the link closes; the link opens. -/
theorem witness_LinkAndConfigChanges :
    (∃ t, step { fresh 1 5 with lkOpen := false, moves := [.linkOpen ⟨7, 16, Config.ct0⟩] } = .next t ∧
      (decide (t.cfg ≠ (fresh 1 5).cfg) && t.lkOpen) = true) ∧
    ∃ t, step { fresh 1 5 with moves := [.issue 0x60000] } = .next t ∧ (!t.lkOpen) = true :=
  ⟨next_of_gives (by decide), next_of_gives (by decide)⟩

/-- A byte of the ring changes; the producer's transition; a late pass of a `DRAIN`; a consumer's
operation. -/
theorem witness_StorageOwnership :
    (memWf (fresh 1 5).rbMem = true ∧
      ∃ t, step { fresh 1 5 with moves := [.issue 0x000AA] } = .next t ∧
        decide (memRead t.rbMem 0 ≠ memRead (fresh 1 5).rbMem 0) = true) ∧
    (∃ t, feedPass { fresh 1 5 with feeding := some ⟨[1], 0⟩ } = .next t ∧ decide (t.rbWr = 1) = true) ∧
    (∃ t, consumerPass { inHeader 6 [0x13] with active := .drain 3 } = .next t ∧
      decide (t.rbRd = 1) = true) ∧
    issuer (.popN 1) = some .consumer ∧
    ∃ t, exec (.popN 1) wrapped = .next t ∧ decide (t.rbRd = 3) = true :=
  ⟨⟨rfl, next_of_gives (by decide)⟩, next_of_gives (by decide), next_of_gives (by decide), rfl,
    next_of_gives (by decide)⟩

theorem witness_OutputsOnlyGrow :
    ∃ t, step (inComplete .step) = .next t ∧ decide (Event.deliver recordS1 ∈ t.events) = true :=
  next_of_gives (by decide)

/-- The ring of `wrapped` with its window elsewhere and its stale slot overwritten. -/
def elsewhere : State :=
  { wrapped with
    rbMem := inPkt [0xCC, 0xEE, 0xFF, 0x99], rbWr := 3, rbRd := 0, dfKind := .sco, badType := 0x77,
    pkt := inPkt [0x55] }

theorem witness_HiddenStateIsUnobservable :
    Inv wrapped ∧ Inv elsewhere ∧ Alike wrapped elsewhere ∧ ∃ t, step wrapped = .next t :=
  ⟨inv_of_check (by decide), inv_of_check (by decide),
    ⟨rfl, by decide, rfl, by decide, rfl, rfl, by decide, rfl, rfl, rfl, rfl, rfl, rfl⟩,
    (next_of_gives (p := fun _ => true) (by decide)).imp fun _ h => h.1⟩

/-- A group with one class, a group with overrides (an OCF listed, one not), no group. -/
theorem witness_ClassifyMeaning :
    (fresh 1 5).cfg.wf = true ∧ ((8 : BitVec 6), Group.uniform .ble) ∈ (fresh 1 5).cfg.ct ∧
    (0x23FF#16).toNat / 1024 = 8 ∧
    ((1 : BitVec 6), Group.perOcf .bt [(6, .notSure)]) ∈ (fresh 1 5).cfg.ct ∧
    (0x0406#16).toNat / 1024 = 1 ∧ (0x0406#16).toNat % 1024 = 6 ∧
    (0x07FF#16).toNat / 1024 = 1 ∧ (0x07FF#16).toNat % 1024 ≠ 6 ∧
    (∀ e ∈ (fresh 1 5).cfg.ct, e.1.toNat ≠ (0xFFFF#16).toNat / 1024) := by decide

theorem witness_ClassifyKnownPoints :
    (fresh 1 5).cfg.wf = true ∧ ∀ e ∈ (fresh 1 5).cfg.ct, e.1 ≠ ogf 0x0000 := by decide

theorem witness_ResetLinkMeaning :
    wrapped.lkOpen = true ∧ ({ fresh 1 5 with lkOpen := false } : State).lkOpen = false := by decide

theorem witness_ExitMeaning :
    (inContent [1]).lkOpen = true ∧ ({ fresh 1 5 with lkOpen := false } : State).lkOpen = false := by decide

theorem witness_ClosedLinkRefuses :
    ({ fresh 1 5 with lkOpen := false } : State).active = .idle ∧
    ∃ t, step { fresh 1 5 with lkOpen := false, moves := [.linkOpen ⟨1, 5, Config.ct0⟩] } = .next t ∧
      t.lkOpen = true :=
  ⟨rfl, next_of_gives (by decide)⟩

theorem witness_ResetIsIdempotent :
    wrapped.lkOpen = true ∧ (holding 3 65540 [1]).lkOpen = true ∧ (holding 3 65540 [1]).cfg = wrapped.cfg ∧
    (∃ t, exec .resetLink wrapped = .next t) ∧ ∃ t, exec .resetLink (holding 3 65540 [1]) = .next t :=
  ⟨rfl, rfl, rfl, (next_of_gives (p := fun _ => true) (by decide)).imp fun _ h => h.1,
    (next_of_gives (p := fun _ => true) (by decide)).imp fun _ h => h.1⟩

theorem witness_LinkOpenGivesResetState :
    ({ fresh 1 5 with lkOpen := false, moves := [.linkOpen ⟨7, 16, Config.ct0⟩] } : State).lkOpen = false ∧
    (Config.wf ⟨7, 16, Config.ct0⟩) = true := by decide

/-- Open and full, open with two bytes free and three to feed, and closed. -/
theorem witness_FeedRun :
    (RingInv wrapped ∧ wrapped.active = .idle ∧ wrapped.feeding = none ∧ wrapped.lkOpen = true ∧
      ringContents wrapped = .ok [0xCC, 0xEE, 0xFF]) ∧
    (RingInv (holding 3 5 [1]) ∧ (holding 3 5 [1]).active = .idle ∧ (holding 3 5 [1]).feeding = none ∧
      (holding 3 5 [1]).lkOpen = true ∧ (holding 3 5 [1]).free = 2 ∧
      ringContents (holding 3 5 [1]) = .ok [1] ∧ ¬ [7#8, 8, 9].length ≤ (holding 3 5 [1]).free ∧
      [7#8, 8].length ≤ (holding 3 5 [1]).free) ∧
    RingInv { fresh 1 5 with lkOpen := false } :=
  ⟨⟨(inv_of_check (by decide)).ring, by decide⟩, ⟨(inv_of_check (by decide)).ring, by decide⟩,
    (inv_of_check (by decide)).ring⟩

end Sys2Proof.Tests
end

section
/-! SUPPORT. Which transition a step is, the invariant after reset, and what a pass does on a corrupt index:
O8, O9, O11, O52. -/

namespace Sys2Proof.Machine

/-! ### Which transition a step is (R9) -/

theorem Move.waitsFor_of_free {s : State} {m : Move} (h : ∀ c, m.needs s = some c → s.busy c = false) :
    m.waitsFor s = none := by
  unfold Move.waitsFor
  cases hn : m.needs s with
  | none => rfl
  | some c => simp [h c hn]

theorem Move.waitsFor_of_busy {s : State} {m : Move} {c : Context} (hn : m.needs s = some c)
    (hb : s.busy c = true) : m.waitsFor s = some c := by
  simp [Move.waitsFor, hn, hb]

theorem step_of_no_moves {s : State} (h : s.moves = []) : step s = goOn s := by
  simp [step, runNext, h]

/-- A move whose context is free is made. -/
theorem step_of_free {s : State} {m : Move} {rest : List Move} (hm : s.moves = m :: rest)
    (h : ∀ c, m.needs s = some c → s.busy c = false) : step s = perform m { s with moves := rest } := by
  simp [step, runNext, hm, Move.waitsFor_of_free h]

/-- A move whose context is busy waits for that context's next transition. -/
theorem step_of_busy {s : State} {m : Move} {rest : List Move} {c : Context} (hm : s.moves = m :: rest)
    (hn : m.needs s = some c) (hb : s.busy c = true) : step s = contextPass c s := by
  simp [step, runNext, hm, Move.waitsFor_of_busy hn hb]

theorem Move.needs_issue {s : State} {w : OpWord} {i : Instr} (h : decodeOp w = .ok i) :
    (Move.issue w).needs s = issuer i := by
  simp [Move.needs, h]

/-- `await` waits for the consumer first. -/
theorem Move.needs_await {s : State} :
    Move.await.needs s = if s.busy .consumer then some .consumer else some .producer := rfl

/-- With the consumer free, a consumer's operation begins by its first pass (R126, R127). -/
theorem beginConsumer_of_idle {s : State} (op : ConsumerOp) (h : s.active = .idle) :
    beginConsumer op s = consumerPass { s with active := op } := if_pos h

theorem State.busy_consumer_iff (s : State) : s.busy .consumer = true ↔ s.active ≠ .idle := by
  simp [State.busy]

/-- Settles O8: the two branches of what a step does with its next move, at an operation word. -/
theorem stepRunsIssuedWord : Obligations.StepRunsIssuedWord := by
  intro s w i rest hm hd
  have hneeds := Move.needs_issue (s := s) hd
  refine ⟨fun hfree => ?_, fun c hc hbusy => step_of_busy hm (hneeds.trans hc) hbusy⟩
  rw [step_of_free hm fun c hc => hfree c (hneeds ▸ hc)]
  simp [perform, issueWord, hd]

/-- Settles O9: each clause is the free or the waiting branch of a step for one move; the last two
say that a pass does not know whether it is the first. -/
theorem stepFollowsTheMoves : Obligations.StepFollowsTheMoves := by
  intro s
  refine ⟨?noneConsumer, ?noneProducer, ?atEnd, ?turn, ?indataFree, ?feedFree, ?indataBusy, ?feedBusy,
    ?awaitConsumer, ?awaitProducer, ?linkOpen, ?awaitFree, ?laterStep, ?laterDrain⟩
  case noneConsumer =>
    intro hm hb
    simp [step_of_no_moves hm, goOn, hb, contextPass]
  case noneProducer =>
    intro hm hb
    simp [step_of_no_moves hm, goOn, hb, contextPass]
  case atEnd =>
    rintro ⟨ha, hf, hm⟩
    simp [step_of_no_moves hm, goOn, contextPass, feedPass, State.busy, ha, hf]
  case turn =>
    intro c rest hm
    exact step_of_free hm (by simp [Move.needs])
  case indataFree =>
    intro rest hm hb
    exact step_of_free hm (by simp [Move.needs, hb])
  case feedFree =>
    intro bytes rest hm hb
    exact step_of_free hm (by simp [Move.needs, hb])
  case indataBusy =>
    intro rest hm hb
    exact step_of_busy hm rfl hb
  case feedBusy =>
    intro bytes rest hm hb
    exact step_of_busy hm rfl hb
  case awaitConsumer =>
    intro rest hm hb
    exact step_of_busy hm (by simp [Move.needs_await, hb]) hb
  case awaitProducer =>
    intro rest hm hc hb
    exact step_of_busy hm (by simp [Move.needs_await, hc]) hb
  case linkOpen =>
    intro c rest hm
    exact step_of_free hm (by simp [Move.needs])
  case awaitFree =>
    intro rest hm hc hp
    exact step_of_free hm (by simp [Move.needs_await, hc, hp])
  case laterStep =>
    intro ha
    simp only [exec, execStep, beginConsumer_of_idle, ← ha]
  case laterDrain =>
    intro ha
    simp only [exec, execDrain, beginConsumer_of_idle, ← ha]

/-! ### The invariant after reset -/

theorem config_chosen_wf : Config.chosen.wf = true := by
  have hcap : 1 ≤ Config.chosen.cap := Nat.le_add_left _ _
  have hpkt : 5 ≤ Config.chosen.pktMax := by decide
  have hct : tableWf Config.chosen.ct = true := by
    unfold Config.chosen
    split
    · assumption
    · decide
  simp [Config.wf, hcap, hpkt, hct]

/-- The state after reset with any admitted configuration: an open, empty, idle block (R45). -/
theorem State.resetWith_inv {c : Config} (hc : c.wf = true) : Inv (State.resetWith c) where
  cfg := hc
  ring :=
    { wr_lt := State.slots_pos _
      rd_lt := State.slots_pos _
      mem_wf := rfl
      mem_below := rfl
      window := by simp }
  deframer :=
    { phase := by constructor <;> simp [State.resetWith]
      pkt_wf := rfl
      pkt_below := rfl
      written := by simp [State.pktLen, State.resetWith]
      type_byte := by simp [State.resetWith] }
  faults := FaultInv.of_zero rfl
  closed := by simp [ClosedInv, State.resetWith]
  at_rest := by simp [AtRestInv, State.resetWith]

/-- Settles O11, by the values of R45 field by field. -/
theorem resetMeetsInvariant : Obligations.ResetMeetsInvariant :=
  ⟨State.resetWith_inv config_chosen_wf, fun _ => State.resetWith_inv⟩

/-! ### A corrupt index (R183) -/

theorem withPopped_corrupt {s : State} (h : s.idxCorrupt = true) (n : Nat)
    (go : List Byte → State → Except Fault (MicroResult × State)) :
    withPopped n s go = .ok (.fault, s.raise .idxCorrupt) := if_pos h

/-- Every micro-transition that pops ends at its `POP_N` on a corrupt index (R13, R183). -/
theorem microTransition_corrupt {s : State} (h : s.idxCorrupt = true) (hd : s.dfState ≠ .complete) :
    microTransition s = .ok (.fault, s.raise .idxCorrupt) := by
  unfold microTransition
  cases hst : s.dfState with
  | idle => exact withPopped_corrupt h 1 _
  | header => exact withPopped_corrupt h s.want _
  | content => exact withPopped_corrupt h s.want _
  | complete => exact absurd hst hd

/-- A pass of the operation in progress ends it with `Fault` on a corrupt index (R14, R126). -/
theorem consumerPass_corrupt {s : State} (ha : s.active ≠ .idle) (ho : s.lkOpen = true) (hf : s.fault = 0)
    (hd : s.dfState ≠ .complete) (h : s.idxCorrupt = true) :
    consumerPass s = .next (finishConsumer (s.raise .idxCorrupt) .fault) :=
  consumerPass_micro ho hf ha (microTransition_corrupt h hd)

/-- Settles O52: the three clauses are one pass with STEP, DRAIN 0 and DRAIN j in progress. -/
theorem corruptIndexPass : Obligations.CorruptIndexPass := by
  intro s ha ho hf hd hidx
  have hpass : ∀ op, op ≠ .idle → consumerPass { s with active := op } =
      .next (finishConsumer (State.raise { s with active := op } .idxCorrupt) .fault) := fun op hop =>
    consumerPass_corrupt hop ho hf hd (by simpa [State.idxCorrupt, State.slots] using hidx)
  have hbit : withFaultBit s.fault .idxCorrupt = 0b0100#4 := by rw [hf]; rfl
  have hstep : consumerPass { s with active := .step } =
      .next { s with fault := 0b0100#4, events := .returned .step .fault :: s.events } := by
    rw [hpass _ (by simp)]
    simp [finishConsumer, State.raise, State.ret, State.emit, recordedType, hbit, ha]
  have hdrain : ∀ j, consumerPass { s with active := .drain j } =
      .next { s with fault := 0b0100#4,
                     events := .returned .drain (.drained j .fault) :: s.events } := by
    intro j
    rw [hpass _ (by simp)]
    simp [finishConsumer, State.raise, State.ret, State.emit, recordedType, hbit, ha]
  exact ⟨(beginConsumer_of_idle _ ha).trans hstep, (beginConsumer_of_idle _ ha).trans (hdrain 0), hdrain⟩

end Sys2Proof.Machine
end

section
/-! SUPPORT. The laws of runs of reads, and of the ring as a queue of its bytes. -/

namespace Sys2Proof.Machine

/-! ### Runs of reads -/

theorem getElem?_eq_some_getD {bytes : List Byte} {k : Nat} (hk : k < bytes.length) :
    bytes[k]? = some (bytes.getD k 0) := by
  simp [hk]

/-- A run of ring reads returns exactly the bytes of its slots. -/
theorem readRing_ok_iff {n i count : Nat} {m : List Host.Cell} {bytes : List Byte} :
    readRing n m i count = .ok bytes ↔
      bytes.length = count ∧ ∀ k, k < count → memRead m ((i + k) % n) = bytes[k]? := by
  constructor
  · intro h
    obtain ⟨hl, hk⟩ := readRing_ok h
    exact ⟨hl, fun k hlt => (hk k hlt).trans (getElem?_eq_some_getD (hl ▸ hlt)).symm⟩
  · rintro ⟨hl, hk⟩
    exact readRing_eq hl fun k hlt => (hk k hlt).trans (getElem?_eq_some_getD (hl ▸ hlt))

/-- A run of `pkt` reads returns exactly the bytes of its indices. -/
theorem readPkt_ok_iff {i count : Nat} {m : List Host.Cell} {bytes : List Byte} :
    readPkt m i count = .ok bytes ↔
      bytes.length = count ∧ ∀ k, k < count → memRead m (i + k) = bytes[k]? := by
  constructor
  · intro h
    obtain ⟨hl, hk⟩ := readPkt_ok h
    exact ⟨hl, fun k hlt => (hk k hlt).trans (getElem?_eq_some_getD (hl ▸ hlt)).symm⟩
  · rintro ⟨hl, hk⟩
    exact readPkt_eq hl fun k hlt => (hk k hlt).trans (getElem?_eq_some_getD (hl ▸ hlt))

/-- Part of a run of `pkt` reads. -/
theorem readPkt_slice {c i n : Nat} {m : List Host.Cell} {f : List Byte} (h : readPkt m 0 c = .ok f)
    (hn : i + n ≤ c) : readPkt m i n = .ok ((f.drop i).take n) := by
  obtain ⟨hl, hk⟩ := readPkt_ok_iff.mp h
  refine readPkt_ok_iff.mpr ⟨by simp; omega, fun k hlt => ?_⟩
  have hget := hk (i + k) (by omega)
  simpa [List.getElem?_take, hlt] using hget

/-- Bytes stored after a frame's first `n` bytes lengthen the frame. -/
theorem readPkt_storePkt {size n : Nat} {m m' : List Host.Cell} {f bytes : List Byte}
    (hw : memWf m = true) (hf : readPkt m 0 n = .ok f) (hst : storePkt size m n bytes = .ok m') :
    readPkt m' 0 (n + bytes.length) = .ok (f ++ bytes) := by
  obtain ⟨hl, hk⟩ := readPkt_ok_iff.mp hf
  obtain ⟨-, -, hread⟩ := storePkt_ok hst
  refine readPkt_ok_iff.mpr ⟨by simp [hl], fun k hlt => ?_⟩
  rw [(hread hw).2, Nat.zero_add]
  by_cases hkn : k < n
  · rw [if_neg (by omega), List.getElem?_append_left (by omega)]
    simpa using hk k hkn
  · rw [if_pos (by omega), List.getElem?_append_right (by omega), hl]
    exact (getElem?_eq_some_getD (by omega)).symm

/-- The content length is read off the frame's first bytes (R78). -/
theorem readContentLength_of_readPkt {k : Kind} {m : List Host.Cell} {f : List Byte}
    (h : readPkt m 0 (1 + preambleSize k) = .ok f) :
    readContentLength k m = .ok (contentLength k f) := by
  have hend := (lengthIndex_bounds k).2
  simp [readContentLength, contentLength, readPkt_slice h hend.le]

/-! ### The ring as a queue of its bytes (R25, R103) -/

theorem ringContents_ok_iff {s : State} {q : List Byte} :
    ringContents s = .ok q ↔
      q.length = s.avail ∧ ∀ k, k < s.avail → memRead s.rbMem (s.ringIndex s.rbRd k) = q[k]? :=
  readRing_ok_iff

/-- Every byte of the valid window has been written, so the window can be read (R21). -/
theorem RingInv.ringContents_total {s : State} (h : RingInv s) : ∃ q, ringContents s = .ok q :=
  readRing_total h.window

/-- The ring is full when it holds `CAP` bytes (R102). -/
theorem RingInv.isFull_iff {s : State} (h : RingInv s) : s.isFull = true ↔ s.avail = s.cfg.cap := by
  have hw := h.wr_lt
  have hr := h.rd_lt
  have hav := State.avail_eq hw hr
  have hslots : s.slots = s.cfg.cap + 1 := rfl
  rw [State.isFull, decide_eq_true_eq, State.ringIndex]
  by_cases hend : s.rbWr + 1 < s.slots
  · rw [Nat.mod_eq_of_lt hend]
    split at hav <;> omega
  · rw [show s.rbWr + 1 = s.slots by omega, Nat.mod_self]
    split at hav <;> omega

/-- The slot after the window is the one `PUSH` writes (R22). -/
theorem RingInv.window_end {s : State} (h : RingInv s) : s.ringIndex s.rbRd s.avail = s.rbWr := by
  have hw := h.wr_lt
  have hr := h.rd_lt
  have hav := State.avail_eq hw hr
  rw [State.ringIndex_eq hr (State.avail_lt hw hr)]
  split at hav <;> split <;> omega

/-- No slot of the window is the one `PUSH` writes (R104). -/
theorem RingInv.window_ne_wr {s : State} (h : RingInv s) {k : Nat} (hk : k < s.avail) :
    s.ringIndex s.rbRd k ≠ s.rbWr := by
  have hw := h.wr_lt
  have hr := h.rd_lt
  have hav := State.avail_eq hw hr
  have hlt := State.avail_lt hw hr
  rw [State.ringIndex_eq hr (by omega)]
  split at hav <;> split <;> omega

/-- `s` with the `n` oldest bytes removed from its ring. -/
def State.advance (s : State) (n : Nat) : State := { s with rbRd := s.ringIndex s.rbRd n }

theorem ringContents_advance {s : State} {q : List Byte} (h : RingInv s) (hq : ringContents s = .ok q)
    {n : Nat} (hn : n ≤ s.avail) : ringContents (s.advance n) = .ok (q.drop n) := by
  obtain ⟨hl, hget⟩ := ringContents_ok_iff.mp hq
  obtain ⟨-, hav⟩ := h.pop (t := s.advance n) n hn rfl rfl rfl rfl
  refine ringContents_ok_iff.mpr ⟨by rw [List.length_drop, hl, hav], fun k hk => ?_⟩
  have hidx : (s.advance n).ringIndex (s.advance n).rbRd k = s.ringIndex s.rbRd (n + k) := by
    simp only [State.advance, State.ringIndex, State.slots, Nat.mod_add_mod, Nat.add_assoc]
  rw [hidx, List.getElem?_drop]
  exact hget (n + k) (by omega)

theorem ringContents_append {s : State} {q : List Byte} (b : Byte) (h : RingInv s)
    (hf : s.isFull = false) (hq : ringContents s = .ok q) :
    ringContents (s.append b) = .ok (q ++ [b]) := by
  obtain ⟨hl, hget⟩ := ringContents_ok_iff.mp hq
  obtain ⟨-, hav⟩ := h.push b hf
  refine ringContents_ok_iff.mpr ⟨by simp [hl, hav], fun k hk => ?_⟩
  show memRead (memWrite s.rbMem s.rbWr b) (s.ringIndex s.rbRd k) = _
  rw [memRead_memWrite _ _ _ _ h.mem_wf]
  rcases Nat.lt_or_ge k s.avail with hlt | hge
  · rw [if_neg (h.window_ne_wr hlt), List.getElem?_append_left (by omega)]
    exact hget k hlt
  · obtain rfl : k = s.avail := by omega
    rw [if_pos h.window_end, ← hl]
    simp

/-- `POP_N` on an open link takes the oldest bytes, as many as asked for and held (R101). -/
theorem popBytes_eq {s : State} {q : List Byte} (h : RingInv s) (hq : ringContents s = .ok q) (n : Nat) :
    popBytes n s = .ok (q.take n, s.advance (min n s.avail)) := by
  obtain ⟨hl, hget⟩ := ringContents_ok_iff.mp hq
  have hrd : readRing s.slots s.rbMem s.rbRd (min n s.avail) = .ok (q.take n) := by
    refine readRing_ok_iff.mpr ⟨by simp [hl], fun k hk => ?_⟩
    rw [List.getElem?_take_of_lt (by omega)]
    exact hget k (by omega)
  simp [popBytes, State.idxCorrupt_false h.wr_lt h.rd_lt, hrd, State.advance]

/-- A micro-transition's own `POP_N` likewise (R121 to R123). -/
theorem withPopped_eq {s : State} {q : List Byte} (h : RingInv s) (hq : ringContents s = .ok q) (n : Nat)
    (go : List Byte → State → Except Fault (MicroResult × State)) :
    withPopped n s go = go (q.take n) (s.advance (min n s.avail)) := by
  simp [withPopped, State.idxCorrupt_false h.wr_lt h.rd_lt, popBytes_eq h hq]

end Sys2Proof.Machine
end

section
/-! SUPPORT. Alike states go on alike: O43. -/

namespace Sys2Proof.Machine

/-! ### The micro-transitions that collect (R122, R123) -/

/-- In `Header` the next byte of `pkt` is the one after the valid ones (R31). -/
theorem State.pktLen_of_header {s : State} (hd : s.dfState = .header) : s.pktLen = s.preambleIndex := by
  simp [State.pktLen, State.preambleIndex, hd]

/-- In `Content` the next byte of `pkt` is the one after the valid ones (R31). -/
theorem State.pktLen_of_content {s : State} (hd : s.dfState = .content) : s.pktLen = s.contentIndex := by
  simp [State.pktLen, State.contentIndex, hd]

/-- `T_HEADER` in terms of the bytes the ring holds (R122). -/
theorem tHeader_eq {s : State} {q : List Byte} {m : List Host.Cell} (h : RingInv s)
    (hq : ringContents s = .ok q)
    (hst : storePkt s.cfg.pktMax s.pkt s.preambleIndex (q.take s.want) = .ok m) :
    tHeader s =
      if s.dfCollected + (q.take s.want).length < s.dfNeeded then
        .ok (.needMore, { s.advance (min s.want s.avail) with
          pkt := m, dfCollected := s.dfCollected + (q.take s.want).length })
      else finishPreamble { s.advance (min s.want s.avail) with pkt := m } := by
  simp only [tHeader, withPopped_eq h hq, hst]

/-- `T_CONTENT` in terms of the bytes the ring holds (R123). -/
theorem tContent_eq {s : State} {q : List Byte} {m : List Host.Cell} (h : RingInv s)
    (hq : ringContents s = .ok q)
    (hst : storePkt s.cfg.pktMax s.pkt s.contentIndex (q.take s.want) = .ok m) :
    tContent s =
      if s.dfCollected + (q.take s.want).length < s.dfNeeded then
        .ok (.needMore, { s.advance (min s.want s.avail) with
          pkt := m, dfCollected := s.dfCollected + (q.take s.want).length })
      else
        .ok (.progress, { s.advance (min s.want s.avail) with
          pkt := m, dfState := .complete, dfCollected := s.dfCollected + (q.take s.want).length }) := by
  simp only [tContent, withPopped_eq h hq, hst]

/-! ### Alike states under the named updates -/

theorem Alike.pktLen {s s' : State} (h : Alike s s') : s'.pktLen = s.pktLen := by
  unfold State.pktLen
  rw [h.df_state, h.df_collected]
  cases hd : s.dfState <;> simp [h.df_kind, hd]

theorem Alike.want {s s' : State} (h : Alike s s') : s'.want = s.want := by
  simp [State.want, h.df_needed, h.df_collected]

theorem Alike.faultOut {s s' : State} (h : Alike s s') : s'.faultOut = s.faultOut := by
  simp [State.faultOut, h.fault]

theorem Alike.busy {s s' : State} (h : Alike s s') (c : Context) : s'.busy c = s.busy c := by
  cases c
  · simp [State.busy, h.feeding]
  · simp [State.busy, h.active]

theorem Alike.waitsFor {s s' : State} (h : Alike s s') (m : Move) : m.waitsFor s' = m.waitsFor s := by
  have hneeds : m.needs s' = m.needs s := by cases m <;> simp [Move.needs, h.busy]
  simp [Move.waitsFor, hneeds, h.busy]

theorem Alike.emit {s s' : State} (h : Alike s s') (e : Event) : Alike (s.emit e) (s'.emit e) :=
  { h with events := by simp [h.events] }

theorem Alike.ret {s s' : State} (h : Alike s s') (i : Instr) (r : Result) :
    Alike (s.ret i r) (s'.ret i r) := h.emit _

theorem Alike.withActive {s s' : State} (h : Alike s s') (op : ConsumerOp) :
    Alike { s with active := op } { s' with active := op } :=
  { h with active := rfl }

theorem Alike.withFeeding {s s' : State} (h : Alike s s') (f : Option FeedProgress) :
    Alike { s with feeding := f } { s' with feeding := f } :=
  { h with feeding := rfl }

theorem Alike.withMoves {s s' : State} (h : Alike s s') (ms : List Move) :
    Alike { s with moves := ms } { s' with moves := ms } :=
  { h with moves := rfl }

/-- `bad_type` is recorded and not observed (R34). -/
theorem Alike.raise {s s' : State} (h : Alike s s') (f : FaultCode) : Alike (s.raise f) (s'.raise f) :=
  { h with fault := by simp [h.fault] }

/-- In `Idle` neither `df_kind` nor `pkt` is observed (R27, R31). -/
theorem Alike.toIdle {s s' : State} (h : Alike s s') : Alike s.toIdle s'.toIdle :=
  { h with
    df_state := rfl, df_kind := fun hd => absurd rfl hd, df_needed := rfl, df_collected := rfl
    frame := rfl }

theorem ringContents_of_empty {s : State} (h : s.avail = 0) : ringContents s = .ok [] := by
  simp [ringContents, h, readRing]

theorem Alike.clearLink {s s' : State} (h : Alike s s') : Alike s.clearLink s'.clearLink :=
  { h.toIdle with
    ring := by simp [ringContents_of_empty]
    fault := rfl }

theorem Alike.close {s s' : State} (h : Alike s s') :
    Alike { s with lkOpen := false } { s' with lkOpen := false } :=
  { h with lk_open := rfl }

/-- The states a link-open leaves hold nothing of the ones before but what it does not write
(R43, R167). -/
theorem Alike.linkOpen {s s' : State} (h : Alike s s') (c : Config) :
    Alike (linkOpen c s) (linkOpen c s') where
  cfg := by simp [Machine.linkOpen, State.resetWith, openedConfig, h.cfg, h.lk_open]
  ring := (ringContents_of_empty (State.resetWith_avail _)).trans
    (ringContents_of_empty (State.resetWith_avail _)).symm
  df_state := rfl
  df_kind := fun hd => absurd rfl hd
  df_needed := rfl
  df_collected := rfl
  frame := rfl
  fault := rfl
  lk_open := rfl
  events := h.events
  active := h.active
  feeding := h.feeding
  moves := h.moves

theorem Alike.finishConsumer {s s' : State} (h : Alike s s') (why : DrainEnd) :
    Alike (finishConsumer s why) (finishConsumer s' why) := by
  unfold Machine.finishConsumer
  rw [h.active]
  cases s.active with
  | idle => exact h
  | step => exact (h.withActive _).ret _ _
  | drain k => exact (h.withActive _).ret _ _

theorem Alike.closeConsumer {s s' : State} (h : Alike s s') :
    Alike (closeConsumer s) (closeConsumer s') := by
  unfold Machine.closeConsumer
  rw [h.active]
  cases s.active with
  | idle => exact h
  | step => exact (h.withActive _).ret _ _
  | drain k => exact (h.withActive _).ret _ _

theorem Alike.countPacket {s s' : State} (h : Alike s s') : Alike (countPacket s) (countPacket s') := by
  unfold Machine.countPacket
  rw [h.active]
  cases s.active with
  | idle => exact h
  | step => exact (h.withActive _).ret _ _
  | drain k => exact h.withActive _

/-! ### Alike states with the invariant -/

/-- Two alike states that both have the block's invariant: what the simulation of the operations
starts from. -/
structure Twins (s s' : State) : Prop extends Alike s s' where
  inv : BlockInv s
  inv' : BlockInv s'

theorem Twins.withActive {s s' : State} (h : Twins s s') (op : ConsumerOp) :
    Twins { s with active := op } { s' with active := op } :=
  ⟨h.toAlike.withActive op, h.inv.congr rfl rfl rfl rfl rfl rfl rfl rfl rfl rfl rfl,
    h.inv'.congr rfl rfl rfl rfl rfl rfl rfl rfl rfl rfl rfl⟩

theorem Twins.withFeeding {s s' : State} (h : Twins s s') (f : Option FeedProgress) :
    Twins { s with feeding := f } { s' with feeding := f } :=
  ⟨h.toAlike.withFeeding f, h.inv.congr rfl rfl rfl rfl rfl rfl rfl rfl rfl rfl rfl,
    h.inv'.congr rfl rfl rfl rfl rfl rfl rfl rfl rfl rfl rfl⟩

theorem Twins.withMoves {s s' : State} (h : Twins s s') (ms : List Move) :
    Twins { s with moves := ms } { s' with moves := ms } :=
  ⟨h.toAlike.withMoves ms, h.inv.congr rfl rfl rfl rfl rfl rfl rfl rfl rfl rfl rfl,
    h.inv'.congr rfl rfl rfl rfl rfl rfl rfl rfl rfl rfl rfl⟩

/-- Both rings hold the same bytes (R25). -/
theorem Twins.contents {s s' : State} (h : Twins s s') :
    ∃ q, ringContents s = .ok q ∧ ringContents s' = .ok q ∧ s'.avail = s.avail := by
  obtain ⟨q, hq⟩ := h.inv.ring.ringContents_total
  have hq' := h.ring.trans hq
  have hl := (ringContents_ok_iff.mp hq).1
  have hl' := (ringContents_ok_iff.mp hq').1
  exact ⟨q, hq, hq', hl'.symm.trans hl⟩

theorem Twins.isFull {s s' : State} (h : Twins s s') : s'.isFull = s.isFull := by
  obtain ⟨-, -, -, hav⟩ := h.contents
  rw [Bool.eq_iff_iff, h.inv.ring.isFull_iff, h.inv'.ring.isFull_iff, hav, h.cfg]

theorem Twins.append {s s' : State} (h : Twins s s') (b : Byte) (hf : s.isFull = false) :
    Alike (s.append b) (s'.append b) := by
  obtain ⟨q, hq, hq', -⟩ := h.contents
  have hring := ringContents_append b h.inv.ring hf hq
  have hring' := ringContents_append b h.inv'.ring (h.isFull.trans hf) hq'
  exact { h.toAlike with ring := hring'.trans hring.symm }

theorem Twins.advance {s s' : State} (h : Twins s s') {n : Nat} (hn : n ≤ s.avail) :
    Alike (s.advance n) (s'.advance n) := by
  obtain ⟨q, hq, hq', hav⟩ := h.contents
  have hring := ringContents_advance h.inv.ring hq hn
  have hring' := ringContents_advance h.inv'.ring hq' (hav ▸ hn)
  exact { h.toAlike with ring := hring'.trans hring.symm }

theorem Twins.pushByte {s s' : State} (h : Twins s s') (b : Byte) :
    (pushByte b s').1 = (pushByte b s).1 ∧ Alike (pushByte b s).2 (pushByte b s').2 := by
  have hidx := h.inv.idx
  have hidx' := h.inv'.idx
  rcases pushByte_cases b s with ⟨ho, -⟩ | ⟨-, hc, -⟩ | ⟨ho, -, hf, -⟩ | ⟨ho, -, hf, -⟩
  · simp [Machine.pushByte, h.lk_open, ho, h.toAlike]
  · simp [hidx] at hc
  · simp [Machine.pushByte, h.lk_open, ho, hidx, hidx', h.isFull, hf, h.toAlike.raise]
  · simp [Machine.pushByte, h.lk_open, ho, hidx, hidx', h.isFull, hf, h.append b hf]

/-- Both frames in assembly have the same bytes (R31). -/
theorem Twins.frames {s s' : State} (h : Twins s s') :
    ∃ f, readPkt s.pkt 0 s.pktLen = .ok f ∧ readPkt s'.pkt 0 s.pktLen = .ok f := by
  obtain ⟨f, hf⟩ := readPkt_total (m := s.pkt) (i := 0) (count := s.pktLen)
    (by simpa using h.inv.deframer.written)
  refine ⟨f, hf, ?_⟩
  rw [← h.pktLen]
  exact h.frame.trans hf

/-- The same bytes stored behind the frames in assembly make the same longer frame (R30, R31). -/
theorem Twins.stored {s s' : State} (h : Twins s s') {bytes : List Byte}
    (hfit : s.pktLen + bytes.length ≤ s.cfg.pktMax) :
    ∃ m m' f, storePkt s.cfg.pktMax s.pkt s.pktLen bytes = .ok m ∧
      storePkt s.cfg.pktMax s'.pkt s.pktLen bytes = .ok m' ∧
      readPkt m 0 (s.pktLen + bytes.length) = .ok f ∧ readPkt m' 0 (s.pktLen + bytes.length) = .ok f := by
  obtain ⟨f, hf, hf'⟩ := h.frames
  obtain ⟨m, hst⟩ := storePkt_total (m := s.pkt) hfit
  obtain ⟨m', hst'⟩ := storePkt_total (m := s'.pkt) hfit
  exact ⟨m, m', f ++ bytes, hst, hst', readPkt_storePkt h.inv.deframer.pkt_wf hf hst,
    readPkt_storePkt h.inv'.deframer.pkt_wf hf' hst'⟩

/-! ### The micro-transitions -/

/-- Two micro-transitions end with the same result in alike states. -/
def MicroAlike (x x' : Except Fault (MicroResult × State)) : Prop :=
  ∃ r m m', x = .ok (r, m) ∧ x' = .ok (r, m') ∧ Alike m m'

theorem Alike.micro {m m' : State} (h : Alike m m') (r : MicroResult) :
    MicroAlike (.ok (r, m)) (.ok (r, m')) := ⟨r, m, m', rfl, rfl, h⟩

theorem Twins.tIdle_alike {s s' : State} (h : Twins s s') (hd : s.dfState = .idle) :
    MicroAlike (tIdle s) (tIdle s') := by
  obtain ⟨q, hq, hq', hav⟩ := h.contents
  unfold tIdle
  rw [withPopped_eq h.inv.ring hq, withPopped_eq h.inv'.ring hq', hav]
  have hadv := h.advance (Nat.min_le_right 1 s.avail)
  cases q with
  | nil => exact hadv.micro _
  | cons t q =>
    simp only [List.take_succ_cons]
    cases hk : Kind.ofTypeByte t with
    | none => exact (hadv.raise _).micro _
    | some k =>
      have hlen : s.pktLen = 0 := by simp [State.pktLen, hd]
      have hmax := config_wf_pktMax h.inv.cfg
      obtain ⟨m, m', f, hst, hst', hf, hf'⟩ := h.stored (bytes := [t]) (by simp [hlen]; omega)
      rw [hlen] at hst hst' hf hf'
      simp only [h.cfg, hst, hst']
      refine ⟨_, _, _, rfl, rfl, ?_⟩
      exact { hadv with
        df_state := rfl, df_kind := fun _ => rfl, df_needed := rfl, df_collected := rfl
        frame := hf'.trans hf.symm }

/-- The end of `T_HEADER` sees of `pkt` the type byte and the preamble alone (R80, R122). -/
theorem Alike.finishPreamble_alike {s s' : State} {f : List Byte} (h : Alike s s') (hk : s'.dfKind = s.dfKind)
    (hf : readPkt s.pkt 0 (1 + preambleSize s.dfKind) = .ok f)
    (hf' : readPkt s'.pkt 0 (1 + preambleSize s.dfKind) = .ok f) :
    MicroAlike (finishPreamble s) (finishPreamble s') := by
  have hlen := readContentLength_of_readPkt hf
  have hlen' := readContentLength_of_readPkt hf'
  have hmax : s'.cfg.pktMax = s.cfg.pktMax := by rw [h.cfg]
  unfold finishPreamble
  simp only [hk, hlen, hlen', hmax]
  split
  · exact (h.raise _).toIdle.micro _
  · refine ⟨_, _, _, rfl, rfl, ?_⟩
    exact { h with
      df_state := rfl, df_kind := fun _ => rfl, df_needed := rfl, df_collected := rfl
      frame := by simpa [assembled, State.pktLen, hk] using hf'.trans hf.symm }

/-- The frames in assembly after `bytes` have been popped and stored, in the two states that collect
(R122, R123). -/
theorem Twins.collected {s s' : State} (h : Twins s s') (hd : s.dfState = .header ∨ s.dfState = .content)
    {bytes : List Byte} (hb : bytes.length ≤ s.want) :
    ∃ m m', storePkt s.cfg.pktMax s.pkt s.pktLen bytes = .ok m ∧
      storePkt s'.cfg.pktMax s'.pkt s'.pktLen bytes = .ok m' ∧
      (∃ f, readPkt m 0 (s.pktLen + bytes.length) = .ok f ∧
        readPkt m' 0 (s.pktLen + bytes.length) = .ok f) ∧
      Alike { s.advance (min s.want s.avail) with pkt := m, dfCollected := s.dfCollected + bytes.length }
        { s'.advance (min s.want s.avail) with pkt := m', dfCollected := s.dfCollected + bytes.length } := by
  have hadv := h.advance (Nat.min_le_right s.want s.avail)
  have hwant : s.want = s.dfNeeded - s.dfCollected := rfl
  have hfit : s.pktLen + bytes.length ≤ s.cfg.pktMax := by
    rcases hd with hd | hd
    · have hph := h.inv.deframer.phase.header hd
      have hmax := config_wf_pktMax h.inv.cfg
      have hsize := preambleSize_bounds s.dfKind
      simp only [State.pktLen, hd]
      omega
    · obtain ⟨-, hle, hmax⟩ := h.inv.deframer.phase.content hd
      simp only [State.pktLen, hd, frameLength] at hmax ⊢
      omega
  obtain ⟨m, m', f, hst, hst', hf, hf'⟩ := h.stored hfit
  refine ⟨m, m', hst, by rw [h.cfg, h.pktLen, hst'], ⟨f, hf, hf'⟩, ?_⟩
  have hkind := h.df_kind (by aesop)
  exact { hadv with
    df_collected := rfl
    frame := by
      have hframe := hf'.trans hf.symm
      rcases hd with hd | hd <;>
        simpa [assembled, State.pktLen, State.advance, h.df_state, hkind, hd, Nat.add_assoc] using hframe }

theorem Twins.tHeader_alike {s s' : State} (h : Twins s s') (hd : s.dfState = .header) :
    MicroAlike (tHeader s) (tHeader s') := by
  obtain ⟨q, hq, hq', hav⟩ := h.contents
  obtain ⟨hneed, hlt⟩ := h.inv.deframer.phase.header hd
  have hlen := State.pktLen_of_header hd
  have hlen' := State.pktLen_of_header (h.df_state.trans hd)
  have hb : (q.take s.want).length ≤ s.dfNeeded - s.dfCollected := List.length_take_le _ _
  obtain ⟨m, m', hst, hst', ⟨f, hf, hf'⟩, halike⟩ := h.collected (.inl hd) hb
  rw [hlen] at hst
  rw [hlen', ← h.want] at hst'
  rw [tHeader_eq h.inv.ring hq hst, tHeader_eq h.inv'.ring hq' hst', h.df_collected, h.df_needed, h.want,
    hav]
  split
  · exact halike.micro _
  · have hdone : s.pktLen + (q.take s.want).length = 1 + preambleSize s.dfKind := by
      rw [hlen, State.preambleIndex]
      omega
    rw [hdone] at hf hf'
    have hkind := h.df_kind (by simp [hd])
    -- `finishPreamble` does not read `df_collected`, so here it may hold the new count.
    have hend := halike.finishPreamble_alike hkind hf hf'
    exact hend

theorem Twins.tContent_alike {s s' : State} (h : Twins s s') (hd : s.dfState = .content) :
    MicroAlike (tContent s) (tContent s') := by
  obtain ⟨q, hq, hq', hav⟩ := h.contents
  have hlen := State.pktLen_of_content hd
  have hlen' := State.pktLen_of_content (h.df_state.trans hd)
  obtain ⟨m, m', hst, hst', -, halike⟩ := h.collected (.inr hd) (List.length_take_le s.want q)
  rw [hlen] at hst
  rw [hlen', ← h.want] at hst'
  rw [tContent_eq h.inv.ring hq hst, tContent_eq h.inv'.ring hq' hst', h.df_collected, h.df_needed, h.want,
    hav]
  split
  · exact halike.micro _
  · refine Alike.micro ?_ _
    exact { halike with
      df_state := rfl
      df_kind := fun _ => h.df_kind (by simp [hd])
      frame := by simpa [assembled, State.pktLen, State.advance, h.df_state, hd] using halike.frame }

theorem Twins.tComplete_alike {s s' : State} (h : Twins s s') (hd : s.dfState = .complete) :
    MicroAlike (tComplete s) (tComplete s') := by
  have hlen : s.pktLen = frameLength s.dfKind s.dfNeeded := by
    obtain ⟨-, hcol, -⟩ := h.inv.deframer.phase.complete hd
    simp [State.pktLen, frameLength, hd, hcol]
  obtain ⟨f, hf, hf'⟩ := h.frames
  have hkind := h.df_kind (by simp [hd])
  rw [hlen] at hf hf'
  simp only [tComplete, hkind, h.df_needed, hf, hf']
  exact (h.toAlike.emit _).toIdle.micro _

/-- Alike states make alike micro-transitions, with the same result (R120 to R124). -/
theorem Twins.microTransition_alike {s s' : State} (h : Twins s s') :
    MicroAlike (microTransition s) (microTransition s') := by
  unfold microTransition
  rw [h.df_state]
  cases hd : s.dfState with
  | idle => exact h.tIdle_alike hd
  | header => exact h.tHeader_alike hd
  | content => exact h.tContent_alike hd
  | complete => exact h.tComplete_alike hd

/-! ### The transitions -/

/-- Whatever state the first transition ends in, the second ends in one alike. -/
def Matches (o o' : Outcome) : Prop := ∀ t, o = .next t → ∃ t', o' = .next t' ∧ Alike t t'

theorem Alike.next {t t' : State} (h : Alike t t') : Matches (.next t) (.next t') := by
  rintro _ ⟨⟩
  exact ⟨t', rfl, h⟩

theorem Matches.of_refused (r : Refusal) (o : Outcome) : Matches (.refused r) o := by
  rintro _ ⟨⟩

theorem Twins.consumerPass_matches {s s' : State} (h : Twins s s') :
    Matches (consumerPass s) (consumerPass s') := by
  unfold consumerPass
  rw [h.active, h.lk_open, h.faultOut]
  split
  · exact h.toAlike.next
  · split
    · exact h.closeConsumer.next
    · split
      · exact (h.finishConsumer _).next
      · obtain ⟨r, m, m', hm, hm', halike⟩ := h.microTransition_alike
        rw [hm, hm']
        cases r with
        | progress => exact halike.next
        | packetComplete => exact halike.countPacket.next
        | needMore => exact (halike.finishConsumer _).next
        | fault => exact (halike.finishConsumer _).next

theorem Twins.feedPass_matches {s s' : State} (h : Twins s s') : Matches (feedPass s) (feedPass s') := by
  unfold feedPass
  rw [h.feeding]
  split
  · exact h.toAlike.next
  · exact (((h.toAlike.withFeeding _).emit _).emit _).next
  · obtain ⟨hres, halike⟩ := h.pushByte _
    rw [hres]
    exact ((halike.withFeeding _).ret _ _).next

theorem Twins.contextPass_matches {s s' : State} (h : Twins s s') (c : Context) :
    Matches (contextPass c s) (contextPass c s') := by
  cases c with
  | producer => exact h.feedPass_matches
  | consumer => exact h.consumerPass_matches

theorem Twins.beginConsumer_matches {s s' : State} (h : Twins s s') (op : ConsumerOp) :
    Matches (beginConsumer op s) (beginConsumer op s') := by
  unfold beginConsumer
  rw [h.active]
  split
  · exact (h.withActive op).consumerPass_matches
  · exact .of_refused _ _

theorem Twins.execPopN_matches {s s' : State} (h : Twins s s') (n : Half) :
    Matches (execPopN n s) (execPopN n s') := by
  obtain ⟨q, hq, hq', hav⟩ := h.contents
  unfold execPopN
  rw [h.lk_open, popBytes_eq h.inv.ring hq, popBytes_eq h.inv'.ring hq', hav]
  split
  · exact (h.toAlike.ret _ _).next
  · exact ((h.advance (Nat.min_le_right _ _)).ret _ _).next

theorem Alike.execFrame_matches {s s' : State} (h : Alike s s') (k : Kind) (raw : List Byte) :
    Matches (execFrame k raw s) (execFrame k raw s') := by
  unfold execFrame
  rw [State.enabled, State.enabled, h.lk_open, h.faultOut]
  split
  · exact (h.emit _).toIdle.next
  · exact h.next

/-- Alike states give every instruction the same meaning. -/
theorem Twins.exec_matches {s s' : State} (h : Twins s s') (i : Instr) : Matches (exec i s) (exec i s') := by
  cases i with
  | push b =>
    obtain ⟨hres, halike⟩ := h.pushByte b
    rw [exec, exec, execPush, execPush, hres]
    exact (halike.ret _ _).next
  | popN n => exact h.execPopN_matches n
  | step => exact h.beginConsumer_matches .step
  | drain => exact h.beginConsumer_matches (.drain 0)
  | classify o =>
    rw [exec, exec, execClassify, execClassify, h.cfg]
    exact (h.toAlike.ret _ _).next
  | resetLink =>
    rw [exec, exec, execResetLink, execResetLink, h.lk_open]
    split
    · exact (h.toAlike.ret _ _).next
    · exact (h.clearLink.ret _ _).next
  | exit =>
    rw [exec, exec, execExit, execExit, h.lk_open]
    split
    · exact (h.toAlike.ret _ _).next
    · exact (h.clearLink.close.ret _ _).next
  | h4Command o p => exact h.execFrame_matches .command (serCommand o p)
  | h4Acl f p => exact h.execFrame_matches .acl (serAcl f p)
  | h4Sco f p => exact h.execFrame_matches .sco (serSco f p)
  | h4Event e p => exact h.execFrame_matches .event (serEvent e p)

theorem Twins.perform_matches {s s' : State} (h : Twins s s') (m : Move) :
    Matches (perform m s) (perform m s') := by
  cases m with
  | issue w =>
    simp only [perform, issueWord]
    split
    · exact h.exec_matches _
    · exact (h.toAlike.emit _).next
  | feed bytes => exact (h.withFeeding _).feedPass_matches
  | onIndata => exact h.exec_matches .drain
  | linkOpen c => exact (h.toAlike.linkOpen c).next
  | turn c => exact h.contextPass_matches c
  | await => exact h.toAlike.next

theorem Twins.goOn_matches {s s' : State} (h : Twins s s') : Matches (goOn s) (goOn s') := by
  unfold goOn
  rw [h.busy]
  split
  · exact h.contextPass_matches .consumer
  · exact h.contextPass_matches .producer

/-- A step from one of two alike states is matched by a step from the other. -/
theorem Twins.step_matches {s s' : State} (h : Twins s s') : Matches (step s) (step s') := by
  unfold step runNext
  rw [h.moves]
  split
  · exact h.goOn_matches
  · rw [h.waitsFor]
    split
    · exact h.contextPass_matches _
    · exact (h.withMoves _).perform_matches _

/-- Settles O43: alikeness is a simulation; each transition reads of the ring its bytes, of `pkt` the
frame in assembly, and nothing else that alike states do not share. -/
theorem hiddenStateIsUnobservable : Obligations.HiddenStateIsUnobservable :=
  fun _ _ t hs hs' halike => Twins.step_matches ⟨halike, hs.toBlockInv, hs'.toBlockInv⟩ t

end Sys2Proof.Machine
end

section
/-! SUPPORT. The invariant under every step, that every step from it answers, and the bounds it gives:
O12, O13, O15. -/

namespace Sys2Proof.Machine

/-! ### What the invariant says of the consumer, and what it does not depend on -/

/-- The deframer waits for bytes: what `AtRestInv` says where no operation is in progress (R227). -/
def State.Waits (s : State) : Prop :=
  s.fault = 0 → s.dfState ≠ .complete ∧ (s.dfState = .content → s.dfCollected < s.dfNeeded)

theorem Inv.waits {s : State} (h : Inv s) (ha : s.active = .idle) : s.Waits := h.at_rest ha

theorem State.waits_of_idle {s : State} (hd : s.dfState = .idle) : s.Waits := by
  simp [State.Waits, hd]

theorem State.waits_of_fault {s : State} (hf : s.fault ≠ 0) : s.Waits := fun h => absurd h hf

theorem atRestInv_of_active {s : State} (ha : s.active ≠ .idle) : AtRestInv s := fun h => absurd h ha

/-- Whatever the outputs, the operations in progress and the moves are. -/
theorem BlockInv.withAgents {s : State} (h : BlockInv s) (es : List Event) (op : ConsumerOp)
    (f : Option FeedProgress) (ms : List Move) :
    BlockInv { s with events := es, active := op, feeding := f, moves := ms } :=
  h.congr rfl rfl rfl rfl rfl rfl rfl rfl rfl rfl rfl

/-- A consumer's operation may begin or end where the deframer waits. -/
theorem BlockInv.inv_of_waits {s : State} (h : BlockInv s) (hw : s.Waits) (es : List Event)
    (op : ConsumerOp) : Inv { s with events := es, active := op } :=
  ⟨h.withAgents es op s.feeding s.moves, fun _ => hw⟩

theorem Inv.begin {s : State} (h : Inv s) (ha : s.active = .idle) (op : ConsumerOp) :
    Inv { s with active := op } :=
  h.toBlockInv.inv_of_waits (h.waits ha) s.events op

theorem Inv.withOutputs {s : State} (h : Inv s) (es : List Event) (f : Option FeedProgress)
    (ms : List Move) : Inv { s with events := es, feeding := f, moves := ms } :=
  ⟨h.withAgents es s.active f ms, h.at_rest⟩

theorem Inv.withMoves {s : State} (h : Inv s) (ms : List Move) : Inv { s with moves := ms } :=
  h.withOutputs s.events s.feeding ms

theorem Inv.withFeeding {s : State} (h : Inv s) (f : Option FeedProgress) :
    Inv { s with feeding := f } :=
  h.withOutputs s.events f s.moves

theorem Inv.emit {s : State} (h : Inv s) (e : Event) : Inv (s.emit e) :=
  h.withOutputs (e :: s.events) s.feeding s.moves

theorem Inv.ret {s : State} (h : Inv s) (i : Instr) (r : Result) : Inv (s.ret i r) := h.emit _

/-! ### The passes of the consumer (R126, R127) -/

theorem finishConsumer_eq (s : State) (why : DrainEnd) :
    ∃ es op, finishConsumer s why = { s with events := es, active := op } := by
  unfold finishConsumer
  split <;> exact ⟨_, _, rfl⟩

theorem closeConsumer_eq (s : State) : ∃ es op, closeConsumer s = { s with events := es, active := op } := by
  unfold closeConsumer
  split <;> exact ⟨_, _, rfl⟩

theorem countPacket_eq (s : State) : ∃ es op, countPacket s = { s with events := es, active := op } := by
  unfold countPacket
  split <;> exact ⟨_, _, rfl⟩

theorem BlockInv.finishConsumer_inv {s : State} (h : BlockInv s) (hw : s.Waits) (why : DrainEnd) :
    Inv (finishConsumer s why) := by
  obtain ⟨es, op, heq⟩ := finishConsumer_eq s why
  exact heq ▸ h.inv_of_waits hw es op

theorem BlockInv.closeConsumer_inv {s : State} (h : BlockInv s) (hw : s.Waits) : Inv (closeConsumer s) := by
  obtain ⟨es, op, heq⟩ := closeConsumer_eq s
  exact heq ▸ h.inv_of_waits hw es op

theorem BlockInv.countPacket_inv {s : State} (h : BlockInv s) (hw : s.Waits) : Inv (countPacket s) := by
  obtain ⟨es, op, heq⟩ := countPacket_eq s
  exact heq ▸ h.inv_of_waits hw es op

/-- A pass of the consumer keeps the invariant: each way it can end an operation leaves the deframer
waiting. -/
theorem Inv.consumerPass {s t : State} (h : Inv s) (hp : consumerPass s = .next t) : Inv t := by
  rcases consumerPass_cases hp with ⟨-, rfl⟩ | ⟨-, ho, rfl⟩ | ⟨-, -, hf, rfl⟩ |
    ⟨ha, ho, hf, r, m, hm, hend⟩
  · exact h
  · obtain ⟨-, -, hd, -⟩ := h.closed ho
    exact h.closeConsumer_inv (State.waits_of_idle hd)
  · exact h.finishConsumer_inv (State.waits_of_fault hf) .fault
  · obtain ⟨hb, hact, -, hcomplete, hmore, hfault, hpacket⟩ := micro_inv h.toBlockInv ho hf hm
    rcases hend with ⟨-, rfl⟩ | ⟨hr, rfl⟩ | ⟨hr, rfl⟩ | ⟨hr, rfl⟩
    · exact ⟨hb, atRestInv_of_active (hact ▸ ha)⟩
    · exact hb.countPacket_inv (State.waits_of_idle (hpacket hr))
    · have hne : m.dfState ≠ .complete := fun hd => by cases hr.symm.trans (hcomplete hd)
      exact hb.finishConsumer_inv (fun _ => ⟨hne, hmore hr⟩) .needMore
    · exact hb.finishConsumer_inv (State.waits_of_fault (hfault hr)) .fault

/-! ### The ring's operations (R100, R101, R168) -/

/-- What `fault` says depends on `fault` and `df_state` alone. -/
theorem FaultInv.congr {s t : State} (h : FaultInv s) (hf : t.fault = s.fault)
    (hd : t.dfState = s.dfState) : FaultInv t := by
  have hbit : ∀ n, t.faultBit n = s.faultBit n := fun n => by simp [State.faultBit, hf]
  constructor <;> simp only [hbit, hd]
  · exact h.no_corrupt
  · exact h.one_deframer_fault
  · exact h.aborted

/-- RB_OVERFLOW says nothing of the deframer (R182). -/
theorem FaultInv.raise_rbOverflow {s : State} (h : FaultInv s) : FaultInv (s.raise .rbOverflow) := by
  have hbit : ∀ n, n < 4 → n ≠ 1 → (s.raise .rbOverflow).faultBit n = s.faultBit n := fun n hn hne => by
    simp [State.raise_faultBit s .rbOverflow n hn, FaultCode.bit, hne]
  constructor <;> simp only [hbit 0 (by omega) (by omega), hbit 2 (by omega) (by omega),
    hbit 3 (by omega) (by omega), State.raise_dfState]
  · exact h.no_corrupt
  · exact h.one_deframer_fault
  · exact h.aborted

/-- On an open link the ring and `fault` may change by what is said of them alone. -/
theorem BlockInv.withRing {s t : State} (h : BlockInv s) (ho : s.lkOpen = true) (hr : RingInv t)
    (hf : FaultInv t)
    (ht : t = { s with rbMem := t.rbMem, rbWr := t.rbWr, rbRd := t.rbRd, fault := t.fault }) :
    BlockInv t := by
  rw [ht] at hr hf ⊢
  exact
    { cfg := h.cfg
      ring := hr
      deframer :=
        { phase := ⟨h.deframer.phase.idle, h.deframer.phase.header, h.deframer.phase.content,
            h.deframer.phase.complete⟩
          pkt_wf := h.deframer.pkt_wf
          pkt_below := h.deframer.pkt_below
          written := h.deframer.written
          type_byte := h.deframer.type_byte }
      faults := hf
      closed := fun hc => by simp [ho] at hc }

theorem Inv.pushByte {s : State} (h : Inv s) (b : Byte) : Inv (pushByte b s).2 := by
  rcases pushByte_cases b s with ⟨-, heq⟩ | ⟨-, hc, -⟩ | ⟨ho, -, -, heq⟩ | ⟨ho, -, hfull, heq⟩
  · rw [heq]
    exact h
  · exact absurd hc (by simp [h.idx])
  · rw [heq]
    exact ⟨h.withRing ho (h.ring.congr rfl rfl rfl rfl) h.faults.raise_rbOverflow rfl,
      fun _ => State.waits_of_fault (s.raise_fault_ne _)⟩
  · rw [heq]
    exact ⟨h.withRing ho (h.ring.push b hfull).1 (h.faults.congr rfl rfl) rfl, h.at_rest⟩

theorem Inv.advance {s : State} (h : Inv s) (ho : s.lkOpen = true) {n : Nat} (hn : n ≤ s.avail) :
    Inv (s.advance n) :=
  ⟨h.withRing ho (h.ring.pop (t := s.advance n) n hn rfl rfl rfl rfl).1 (h.faults.congr rfl rfl) rfl,
    h.at_rest⟩

theorem Inv.execPush {s t : State} {b : Byte} (h : Inv s) (hx : execPush b s = .next t) : Inv t := by
  cases hx
  exact (h.pushByte b).ret _ _

theorem Inv.feedPass {s t : State} (h : Inv s) (hx : feedPass s = .next t) : Inv t := by
  unfold Machine.feedPass at hx
  split at hx
  · cases hx
    exact h
  · cases hx
    exact ((h.withFeeding none).emit _).emit _
  · cases hx
    exact ((h.pushByte _).withFeeding _).ret _ _

/-- `POP_N` under the invariant, with the bytes the ring holds (R101). -/
theorem execPopN_eq {s : State} {q : List Byte} (h : RingInv s) (ho : s.lkOpen = true)
    (hq : ringContents s = .ok q) (max : Half) :
    execPopN max s = .next ((s.advance (min max.toNat s.avail)).ret (.popN max)
      (.popped (q.take max.toNat).length (q.take max.toNat))) := by
  simp [execPopN, ho, popBytes_eq h hq]

theorem Inv.execPopN_answers {s : State} (h : Inv s) (max : Half) :
    ∃ t, execPopN max s = .next t ∧ Inv t := by
  cases ho : s.lkOpen with
  | false => exact ⟨_, by simp [execPopN, ho], h.ret (.popN max) .closed⟩
  | true =>
    obtain ⟨q, hq⟩ := h.ring.ringContents_total
    exact ⟨_, execPopN_eq h.ring ho hq max, (h.advance ho (Nat.min_le_right _ _)).ret _ _⟩

/-! ### The resets (R165 to R167) -/

/-- An empty, idle block without a fault, its memories in form: what every reset leaves. -/
theorem inv_of_cleared {s : State} (hcfg : s.cfg.wf = true) (hwr : s.rbWr = 0) (hrd : s.rbRd = 0)
    (hd : s.dfState = .idle) (hn : s.dfNeeded = 0) (hcol : s.dfCollected = 0) (hf : s.fault = 0)
    (hmem : memWf s.rbMem = true ∧ memBelow s.rbMem s.slots = true)
    (hpkt : memWf s.pkt = true ∧ memBelow s.pkt s.cfg.pktMax = true) : Inv s where
  cfg := hcfg
  ring :=
    { wr_lt := hwr ▸ s.slots_pos
      rd_lt := hrd ▸ s.slots_pos
      mem_wf := hmem.1
      mem_below := hmem.2
      window := by simp [State.avail, hwr, hrd] }
  deframer :=
    { phase := by constructor <;> simp [hd, hn, hcol]
      pkt_wf := hpkt.1
      pkt_below := hpkt.2
      written := by simp [State.pktLen, hd]
      type_byte := fun hne => absurd hd hne }
  faults := FaultInv.of_zero hf
  closed := fun _ => ⟨hwr, hrd, hd, hn, hcol, hf⟩
  at_rest := fun _ => State.waits_of_idle hd

theorem Inv.execResetLink {s t : State} (h : Inv s) (hx : execResetLink s = .next t) : Inv t := by
  unfold Machine.execResetLink at hx
  split at hx <;> cases hx
  · exact h.ret _ _
  · exact inv_of_cleared h.cfg rfl rfl rfl rfl rfl rfl ⟨h.ring.mem_wf, h.ring.mem_below⟩
      ⟨h.deframer.pkt_wf, h.deframer.pkt_below⟩

theorem Inv.execExit {s t : State} (h : Inv s) (hx : execExit s = .next t) : Inv t := by
  unfold Machine.execExit at hx
  split at hx <;> cases hx
  · exact h.ret _ _
  · exact inv_of_cleared h.cfg rfl rfl rfl rfl rfl rfl ⟨h.ring.mem_wf, h.ring.mem_below⟩
      ⟨h.deframer.pkt_wf, h.deframer.pkt_below⟩

theorem openedConfig_wf {s : State} (h : s.cfg.wf = true) (c : Config) : (openedConfig c s).wf = true := by
  unfold openedConfig
  split
  · simp_all
  · exact h

theorem Inv.linkOpen {s : State} (h : Inv s) (c : Config) : Inv (linkOpen c s) :=
  inv_of_cleared (openedConfig_wf h.cfg c) rfl rfl rfl rfl rfl rfl ⟨rfl, rfl⟩ ⟨rfl, rfl⟩

/-! ### The step -/

/-- Settles O12: each transition a step can be keeps the invariant. -/
theorem stepKeepsInvariant : Obligations.StepKeepsInvariant := by
  intro s t h hstep
  obtain ⟨ms, hcase⟩ := step_cases hstep
  have hms := h.withMoves ms
  rcases hcase with hx | hx | ⟨op, ha, hx⟩ | ⟨bytes, -, hx⟩ | ⟨w, -, hword⟩ | ⟨c, -, rfl⟩ | rfl
  · exact hms.consumerPass hx
  · exact hms.feedPass hx
  · exact (hms.begin ha op).consumerPass hx
  · exact (hms.withFeeding _).feedPass hx
  · rcases hword with ⟨b, hx⟩ | ⟨n, hx⟩ | ⟨o, hx⟩ | ⟨-, hx⟩ | ⟨-, hx⟩ | rfl
    · exact hms.execPush hx
    · obtain ⟨u, hu, hinv⟩ := hms.execPopN_answers n
      cases hu.symm.trans hx
      exact hinv
    · cases hx
      exact hms.ret _ _
    · exact hms.execResetLink hx
    · exact hms.execExit hx
    · exact hms.emit _
  · exact hms.linkOpen c
  · exact hms

/-! ### Every step answers -/

/-- A transition ends in a next state. -/
def Answers (o : Outcome) : Prop := ∃ t, o = .next t

theorem Answers.next (t : State) : Answers (.next t) := ⟨t, rfl⟩

theorem BlockInv.consumerPass_answers {s : State} (h : BlockInv s) : Answers (consumerPass s) := by
  unfold consumerPass
  obtain ⟨r, m, hm⟩ := micro_total h
  rw [hm]
  split
  · exact .next _
  · split
    · exact .next _
    · split
      · exact .next _
      · cases r <;> exact .next _

theorem feedPass_answers (s : State) : Answers (feedPass s) := by
  unfold feedPass
  split <;> exact .next _

theorem BlockInv.contextPass_answers {s : State} (h : BlockInv s) (c : Context) :
    Answers (contextPass c s) := by
  cases c with
  | producer => exact feedPass_answers s
  | consumer => exact h.consumerPass_answers

/-- `STEP` and `DRAIN` answer where the consumer is free. -/
theorem Inv.beginConsumer_answers {s : State} (h : Inv s) (ha : s.active = .idle) (op : ConsumerOp) :
    Answers (beginConsumer op s) := by
  rw [beginConsumer_of_idle op ha]
  exact (h.begin ha op).consumerPass_answers

theorem execFrame_answers (k : Kind) (raw : List Byte) (s : State) : Answers (execFrame k raw s) := by
  unfold execFrame
  split <;> exact .next _

/-- Every instruction has a meaning where the consumer is free, if it is the consumer's. -/
theorem Inv.exec_answers {s : State} (h : Inv s) (i : Instr)
    (hfree : issuer i = some .consumer → s.busy .consumer = false) : Answers (exec i s) := by
  have ha : issuer i = some .consumer → s.active = .idle := fun hi => by
    simpa [State.busy] using hfree hi
  cases i with
  | push b => exact .next _
  | popN max =>
    obtain ⟨t, ht, -⟩ := h.execPopN_answers max
    exact ⟨t, ht⟩
  | step => exact h.beginConsumer_answers (ha rfl) .step
  | drain => exact h.beginConsumer_answers (ha rfl) (.drain 0)
  | classify o => exact .next _
  | resetLink =>
    simp only [exec, Machine.execResetLink]
    split <;> exact .next _
  | exit =>
    simp only [exec, Machine.execExit]
    split <;> exact .next _
  | h4Command o p => exact execFrame_answers .command (serCommand o p) s
  | h4Acl f p => exact execFrame_answers .acl (serAcl f p) s
  | h4Sco f p => exact execFrame_answers .sco (serSco f p) s
  | h4Event e p => exact execFrame_answers .event (serEvent e p) s

/-- A move that need not wait finds the context it needs free. -/
theorem Move.free_of_waitsFor {s : State} {m : Move} (h : m.waitsFor s = none) {c : Context}
    (hn : m.needs s = some c) : s.busy c = false := by
  cases hb : s.busy c with
  | false => rfl
  | true => cases h.symm.trans (Move.waitsFor_of_busy hn hb)

/-- A move that need not wait answers. -/
theorem Inv.perform_answers {s : State} (h : Inv s) (m : Move) (hw : m.waitsFor s = none)
    (ms : List Move) : Answers (perform m { s with moves := ms }) := by
  have hms := h.withMoves ms
  cases m with
  | issue w =>
    simp only [perform, issueWord]
    cases hd : decodeOp w with
    | error e => exact .next _
    | ok i =>
      exact hms.exec_answers i fun hi => Move.free_of_waitsFor hw ((Move.needs_issue hd).trans hi)
  | feed bytes => exact feedPass_answers _
  | onIndata => exact hms.exec_answers .drain fun _ => Move.free_of_waitsFor hw rfl
  | linkOpen c => exact .next _
  | turn c => exact hms.contextPass_answers c
  | await => exact .next _

theorem BlockInv.goOn_answers {s : State} (h : BlockInv s) : Answers (goOn s) := by
  unfold goOn
  split
  · exact h.contextPass_answers .consumer
  · exact h.contextPass_answers .producer

/-- Settles O13: a step is a pass, or a move that finds its context free, and each answers. -/
theorem stepAlwaysAnswers : Obligations.StepAlwaysAnswers := by
  intro s h
  show Answers (step s)
  unfold step runNext
  split
  · exact h.goOn_answers
  · split
    · exact h.contextPass_answers _
    · exact h.perform_answers _ ‹_› _

/-! ### The bounds (R132) -/

/-- A content length is read from at most two bytes (R78). -/
theorem readContentLength_lt {k : Kind} {m : List Host.Cell} {len : Nat}
    (h : readContentLength k m = .ok len) : len < 65536 := by
  unfold readContentLength at h
  split at h
  · cases h
  · rename_i bytes hread
    cases h
    have hlen : bytes.length ≤ 2 := by
      rw [(readPkt_ok hread).1]
      cases k <;> decide
    calc leNat bytes < 256 ^ bytes.length := leNat_lt bytes
      _ ≤ 256 ^ 2 := Nat.pow_le_pow_right (by omega) hlen

/-- In each of the deframer's states, what the phase says of the counters bounds them and `pkt_len`. -/
theorem BlockInv.counters_fit {s : State} (h : BlockInv s) :
    s.dfNeeded < 65536 ∧ s.dfCollected ≤ s.dfNeeded ∧ s.pktLen ≤ s.cfg.pktMax := by
  have hmax := config_wf_pktMax h.cfg
  have hsize := preambleSize_bounds s.dfKind
  cases hd : s.dfState with
  | idle =>
    have hph := h.deframer.phase.idle hd
    simp only [State.pktLen, hd]
    omega
  | header =>
    have hph := h.deframer.phase.header hd
    simp only [State.pktLen, hd]
    omega
  | content =>
    obtain ⟨hlen, hcol, hfit⟩ := h.deframer.phase.content hd
    have hlt := readContentLength_lt hlen
    simp only [State.pktLen, hd, frameLength] at hfit ⊢
    omega
  | complete =>
    obtain ⟨hlen, hcol, hfit⟩ := h.deframer.phase.complete hd
    have hlt := readContentLength_lt hlen
    simp only [State.pktLen, hd, frameLength] at hfit ⊢
    omega

/-- Settles O15: the bounds of the phase, and the ring's. -/
theorem countersFit : Obligations.CountersFit := by
  intro s h
  obtain ⟨hneeded, hcollected, hlen⟩ := h.counters_fit
  exact ⟨hneeded, hcollected, hlen, Nat.le_of_lt_succ h.ring.wr_lt, Nat.le_of_lt_succ h.ring.rd_lt⟩

end Sys2Proof.Machine
end

section
/-! SUPPORT. PUSH, POP_N and the resets on the queue of the ring's bytes: O20. -/

namespace Sys2Proof.Machine

/-- `PUSH` on an open ring with room appends the byte (R100). -/
theorem execPush_of_room {s : State} (b : Byte) (h : RingInv s) (ho : s.lkOpen = true)
    (hf : s.isFull = false) : execPush b s = .next ((s.append b).ret (.push b) .ok) := by
  simp [execPush, pushByte, ho, State.idxCorrupt_false h.wr_lt h.rd_lt, hf]

/-- `PUSH` on an open full ring raises RB_OVERFLOW and drops the byte (R100, R182). -/
theorem execPush_of_full {s : State} (b : Byte) (h : RingInv s) (ho : s.lkOpen = true)
    (hf : s.isFull = true) : execPush b s = .next ((s.raise .rbOverflow).ret (.push b) .full) := by
  simp [execPush, pushByte, ho, State.idxCorrupt_false h.wr_lt h.rd_lt, hf]

theorem execResetLink_of_open {s : State} (ho : s.lkOpen = true) :
    execResetLink s = .next (s.clearLink.ret .resetLink .done) := by
  simp [execResetLink, ho]

theorem execExit_of_open {s : State} (ho : s.lkOpen = true) :
    execExit s = .next ({ s.clearLink with lkOpen := false }.ret .exit .done) := by
  simp [execExit, ho]

/-- Settles O20: on the queue, PUSH appends or is refused, POP_N takes a front part, and the resets
leave an empty window. -/
theorem ringIsAQueue : Obligations.RingIsAQueue := by
  intro s q h ho hq
  have hl : q.length = s.avail := (ringContents_ok_iff.mp hq).1
  refine ⟨hl, ?room, ?full, ?pop, ?reset, ?exit⟩
  case room =>
    intro b hlt
    have hf : s.isFull = false := by
      rw [← Bool.not_eq_true, h.isFull_iff]
      omega
    exact ⟨_, execPush_of_room b h ho hf, rfl, ringContents_append b h hf hq⟩
  case full =>
    intro b heq
    have hf : s.isFull = true := h.isFull_iff.mpr (by omega)
    exact ⟨_, execPush_of_full b h ho hf, rfl, hq⟩
  case pop =>
    intro max
    refine ⟨_, execPopN_eq h ho hq max, by simp [State.advance], ?_⟩
    have hdrop : q.drop (min max.toNat s.avail) = q.drop max.toNat := by
      rcases Nat.le_total max.toNat s.avail with hle | hle
      · rw [Nat.min_eq_left hle]
      · rw [Nat.min_eq_right hle, List.drop_of_length_le (by omega), List.drop_of_length_le (by omega)]
    exact hdrop ▸ ringContents_advance h hq (Nat.min_le_right _ _)
  case reset => exact ⟨_, execResetLink_of_open ho, ringContents_of_empty s.clearLink_avail⟩
  case exit => exact ⟨_, execExit_of_open ho, ringContents_of_empty s.clearLink_avail⟩

end Sys2Proof.Machine
end

section
/-! SUPPORT. What a step can do to the registers and the outputs, said once, and what follows for the
deframer's states, `fault`, the link, the memories and the outputs: O34, O38, O40, O41, O42. -/

namespace Sys2Proof.Machine

/-! ### The words of the resets (R89) -/

theorem decodeNullary_ok {w : OpWord} {i j : Instr} (h : decodeNullary w i = .ok j) :
    i = j ∧ argField w = 0 := by
  unfold decodeNullary at h
  split at h <;> cases h
  exact ⟨rfl, ‹_›⟩

/-- A word is `op` and `arg` (R88). -/
theorem opWord_of_fields {w : OpWord} {op : BitVec 3} {a : Half} (hop : (opField w).toNat = op.toNat)
    (ha : argField w = a) : opWord op a = w := by
  rw [← BitVec.eq_of_toNat_eq hop, ← ha, opWord_fields]

theorem encode_of_decodeNullary (op : BitVec 3) {w : OpWord} {i j : Instr} (h : decodeNullary w j = .ok i)
    (hop : (opField w).toNat = op.toNat) (hj : encode j = .word (opWord op 0)) : encode i = .word w := by
  obtain ⟨rfl, harg⟩ := decodeNullary_ok h
  rw [hj, opWord_of_fields hop harg]

/-- A word that decodes is the code of its operation (R89). -/
theorem encode_of_decodeOp {w : OpWord} {i : Instr} (h : decodeOp w = .ok i) : encode i = .word w := by
  unfold decodeOp at h
  split at h
  next hop =>
    split at h <;> cases h
    exact congrArg Code.word (opWord_of_fields hop (setWidth_lowByte _ ‹_›).symm)
  next hop =>
    cases h
    exact congrArg Code.word (opWord_of_fields hop rfl)
  next hop => exact encode_of_decodeNullary 2 h hop rfl
  next hop => exact encode_of_decodeNullary 3 h hop rfl
  next hop =>
    cases h
    exact congrArg Code.word (opWord_of_fields hop rfl)
  next hop => exact encode_of_decodeNullary 5 h hop rfl
  next hop => exact encode_of_decodeNullary 6 h hop rfl
  next => cases h

theorem word_of_decodeOp_resetLink {w : OpWord} (h : decodeOp w = .ok .resetLink) : w = 0x50000#19 :=
  (Code.word.inj (encode_of_decodeOp h)).symm

theorem word_of_decodeOp_exit {w : OpWord} (h : decodeOp w = .ok .exit) : w = 0x60000#19 :=
  (Code.word.inj (encode_of_decodeOp h)).symm

/-! ### What a step can do -/

/-- A transition that is no consumer's pass and no reset: the configuration, the deframer's state,
`bad_type` and the link stay; `fault` at most gains a bit, `rb_mem` at most the byte at `rb_wr` of an open
ring with room; nothing is delivered. -/
structure Quiet (s t : State) : Prop where
  cfg : t.cfg = s.cfg
  df_state : t.dfState = s.dfState
  bad_type : t.badType = s.badType
  lk_open : t.lkOpen = s.lkOpen
  fault : t.fault = s.fault ∨ ∃ f, t.fault = withFaultBit s.fault f
  rb_mem : t.rbMem = s.rbMem ∨
    (s.isFull = false ∧ s.lkOpen = true ∧ ∃ b, t.rbMem = memWrite s.rbMem s.rbWr b)
  events : ∃ new, t.events = new ++ s.events ∧ new.length ≤ 2 ∧ ∀ p, Event.deliver p ∉ new

/-- All that a step can do to the block: a pass of the consumer, whose operation may have been begun by
the step, a quiet transition, or one of the three resets, each the move made (R9, R165 to R167). -/
inductive StepEffect (s : State) : State → Prop where
  | pass {t : State} (op : ConsumerOp) (ms : List Move)
      (h : consumerPass { s with active := op, moves := ms } = .next t) : StepEffect s t
  | quiet {t : State} (h : Quiet s t) : StepEffect s t
  | resetLink (ms : List Move) (h : s.moves = .issue 0x50000#19 :: ms) :
      StepEffect s (({ s with moves := ms } : State).clearLink.ret .resetLink .done)
  | exit (ms : List Move) (h : s.moves = .issue 0x60000#19 :: ms) :
      StepEffect s ({ ({ s with moves := ms } : State).clearLink with lkOpen := false }.ret .exit .done)
  | linkOpen (c : Config) (ms : List Move) (h : s.moves = .linkOpen c :: ms) :
      StepEffect s (linkOpen c { s with moves := ms })

theorem Quiet.of_frame {s t : State}
    (heq : t = { s with rbMem := t.rbMem, rbWr := t.rbWr, rbRd := t.rbRd, fault := t.fault,
                        events := t.events, feeding := t.feeding, moves := t.moves })
    (hfault : t.fault = s.fault ∨ ∃ f, t.fault = withFaultBit s.fault f)
    (hmem : t.rbMem = s.rbMem ∨
      (s.isFull = false ∧ s.lkOpen = true ∧ ∃ b, t.rbMem = memWrite s.rbMem s.rbWr b))
    (hevents : ∃ new, t.events = new ++ s.events ∧ new.length ≤ 2 ∧ ∀ p, Event.deliver p ∉ new) :
    Quiet s t where
  cfg := by rw [heq]
  df_state := by rw [heq]
  bad_type := by rw [heq]
  lk_open := by rw [heq]
  fault := hfault
  rb_mem := hmem
  events := hevents

theorem quiet_feedPass {s t : State} {f : Option FeedProgress} {ms : List Move}
    (h : feedPass { s with moves := ms, feeding := f } = .next t) : Quiet s t := by
  obtain ⟨heq, hfault, hmem, hevents⟩ := feedPass_frame h
  exact .of_frame (by rw [heq]) (hfault.imp_right fun ⟨f, hf, _⟩ => ⟨f, hf⟩) hmem hevents

theorem quiet_execPush {s t : State} {b : Byte} {ms : List Move}
    (h : execPush b { s with moves := ms } = .next t) : Quiet s t := by
  obtain ⟨heq, hfault, hmem, hevents⟩ := execPush_frame h
  exact .of_frame (by rw [heq]) (hfault.imp_right fun ⟨f, hf, _⟩ => ⟨f, hf⟩) hmem hevents

theorem quiet_execPopN {s t : State} {n : Half} {ms : List Move}
    (h : execPopN n { s with moves := ms } = .next t) : Quiet s t := by
  obtain ⟨heq, hfault, hevents⟩ := execPopN_frame h
  exact .of_frame (by rw [heq]) (hfault.imp_right fun hf => ⟨_, hf⟩) (.inl (by rw [heq])) hevents

/-- One output that is no packet, and the move used up. -/
theorem quiet_emit (s : State) (ms : List Move) {e : Event} (he : ∀ p, Event.deliver p ≠ e) :
    Quiet s (({ s with moves := ms } : State).emit e) :=
  .of_frame rfl (.inl rfl) (.inl rfl) ⟨[e], rfl, by simp, fun p => by simpa using he p⟩

theorem quiet_withMoves (s : State) (ms : List Move) : Quiet s { s with moves := ms } :=
  .of_frame rfl (.inl rfl) (.inl rfl) ⟨[], rfl, by simp, by simp⟩

/-- Every step has one of these effects. -/
theorem step_effect {s t : State} (h : step s = .next t) : StepEffect s t := by
  obtain ⟨ms, hx | hx | ⟨op, -, hx⟩ | ⟨bytes, -, hx⟩ | ⟨w, hm, hword⟩ | ⟨c, hm, rfl⟩ | rfl⟩ := step_cases h
  · exact .pass s.active ms hx
  · exact .quiet (quiet_feedPass (f := s.feeding) hx)
  · exact .pass op ms hx
  · exact .quiet (quiet_feedPass hx)
  · rcases hword with ⟨b, hx⟩ | ⟨n, hx⟩ | ⟨o, hx⟩ | ⟨hd, hx⟩ | ⟨hd, hx⟩ | rfl
    · exact .quiet (quiet_execPush hx)
    · exact .quiet (quiet_execPopN hx)
    · cases hx
      exact .quiet (quiet_emit s ms (by simp))
    · cases word_of_decodeOp_resetLink hd
      unfold execResetLink at hx
      split at hx <;> cases hx
      · exact .quiet (quiet_emit s ms (by simp))
      · exact .resetLink ms hm
    · cases word_of_decodeOp_exit hd
      unfold execExit at hx
      split at hx <;> cases hx
      · exact .quiet (quiet_emit s ms (by simp))
      · exact .exit ms hm
    · exact .quiet (quiet_emit s ms (by simp))
  · exact .linkOpen c ms hm
  · exact .quiet (quiet_withMoves s ms)

/-! ### Bits of `fault` -/

theorem State.exists_faultBit {s : State} (h : s.fault ≠ 0) : ∃ n, s.faultBit n = true := by
  by_contra hno
  refine h (BitVec.eq_of_getLsbD_eq fun i _ => ?_)
  simpa [State.faultBit] using not_exists.mp hno i

/-- A bit once set stays set under a quiet transition (R189). -/
theorem Quiet.faultBit {s t : State} (h : Quiet s t) {n : Nat} (hn : s.faultBit n = true) :
    t.faultBit n = true := by
  rcases h.fault with hf | ⟨f, hf⟩
  · exact (congrArg (BitVec.getLsbD · n) hf).trans hn
  · exact (congrArg (BitVec.getLsbD · n) hf).trans (State.faultBit_raise hn)

/-- A transition that keeps every set bit of `fault` does not clear it. -/
theorem fault_ne_of_faultBits {s t : State} (h : ∀ n, s.faultBit n = true → t.faultBit n = true)
    (hf : s.fault ≠ 0) : t.fault ≠ 0 := by
  obtain ⟨n, hn⟩ := State.exists_faultBit hf
  intro ht
  have hset := h n hn
  simp [State.faultBit, ht] at hset

/-! ### Deliveries -/

theorem deliveries_append (new old : List Event) :
    deliveries (new ++ old) = deliveries old ++ deliveries new := by
  simp [deliveries]

/-! ### The statements -/

/-- Settles O34: a pass takes one of the edges, a quiet transition none, and a reset leads to `Idle`. -/
theorem stateEdges : Obligations.StateEdges := by
  intro s t hstep hne
  cases step_effect hstep with
  | pass op ms hp =>
    obtain ⟨-, -, -, -, -, -, hedge, hopen, -, -, -, new, hev, -, hdel⟩ := consumerPass_frame hp
    obtain ⟨ho, hf⟩ := hopen hne
    refine .inl ⟨ho, hf, ?_⟩
    rcases hedge with h | h | h | h | h | ⟨hs, ht, p, more, hmore⟩
    · exact absurd h hne
    · exact .inl h
    · exact .inr (.inl h)
    · exact .inr (.inr (.inl h))
    · exact .inr (.inr (.inr (.inl h)))
    · refine .inr (.inr (.inr (.inr ⟨hs, ht, ?_⟩)))
      have hnew : new = more ++ [.deliver p] := by
        have happ : new ++ s.events = (more ++ [.deliver p]) ++ s.events := by
          rw [← hev, hmore]
          simp
        exact List.append_cancel_right happ
      rcases hdel with hnone | ⟨raw, hraw, -⟩
      · exact absurd (by simp [hnew]) (hnone p)
      · rw [hev]
        rcases hraw with rfl | ⟨i, r, rfl⟩ <;> exact ⟨_, deliveries_append _ _⟩
  | quiet hq => exact absurd hq.df_state hne
  | resetLink ms hm => exact .inr ⟨rfl, rfl, ms, .inl hm⟩
  | exit ms hm => exact .inr ⟨rfl, rfl, ms, .inr (.inl hm)⟩
  | linkOpen c ms hm => exact .inr ⟨rfl, rfl, ms, .inr (.inr ⟨c, hm⟩)⟩

/-- Settles O38: passes and quiet transitions keep every set bit, so only the resets clear. -/
theorem faultBitsAreSticky : Obligations.FaultBitsAreSticky := by
  intro s t hstep
  cases step_effect hstep with
  | pass op ms hp =>
    obtain ⟨-, -, -, -, -, -, -, -, hbits, hbad, -⟩ := consumerPass_frame hp
    exact ⟨fun n hn => .inl (hbits n hn), fun hf ht => absurd ht (fault_ne_of_faultBits hbits hf),
      fun hne => hbad.resolve_left hne⟩
  | quiet hq =>
    exact ⟨fun n hn => .inl (hq.faultBit hn),
      fun hf ht => absurd ht (fault_ne_of_faultBits (fun _ => hq.faultBit) hf),
      fun hne => absurd hq.bad_type hne⟩
  | resetLink ms hm => exact ⟨fun _ _ => .inr rfl, fun _ _ => ⟨ms, .inl hm⟩, fun hne => absurd rfl hne⟩
  | exit ms hm => exact ⟨fun _ _ => .inr rfl, fun _ _ => ⟨ms, .inr (.inl hm)⟩, fun hne => absurd rfl hne⟩
  | linkOpen c ms hm =>
    exact ⟨fun _ _ => .inr rfl, fun _ _ => ⟨ms, .inr (.inr ⟨c, hm⟩)⟩, fun hne => absurd rfl hne⟩

/-- A link-open that changes the configuration found the link closed and took the one chosen (R228). -/
theorem openedConfig_ne {s : State} {c : Config} (h : openedConfig c s ≠ s.cfg) :
    s.lkOpen = false ∧ openedConfig c s = c := by
  unfold openedConfig at h ⊢
  split at h
  next hc =>
    rw [if_pos hc]
    simp only [Bool.and_eq_true, Bool.not_eq_true'] at hc
    exact ⟨hc.1, rfl⟩
  next => exact absurd rfl h

/-- Settles O40: but for EXIT and link-open no step writes the configuration or the link. -/
theorem linkAndConfigChanges : Obligations.LinkAndConfigChanges := by
  intro s t hstep
  have hkept : t.cfg = s.cfg → t.lkOpen = s.lkOpen →
      (t.cfg ≠ s.cfg → s.lkOpen = false ∧ ∃ c rest, s.moves = .linkOpen c :: rest ∧ t.cfg = c) ∧
      (s.lkOpen = true → t.lkOpen = false → ∃ rest, s.moves = .issue 0x60000#19 :: rest) ∧
      (s.lkOpen = false → t.lkOpen = true → ∃ c rest, s.moves = .linkOpen c :: rest) := by
    intro hcfg hlk
    exact ⟨fun hne => absurd hcfg hne, fun ho hc => by simp [hlk, ho] at hc,
      fun hc ho => by simp [hlk, hc] at ho⟩
  cases step_effect hstep with
  | pass op ms hp =>
    obtain ⟨hcfg, -, -, hlk, -⟩ := consumerPass_frame hp
    exact hkept hcfg hlk
  | quiet hq => exact hkept hq.cfg hq.lk_open
  | resetLink ms hm => exact hkept rfl rfl
  | exit ms hm => exact ⟨fun hne => absurd rfl hne, fun _ _ => ⟨ms, hm⟩, fun _ ho => by simp at ho⟩
  | linkOpen c ms hm =>
    refine ⟨fun hne => ?_, fun _ hc => (by cases hc), fun _ _ => ⟨c, ms, hm⟩⟩
    obtain ⟨hclosed, hcfg⟩ := openedConfig_ne hne
    exact ⟨hclosed, c, ms, hm, hcfg⟩

/-- A byte of `rb_mem` changes at an accepted PUSH or at link-open (R61, R66). -/
theorem rbMem_change {s t : State} (hstep : step s = .next t) {a : Nat} (hw : memWf s.rbMem = true)
    (hne : memRead t.rbMem a ≠ memRead s.rbMem a) :
    (a = s.rbWr ∧ s.isFull = false ∧ s.lkOpen = true) ∨ ∃ c rest, s.moves = .linkOpen c :: rest := by
  cases step_effect hstep with
  | pass op ms hp =>
    obtain ⟨-, hmem, -⟩ := consumerPass_frame hp
    exact absurd (congrArg (memRead · a) hmem) hne
  | quiet hq =>
    rcases hq.rb_mem with hmem | ⟨hfull, ho, b, hmem⟩
    · exact absurd (congrArg (memRead · a) hmem) hne
    · refine .inl ⟨?_, hfull, ho⟩
      by_contra ha
      exact hne (by rw [hmem, memRead_memWrite _ _ _ _ hw, if_neg ha])
  | resetLink ms hm => exact absurd rfl hne
  | exit ms hm => exact absurd rfl hne
  | linkOpen c ms hm => exact .inr ⟨c, ms, hm⟩

/-- What the consumer's operations leave to the producer and the environment (R43, R66). -/
structure ProducerKept (s t : State) : Prop where
  cfg : t.cfg = s.cfg
  rb_mem : t.rbMem = s.rbMem
  rb_wr : t.rbWr = s.rbWr
  lk_open : t.lkOpen = s.lkOpen
  feeding : t.feeding = s.feeding
  moves : t.moves = s.moves

theorem ProducerKept.of_consumerPass {s t : State} (h : consumerPass s = .next t) : ProducerKept s t := by
  obtain ⟨hcfg, hmem, hwr, hlk, hfeed, hmoves, -⟩ := consumerPass_frame h
  exact ⟨hcfg, hmem, hwr, hlk, hfeed, hmoves⟩

theorem ProducerKept.of_beginConsumer {s t : State} {op : ConsumerOp} (h : beginConsumer op s = .next t) :
    ProducerKept s t := by
  unfold beginConsumer at h
  split at h
  · have hkept := of_consumerPass h
    exact ⟨hkept.cfg, hkept.rb_mem, hkept.rb_wr, hkept.lk_open, hkept.feeding, hkept.moves⟩
  · cases h

theorem ProducerKept.of_execPopN {s t : State} {max : Half} (h : execPopN max s = .next t) :
    ProducerKept s t := by
  rw [(execPopN_frame h).1]
  exact ⟨rfl, rfl, rfl, rfl, rfl, rfl⟩

/-- The consumer's operations other than the resets. -/
theorem ProducerKept.of_exec {s t : State} {i : Instr} (hi : issuer i = some .consumer)
    (hreset : i ≠ .resetLink) (hexit : i ≠ .exit) (h : exec i s = .next t) : ProducerKept s t := by
  cases i with
  | popN max => exact of_execPopN h
  | step => exact of_beginConsumer h
  | drain => exact of_beginConsumer h
  | resetLink => exact absurd rfl hreset
  | exit => exact absurd rfl hexit
  | push b | classify o | h4Command o p | h4Acl f p | h4Sco f p | h4Event e p => cases hi

/-- Settles O41: the frame of each transition of the producer and of the consumer. -/
theorem storageOwnership : Obligations.StorageOwnership := by
  intro s t
  have hkept : ProducerKept s t → t.cfg = s.cfg ∧ t.rbMem = s.rbMem ∧ t.rbWr = s.rbWr ∧
      t.lkOpen = s.lkOpen ∧ t.feeding = s.feeding ∧ t.moves = s.moves :=
    fun ⟨hcfg, hmem, hwr, hlk, hfeed, hmoves⟩ => ⟨hcfg, hmem, hwr, hlk, hfeed, hmoves⟩
  refine ⟨fun a hw hstep hne => rbMem_change hstep hw hne, fun hfeed => ?_,
    fun hp => hkept (.of_consumerPass hp), fun i hi hr he hx => hkept (.of_exec hi hr he hx)⟩
  rw [(feedPass_frame hfeed).1]
  exact ⟨rfl, rfl, rfl, rfl, rfl, rfl, rfl, rfl, rfl, rfl⟩

/-- Settles O42: a pass delivers at most the frame in `pkt`, and no other transition delivers. -/
theorem outputsOnlyGrow : Obligations.OutputsOnlyGrow := by
  intro s t hstep
  cases step_effect hstep with
  | pass op ms hpass =>
    obtain ⟨-, -, -, -, -, -, -, -, -, -, -, new, hev, hlen, hdel⟩ := consumerPass_frame hpass
    refine ⟨new, hev, hlen, ?_⟩
    rcases hdel with hnone | ⟨raw, hnew, ho, hf, hd, ht, hread⟩
    · exact fun p hp => absurd hp (hnone p)
    · intro p hp
      obtain ⟨rfl, hone⟩ : p = packetOf s.dfKind raw ∧ deliveries new = [packetOf s.dfKind raw] := by
        rcases hnew with rfl | ⟨i, r, rfl⟩
        · exact ⟨by simpa using hp, rfl⟩
        · exact ⟨by simpa using hp, rfl⟩
      exact ⟨hone, hd, ho, hf, ht, rfl, hread⟩
  | quiet hq =>
    obtain ⟨new, hev, hlen, hnone⟩ := hq.events
    exact ⟨new, hev, hlen, fun p hp => absurd hp (hnone p)⟩
  | resetLink ms hm => exact ⟨[_], rfl, by simp, fun p hp => absurd hp (by simp)⟩
  | exit ms hm => exact ⟨[_], rfl, by simp, fun p hp => absurd hp (by simp)⟩
  | linkOpen c ms hm => exact ⟨[], rfl, by simp, fun p hp => absurd hp (by simp)⟩

end Sys2Proof.Machine
end

section
/-! SUPPORT. A frame in parts, its bytes and its meaning; 16-bit fields as numbers: O6. -/

namespace Sys2Proof.Machine

/-! ### 16-bit fields (R53, R54) -/

/-- Of two bytes the first is worth 1 and the second 256 (R53). -/
theorem le16_eq_ofNat (lo hi : Byte) : le16 lo hi = BitVec.ofNat 16 (lo.toNat + 256 * hi.toNat) := by
  have hlo := lo.isLt
  have hhi := hi.isLt
  apply BitVec.eq_of_toNat_eq
  rw [le16, BitVec.toNat_append, BitVec.toNat_ofNat, Nat.shiftLeft_eq, Nat.mul_comm,
    ← Nat.two_pow_add_eq_or_of_lt hlo]
  omega

/-- Settles O6: the fields stand at the indices `headerOf` reads, and `le16` is the little-endian
value. -/
theorem headerFieldsFromBytes : Obligations.HeaderFieldsFromBytes := by
  intro raw
  simp only [headerOf, le16_eq_ofNat, and_self]

/-! ### A frame in parts (R74 to R79) -/

/-- `raw` is a whole frame of kind `k`: type byte, preamble, and as many content bytes as the preamble
announces. -/
structure FrameParts (k : Kind) (raw preamble payload : List Byte) : Prop where
  bytes : raw = k.typeByte :: (preamble ++ payload)
  preamble_length : preamble.length = preambleSize k
  payload_length : payload.length = contentLength k (k.typeByte :: preamble)

theorem FrameParts.length {k : Kind} {raw pre payload : List Byte} (h : FrameParts k raw pre payload) :
    raw.length = frameLength k payload.length := by
  simp only [h.bytes, List.length_cons, List.length_append, h.preamble_length, frameLength]
  omega

/-- The content length is announced before the content (R80). -/
theorem contentLength_append {k : Kind} {f : List Byte} (hf : f.length = 1 + preambleSize k)
    (bytes : List Byte) : contentLength k (f ++ bytes) = contentLength k f := by
  have hend := (lengthIndex_bounds k).2
  simp only [contentLength]
  rw [List.drop_append_of_le_length (by omega), List.take_append_of_le_length (by simp; omega)]

/-- Bytes that begin with a type byte and are as many as their preamble announces are a frame in
parts (R79). -/
theorem frameParts_of_front {k : Kind} {raw : List Byte} {needed : Nat}
    (htype : raw[0]? = some k.typeByte) (hneeded : contentLength k (raw.take (1 + preambleSize k)) = needed)
    (hlen : raw.length = frameLength k needed) : ∃ pre payload, FrameParts k raw pre payload := by
  cases raw with
  | nil => cases htype
  | cons t tail =>
    obtain rfl : t = k.typeByte := by simpa using htype
    rw [Nat.add_comm, List.take_succ_cons] at hneeded
    rw [List.length_cons, frameLength] at hlen
    refine ⟨tail.take (preambleSize k), tail.drop (preambleSize k), ?_, ?_, ?_⟩
    · rw [List.take_append_drop]
    · rw [List.length_take]
      omega
    · rw [List.length_drop, hneeded]
      omega

theorem leNat_lowByte_highByte {n : Nat} (h : n < 65536) :
    leNat [lowByte (BitVec.ofNat 16 n), highByte (BitVec.ofNat 16 n)] = n := by
  simp only [leNat, lowByte_ofNat, highByte_ofNat, BitVec.toNat_ofNat]
  omega

theorem leNat_ofNat {n : Nat} (h : n < 256) : leNat [BitVec.ofNat 8 n] = n := by
  simp only [leNat, BitVec.toNat_ofNat]
  omega

/-- The bytes of a well-formed frame are a frame in parts, with the instruction's operands in the
preamble (R93). -/
theorem frameParts_of_encode {i : Instr} {raw : List Byte} (hw : i.wf = true)
    (h : encode i = .frame raw) :
    ∃ k pre payload, i = frameInstr k pre payload ∧ FrameParts k raw pre payload := by
  cases i with
  | push _ | popN _ | step | drain | classify _ | resetLink | exit => cases h
  | h4Command o p =>
    cases h
    refine ⟨.command, [lowByte o, highByte o, BitVec.ofNat 8 p.length], p, ?_, rfl, rfl, ?_⟩
    · simp [frameInstr, le16_lowByte_highByte]
    · exact (leNat_ofNat (by simpa using hw)).symm
  | h4Acl f p =>
    cases h
    refine ⟨.acl, [lowByte f, highByte f, lowByte (BitVec.ofNat 16 p.length),
      highByte (BitVec.ofNat 16 p.length)], p, ?_, rfl, rfl, ?_⟩
    · simp [frameInstr, le16_lowByte_highByte]
    · exact (leNat_lowByte_highByte (by simpa using hw)).symm
  | h4Sco f p =>
    cases h
    refine ⟨.sco, [lowByte f, highByte f, BitVec.ofNat 8 p.length], p, ?_, rfl, rfl, ?_⟩
    · simp [frameInstr, le16_lowByte_highByte]
    · exact (leNat_ofNat (by simpa using hw)).symm
  | h4Event e p =>
    cases h
    refine ⟨.event, [e, BitVec.ofNat 8 p.length], p, rfl, rfl, rfl, ?_⟩
    exact (leNat_ofNat (by simpa using hw)).symm

/-- A frame in parts is the code of the instruction with its header and payload (R93, R94). -/
theorem FrameParts.encode_eq {k : Kind} {raw pre payload : List Byte} (h : FrameParts k raw pre payload) :
    encode (frameInstr k pre payload) = .frame raw := by
  obtain ⟨rfl, hpre, hlen⟩ := h
  have hbyte : ∀ c : Byte, payload.length = leNat [c] → BitVec.ofNat 8 payload.length = c := by
    intro c hc
    simp [hc, leNat]
  cases k with
  | command =>
    obtain ⟨a, b, c, rfl⟩ := List.length_eq_three.mp hpre
    simp [encode, serCommand, frameInstr, lowByte_le16, highByte_le16, hbyte c hlen, Kind.typeByte]
  | acl =>
    obtain ⟨a, b, c, d, rfl⟩ : ∃ a b c d, pre = [a, b, c, d] := by
      obtain ⟨a, pre, rfl⟩ := List.exists_cons_of_length_eq_add_one hpre
      obtain ⟨b, c, d, rfl⟩ := List.length_eq_three.mp (Nat.succ.inj hpre)
      exact ⟨a, b, c, d, rfl⟩
    have hhalf : BitVec.ofNat 16 payload.length = le16 c d := by
      rw [le16_eq_ofNat, hlen]
      rfl
    simp [encode, serAcl, frameInstr, lowByte_le16, highByte_le16, hhalf, Kind.typeByte]
  | sco =>
    obtain ⟨a, b, c, rfl⟩ := List.length_eq_three.mp hpre
    simp [encode, serSco, frameInstr, lowByte_le16, highByte_le16, hbyte c hlen, Kind.typeByte]
  | event =>
    obtain ⟨a, b, rfl⟩ := List.length_eq_two.mp hpre
    simp [encode, serEvent, frameInstr, hbyte b hlen, Kind.typeByte]

/-- Header operands stand in the preamble, so the bytes after it do not matter (R74 to R77). -/
theorem frameInstr_append {k : Kind} {pre : List Byte} (h : pre.length = preambleSize k)
    (bytes payload : List Byte) : frameInstr k (pre ++ bytes) payload = frameInstr k pre payload := by
  have hsize := preambleSize_bounds k
  have hget : ∀ n, n < 2 → (pre ++ bytes).getD n 0 = pre.getD n 0 := fun n hn =>
    List.getD_append _ _ _ _ (by omega)
  cases k <;> simp only [frameInstr, hget 0 (by omega), hget 1 (by omega)]

/-- A frame in parts decodes to the instruction with its header and payload (R80, R129). -/
theorem FrameParts.decode_eq {k : Kind} {raw pre payload : List Byte} (h : FrameParts k raw pre payload) :
    decode (.frame raw) = .ok (frameInstr k pre payload) := by
  obtain ⟨rfl, hpre, hlen⟩ := h
  have hcontent : contentLength k (k.typeByte :: (pre ++ payload)) = payload.length := by
    rw [hlen, ← List.cons_append, contentLength_append (by simp [hpre, Nat.add_comm])]
  have hrest : (pre ++ payload).drop (preambleSize k) = payload := List.drop_left' hpre
  have hlong : ¬ pre.length + payload.length < preambleSize k := by omega
  simp [decode, decodeFrame, Kind.ofTypeByte_typeByte, hlong, takeFrame, hcontent, hrest,
    frameInstr_append hpre]

/-- The meaning of a frame is the execution of its bytes (R124). -/
theorem exec_of_encode_frame {k : Kind} {pre payload raw : List Byte}
    (h : encode (frameInstr k pre payload) = .frame raw) (s : State) :
    exec (frameInstr k pre payload) s = execFrame k raw s := by
  cases k <;> cases h <;> rfl

theorem execFrame_of_enabled (s : State) (ho : s.lkOpen = true) (hf : s.fault = 0) (k : Kind)
    (raw : List Byte) : execFrame k raw s = .next (completeFrame (packetOf k raw) s) :=
  if_pos (s.enabled_iff.mpr ⟨ho, hf⟩)

end Sys2Proof.Machine
end

section
/-! SUPPORT. From an empty ring, `CAP` pushes and one more: O21. -/

namespace Sys2Proof.Machine

/-- Pushes that fit are all accepted, and change nothing but the ring and the outputs (R100, R103). -/
theorem execAll_push_of_room {s : State} {q bytes : List Byte} (h : RingInv s) (ho : s.lkOpen = true)
    (hq : ringContents s = .ok q) (hroom : q.length + bytes.length ≤ s.cfg.cap) :
    ∃ t, execAll (bytes.map .push) s = .next t ∧ RingInv t ∧ ringContents t = .ok (q ++ bytes) ∧
      t = { s with
        rbMem := t.rbMem, rbWr := t.rbWr
        events := (bytes.map fun b => Event.returned (.push b) .ok).reverse ++ s.events } := by
  induction bytes generalizing s q with
  | nil => exact ⟨s, rfl, h, by simpa using hq, rfl⟩
  | cons b bytes ih =>
    have hl := (ringContents_ok_iff.mp hq).1
    simp only [List.length_cons] at hroom
    have hfull : s.isFull = false := by
      rw [← Bool.not_eq_true, h.isFull_iff]
      omega
    have hring : RingInv ((s.append b).ret (.push b) .ok) := (h.push b hfull).1.congr rfl rfl rfl rfl
    have hq' : ringContents ((s.append b).ret (.push b) .ok) = .ok (q ++ [b]) :=
      ringContents_append b h hfull hq
    obtain ⟨t, hrun, hinv, hbytes, heq⟩ := ih hring ho hq' (by simp; omega)
    refine ⟨t, ?_, hinv, by simpa using hbytes, ?_⟩
    · simpa [execAll, exec, execPush_of_room b h ho hfull] using hrun
    · rw [heq]
      simp [State.ret, State.emit, State.append]

/-- Settles O21: `CAP` pushes have room, and after them the ring holds `CAP` bytes, that is, is full. -/
theorem capacityPushesThenFull : Obligations.CapacityPushesThenFull := by
  intro s bytes h ho hempty hlen
  obtain ⟨t, hrun, hinv, hbytes, heq⟩ :=
    execAll_push_of_room (bytes := bytes) h ho (ringContents_of_empty hempty) (by simp [hlen])
  have hopen : t.lkOpen = true := by rw [heq]; exact ho
  have hfull : t.isFull = true := by
    have hcfg : t.cfg = s.cfg := by rw [heq]
    rw [hinv.isFull_iff, ← (ringContents_ok_iff.mp hbytes).1, hcfg]
    simpa using hlen
  refine ⟨t, hrun, by rw [heq], by rw [heq], by rw [heq], hbytes, fun b => ?_⟩
  exact ⟨_, execPush_of_full b hinv hopen hfull, rfl, hbytes⟩

end Sys2Proof.Machine
end

section
/-! SUPPORT. The passes that fetch a frame and the one that executes it: O10, O32. -/

namespace Sys2Proof.Machine

/-! ### The pass at Complete (R124) -/

/-- At `Complete` the frame in `pkt` is whole: type byte, preamble, and the content it announces
(R32, R78). -/
theorem BlockInv.frameParts_of_complete {s : State} (h : BlockInv s) (hd : s.dfState = .complete) :
    ∃ raw pre payload, assembled s = .ok raw ∧ FrameParts s.dfKind raw pre payload := by
  obtain ⟨hannounced, hcol, -⟩ := h.deframer.phase.complete hd
  have hlen : s.pktLen = frameLength s.dfKind s.dfNeeded := by simp [State.pktLen, hd, hcol, frameLength]
  obtain ⟨raw, hraw⟩ : ∃ raw, assembled s = .ok raw :=
    readPkt_total (by simpa using h.deframer.written)
  obtain ⟨hrawLen, hget⟩ := readPkt_ok_iff.mp hraw
  have hfront : 1 + preambleSize s.dfKind ≤ s.pktLen := by
    rw [hlen, frameLength]
    omega
  have htype : raw[0]? = some s.dfKind.typeByte := by
    rw [← hget 0 (by omega)]
    exact h.deframer.type_byte (by simp [hd])
  have hcontent := readContentLength_of_readPkt (readPkt_slice hraw (i := 0) (by simpa using hfront))
  rw [hannounced, Except.ok.injEq] at hcontent
  obtain ⟨pre, payload, hparts⟩ := frameParts_of_front htype hcontent.symm (hrawLen.trans hlen)
  exact ⟨raw, pre, payload, hraw, hparts⟩

/-- The micro-transition at `Complete` delivers the frame in assembly (R124). -/
theorem BlockInv.microTransition_of_complete {s : State} {raw : List Byte} (h : BlockInv s)
    (hd : s.dfState = .complete) (hraw : assembled s = .ok raw) :
    microTransition s = .ok (.packetComplete, completeFrame (packetOf s.dfKind raw) s) := by
  obtain ⟨-, hcol, -⟩ := h.deframer.phase.complete hd
  have hread : readPkt s.pkt 0 (frameLength s.dfKind s.dfNeeded) = .ok raw := by
    simpa [assembled, State.pktLen, hd, hcol, frameLength] using hraw
  simp [microTransition, hd, tComplete, hread]

/-- A pass at `Complete` delivers the frame in assembly and tells the operation in progress
(R124, R126). -/
theorem BlockInv.deliver_pass {s : State} {raw : List Byte} (h : BlockInv s) (ho : s.lkOpen = true)
    (hf : s.fault = 0) (ha : s.active ≠ .idle) (hd : s.dfState = .complete) (hraw : assembled s = .ok raw) :
    consumerPass s = .next (countPacket (completeFrame (packetOf s.dfKind raw) s)) :=
  consumerPass_micro ho hf ha (h.microTransition_of_complete hd hraw)

/-- Settles O10: the frame in `pkt` is whole, its bytes are the code of the instruction it decodes to,
and both that instruction and the pass deliver the record of those bytes. -/
theorem stepExecutesAssembledFrame : Obligations.StepExecutesAssembledFrame := by
  intro s rest h hm ha hd ho hf
  obtain ⟨raw, pre, payload, hraw, hparts⟩ := h.frameParts_of_complete hd
  have hagents : BlockInv { s with moves := rest } := h.withAgents s.events s.active s.feeding rest
  refine ⟨raw, _, _, hraw, hparts.decode_eq, (exec_of_encode_frame hparts.encode_eq _).trans
    (execFrame_of_enabled { s with moves := rest } ho hf s.dfKind raw), ?_⟩
  rw [step_of_free hm (by simp [Move.needs])]
  exact hagents.deliver_pass ho hf ha hd hraw

/-! ### The passes that fetch (R121 to R123) -/

theorem microTransition_of_header {s : State} (hd : s.dfState = .header) : microTransition s = tHeader s := by
  simp [microTransition, hd]

theorem microTransition_of_content {s : State} (hd : s.dfState = .content) :
    microTransition s = tContent s := by
  simp [microTransition, hd]

/-- `s` with the `n` oldest bytes of the ring taken, `m` in `pkt`, and the deframer in state `d` of a
frame of kind `k`, with its two counters. -/
def State.fetched (s : State) (n : Nat) (m : List Host.Cell) (d : DfState) (k : Kind)
    (needed collected : Nat) : State :=
  { s.advance n with pkt := m, dfState := d, dfKind := k, dfNeeded := needed, dfCollected := collected }

/-- A consumer's operation is in progress and enabled, with the bytes `frame` in assembly and the bytes
`ring` in the ring. -/
structure Fetching (s : State) (frame ring : List Byte) : Prop where
  inv : BlockInv s
  is_open : s.lkOpen = true
  no_fault : s.fault = 0
  active : s.active ≠ .idle
  assembled : assembled s = .ok frame
  ring : ringContents s = .ok ring

section
variable {s : State} {f bytes q : List Byte}

theorem Fetching.length_le (h : Fetching s f (bytes ++ q)) : bytes.length ≤ s.avail := by
  have hl := (ringContents_ok_iff.mp h.ring).1
  rw [← hl]
  simp

/-- A micro-transition that moves bytes from the ring behind the frame in assembly is a pass of the
operation, after which the fetch goes on. -/
theorem Fetching.pass (h : Fetching s f (bytes ++ q)) {m : List Host.Cell} {d : DfState} {k : Kind}
    {needed collected : Nat}
    (hm : microTransition s = .ok (.progress, s.fetched bytes.length m d k needed collected))
    (hf : Machine.assembled (s.fetched bytes.length m d k needed collected) = .ok (f ++ bytes)) :
    consumerPass s = .next (s.fetched bytes.length m d k needed collected) ∧
      Fetching (s.fetched bytes.length m d k needed collected) (f ++ bytes) q where
  left := consumerPass_micro h.is_open h.no_fault h.active hm
  right :=
    { inv := (micro_inv h.inv h.is_open h.no_fault hm).1
      is_open := h.is_open
      no_fault := h.no_fault
      active := h.active
      assembled := hf
      ring := by
        have hring := ringContents_advance h.inv.ring h.ring h.length_le
        rwa [List.drop_left] at hring }

/-- Bytes that fit are stored behind the frame in assembly (R30). -/
theorem Fetching.stored (h : Fetching s f (bytes ++ q)) (hfit : s.pktLen + bytes.length ≤ s.cfg.pktMax) :
    ∃ m, storePkt s.cfg.pktMax s.pkt s.pktLen bytes = .ok m ∧
      readPkt m 0 (s.pktLen + bytes.length) = .ok (f ++ bytes) := by
  obtain ⟨m, hst⟩ := storePkt_total (m := s.pkt) hfit
  exact ⟨m, hst, readPkt_storePkt h.inv.deframer.pkt_wf h.assembled hst⟩

/-- What a pass pops where the ring holds as much as the phase wants (R122, R123). -/
theorem Fetching.take_want (h : Fetching s f (bytes ++ q)) (hwant : bytes.length = s.want) :
    (bytes ++ q).take s.want = bytes ∧ min s.want s.avail = bytes.length :=
  ⟨List.take_left' hwant, by rw [← hwant, Nat.min_eq_left h.length_le]⟩

/-- A pass in `Idle` fetches a type byte (R121). -/
theorem Fetching.typeByte_pass {k : Kind} (h : Fetching s [] ([k.typeByte] ++ q)) (hd : s.dfState = .idle) :
    ∃ m, consumerPass s = .next (s.fetched 1 m .header k (preambleSize k) 0) ∧
      Fetching (s.fetched 1 m .header k (preambleSize k) 0) [k.typeByte] q := by
  have hmax := config_wf_pktMax h.inv.cfg
  have hlen : s.pktLen = 0 := by simp [State.pktLen, hd]
  have hav : min 1 s.avail = 1 := Nat.min_eq_left h.length_le
  obtain ⟨m, hst, hread⟩ := h.stored (by simp [hlen]; omega)
  rw [hlen] at hst hread
  refine ⟨m, h.pass ?_ hread⟩
  simp [microTransition, hd, tIdle, withPopped_eq h.inv.ring h.ring, Kind.ofTypeByte_typeByte, hst, hav,
    State.fetched]

/-- A pass in `Header` over a ring that holds what the preamble wants completes it, where the frame it
announces fits `pkt` (R122). -/
theorem Fetching.preamble_pass {k : Kind} {needed : Nat} (h : Fetching s f (bytes ++ q))
    (hd : s.dfState = .header) (hk : s.dfKind = k) (hwant : bytes.length = s.want)
    (hneeded : contentLength k (f ++ bytes) = needed) (hfit : frameLength k needed ≤ s.cfg.pktMax) :
    ∃ m, consumerPass s = .next (s.fetched bytes.length m .content k needed 0) ∧
      Fetching (s.fetched bytes.length m .content k needed 0) (f ++ bytes) q := by
  subst hk hneeded
  obtain ⟨hneed, hcol⟩ := h.inv.deframer.phase.header hd
  have hleft : s.want = s.dfNeeded - s.dfCollected := rfl
  have hlen := State.pktLen_of_header hd
  have hdone : s.pktLen + bytes.length = 1 + preambleSize s.dfKind := by
    rw [hlen, State.preambleIndex]
    omega
  obtain ⟨m, hst, hread⟩ := h.stored (by rw [hdone]; rw [frameLength] at hfit; omega)
  obtain ⟨htake, hav⟩ := h.take_want hwant
  rw [hdone] at hread
  refine ⟨m, h.pass ?_ hread⟩
  rw [microTransition_of_header hd, tHeader_eq h.inv.ring h.ring (by rwa [htake, ← hlen]), htake,
    if_neg (by omega), hav, finishPreamble]
  simp [readContentLength_of_readPkt hread, Nat.not_lt.mpr hfit, State.advance, State.fetched]

/-- A pass in `Content` over a ring that holds what the content wants completes it (R123). -/
theorem Fetching.content_pass {k : Kind} {needed : Nat} (h : Fetching s f (bytes ++ q))
    (hd : s.dfState = .content) (hk : s.dfKind = k) (hn : s.dfNeeded = needed)
    (hwant : bytes.length = s.want) :
    ∃ m, consumerPass s = .next (s.fetched bytes.length m .complete k needed needed) ∧
      Fetching (s.fetched bytes.length m .complete k needed needed) (f ++ bytes) q := by
  subst hk hn
  obtain ⟨-, hcol, hfit⟩ := h.inv.deframer.phase.content hd
  have hleft : s.want = s.dfNeeded - s.dfCollected := rfl
  have hlen := State.pktLen_of_content hd
  have hdone : s.pktLen + bytes.length = frameLength s.dfKind s.dfNeeded := by
    rw [hlen, State.contentIndex, frameLength]
    omega
  obtain ⟨m, hst, hread⟩ := h.stored (by rwa [hdone])
  obtain ⟨htake, hav⟩ := h.take_want hwant
  have hcount : s.dfCollected + bytes.length = s.dfNeeded := by omega
  rw [hdone] at hread
  refine ⟨m, h.pass ?_ hread⟩
  rw [microTransition_of_content hd, tContent_eq h.inv.ring h.ring (by rwa [htake, ← hlen]), htake,
    if_neg (by omega), hav, hcount]
  simp [State.advance, State.fetched]

end

/-- With no move in store a step is the next pass of the consumer's operation (R9). -/
theorem step_of_active {s : State} (hm : s.moves = []) (ha : s.active ≠ .idle) : step s = consumerPass s := by
  simp [step_of_no_moves hm, goOn, s.busy_consumer_iff.mpr ha, contextPass]

/-- A run begins with the pass. -/
theorem run_of_pass (n : Nat) {s t : State} (hm : s.moves = []) (ha : s.active ≠ .idle)
    (h : consumerPass s = .next t) : Sys2Proof.core.run (n + 1) s = Sys2Proof.core.run n t :=
  run_next Sys2Proof.core n ((step_of_active hm ha).trans h)

/-- Two fetches are one. -/
theorem State.fetched_fetched (s : State) (n n' : Nat) (m m' : List Host.Cell) (d d' : DfState) (k k' : Kind)
    (needed needed' collected collected' : Nat) :
    (s.fetched n m d k needed collected).fetched n' m' d' k' needed' collected' =
      s.fetched (n + n') m' d' k' needed' collected' := by
  simp [State.fetched, State.advance, State.ringIndex, State.slots, Nat.add_assoc]

/-- Four passes of the operation in progress over a ring that begins with a frame: it is fetched and
delivered, and the ring holds what follows it (R121 to R124, R126). -/
theorem Fetching.run_frame {s : State} {k : Kind} {raw pre payload rest : List Byte}
    (h : Fetching s [] (raw ++ rest)) (hd : s.dfState = .idle) (hm : s.moves = [])
    (hparts : FrameParts k raw pre payload) (hfit : raw.length ≤ s.cfg.pktMax) :
    ∃ m, Sys2Proof.core.run 4 s =
        .next (countPacket (completeFrame (packetOf k raw)
          (s.fetched raw.length m .complete k payload.length payload.length))) ∧
      ringContents (s.fetched raw.length m .complete k payload.length payload.length) = .ok rest := by
  have hraw := hparts.length
  rw [hraw] at hfit
  obtain ⟨rfl, hpre, hlen⟩ := hparts
  obtain ⟨m₁, hpass₁, h₁⟩ := Fetching.typeByte_pass (q := pre ++ (payload ++ rest)) (by simpa using h) hd
  obtain ⟨m₂, hpass₂, h₂⟩ := h₁.preamble_pass (k := k) rfl rfl hpre hlen.symm hfit
  rw [State.fetched_fetched] at hpass₂ h₂
  obtain ⟨m₃, hpass₃, h₃⟩ := h₂.content_pass (k := k) (needed := payload.length) rfl rfl rfl rfl
  rw [State.fetched_fetched] at hpass₃ h₃
  have hall : 1 + pre.length + payload.length = (k.typeByte :: (pre ++ payload)).length := by
    rw [hraw, hpre, frameLength]
  rw [hall] at hpass₃ h₃
  refine ⟨m₃, ?_, h₃.ring⟩
  calc Sys2Proof.core.run 4 s
    _ = Sys2Proof.core.run 3 _ := run_of_pass 3 hm h.active hpass₁
    _ = Sys2Proof.core.run 2 _ := run_of_pass 2 hm h₁.active hpass₂
    _ = Sys2Proof.core.run 1 _ := run_of_pass 1 hm h₂.active hpass₃
    _ = .next _ := run_of_pass 0 hm h₃.active
        (h₃.inv.deliver_pass h₃.is_open h₃.no_fault h₃.active rfl h₃.assembled)

/-- A run depends on its first step alone, for any machine of the host's interface. -/
theorem run_congr (m : Host.Core) (n : Nat) {s t : m.State} (h : m.step s = m.step t) :
    m.run (n + 1) s = m.run (n + 1) t := by
  rw [Host.Core.run, Host.Core.run, h]

/-- A `STEP` issued to a free consumer is its passes (R126). -/
theorem run_issue_step {s : State} (ha : s.active = .idle) (n : Nat) :
    Sys2Proof.core.run (n + 1) { s with moves := [.issue 0x20000#19] } =
      Sys2Proof.core.run (n + 1) { s with moves := [], active := .step } := by
  have hword : decodeOp 0x20000#19 = .ok .step := by decide
  have hissue : step { s with moves := [.issue 0x20000#19] } =
      step { s with moves := [], active := .step } := by
    rw [step_of_free rfl (by simp [Move.needs_issue hword, State.busy, issuer, ha]),
      step_of_active rfl (by simp)]
    simp [perform, issueWord, hword, exec, execStep, beginConsumer_of_idle, ha]
  exact run_congr Sys2Proof.core n hissue

/-- Settles O32: the four passes fetch the frame into `pkt` and deliver the record of its bytes, which
is what its meaning delivers. -/
theorem stepOnAFrameIsItsMeaning : Obligations.StepOnAFrameIsItsMeaning := by
  intro s i raw rest h ha hfeed ho hf hd hw henc hfit hring
  obtain ⟨k, pre, payload, rfl, hparts⟩ := frameParts_of_encode hw henc
  have hfetch : Fetching { s with moves := [], active := .step } [] (raw ++ rest) :=
    { inv := h.withAgents s.events .step s.feeding []
      is_open := ho
      no_fault := hf
      active := by simp
      assembled := by simp [assembled, State.pktLen, hd, readPkt]
      ring := hring }
  obtain ⟨m, hrun, hrest⟩ := hfetch.run_frame hd rfl hparts hfit
  refine ⟨_, _, (run_issue_step ha 3).trans hrun,
    (exec_of_encode_frame henc _).trans (execFrame_of_enabled { s with moves := [] } ho hf k raw),
    hrest, ?_⟩
  simp [countPacket, completeFrame, State.fetched, State.advance, State.ret, State.emit, State.toIdle, ha]

end Sys2Proof.Machine
end

section
/-! SUPPORT. Codes and their meanings: operation words, whole frames, frames at the front of a stream, the
content length: O1, O2, O3, O4, O5, O7, O35. -/

namespace Sys2Proof.Machine

/-! ### Operation words (R88 to R90) -/

/-- The word of an operation decodes to it (R89). -/
theorem decodeOp_of_encode {i : Instr} {w : OpWord} (h : encode i = .word w) : decodeOp w = .ok i := by
  cases i with
  | push b => cases h; simp [decodeOp, opField_opWord, argField_opWord, highByte_setWidth, lowByte_setWidth]
  | popN max => cases h; simp [decodeOp, opField_opWord, argField_opWord]
  | classify o => cases h; simp [decodeOp, opField_opWord, argField_opWord]
  | step | drain | resetLink | exit => cases h; rfl
  | h4Command o p | h4Acl f p | h4Sco f p | h4Event e p => cases h

/-- The operands of an operation fill their fields (R89). -/
theorem wf_of_encode_word {i : Instr} {w : OpWord} (h : encode i = .word w) : i.wf = true := by
  cases i with
  | push | popN | step | drain | classify | resetLink | exit => rfl
  | h4Command | h4Acl | h4Sco | h4Event => cases h

theorem opField_toNat (w : OpWord) : (opField w).toNat = w.toNat / 65536 := by
  have hw := w.isLt
  simp only [opField, BitVec.extractLsb'_toNat, Nat.shiftRight_eq_div_pow]
  omega

theorem argField_toNat (w : OpWord) : (argField w).toNat = w.toNat % 65536 := by
  simp [argField]

theorem argField_eq_zero_iff (w : OpWord) : argField w = 0 ↔ w.toNat % 65536 = 0 := by
  rw [← argField_toNat, ← BitVec.toNat_inj]
  rfl

theorem highByte_argField_eq_zero_iff (w : OpWord) :
    highByte (argField w) = 0 ↔ w.toNat % 65536 / 256 = 0 := by
  rw [← argField_toNat, ← BitVec.toNat_inj]
  have harg := (argField w).isLt
  simp only [highByte, BitVec.extractLsb'_toNat, Nat.shiftRight_eq_div_pow, BitVec.ofNat_eq_ofNat,
    BitVec.toNat_ofNat]
  omega

theorem decodeNullary_fails_iff (w : OpWord) (i : Instr) :
    (∃ e, decodeNullary w i = .error e) ↔ w.toNat % 65536 ≠ 0 := by
  rw [Ne, ← argField_eq_zero_iff, decodeNullary]
  by_cases h : argField w = 0 <;> simp only [h, if_true, if_false] <;> simp

/-- Which words are illegal (R90). -/
theorem decodeOp_fails_iff (w : OpWord) :
    (∃ e, decodeOp w = .error e) ↔
      w.toNat / 65536 = 7 ∨ (w.toNat / 65536 = 0 ∧ w.toNat % 65536 / 256 ≠ 0) ∨
      (w.toNat / 65536 ∈ [2, 3, 5, 6] ∧ w.toNat % 65536 ≠ 0) := by
  have hop : w.toNat / 65536 < 8 := opField_toNat w ▸ (opField w).isLt
  rw [decodeOp, opField_toNat]
  split
  next h0 =>
    rw [Ne, ← highByte_argField_eq_zero_iff, h0]
    split <;> simp_all
  next h1 => simp [h1]
  next h2 => simp [decodeNullary_fails_iff, h2]
  next h3 => simp [decodeNullary_fails_iff, h3]
  next h4 => simp [h4]
  next h5 => simp [decodeNullary_fails_iff, h5]
  next h6 => simp [decodeNullary_fails_iff, h6]
  next =>
    have h7 : w.toNat / 65536 = 7 := by
      simp only [imp_false] at *
      omega
    simp [h7]

/-- An illegal word is refused and the move used up, whatever the contexts are doing (R90). -/
theorem step_of_illegal_word {s : State} {w : OpWord} {e : DecodeError} {rest : List Move}
    (hd : decodeOp w = .error e) (hm : s.moves = .issue w :: rest) :
    step s = .next { s with moves := rest, events := .illegalOp w :: s.events } := by
  rw [step_of_free hm (by simp [Move.needs, hd])]
  simp [perform, issueWord, hd, State.emit]

/-- Settles O7: the table of R89 by its operations, and the one branch of a step at an illegal word. -/
theorem illegalWordIsRefused : Obligations.IllegalWordIsRefused :=
  fun w => ⟨decodeOp_fails_iff w, fun _ _ ⟨_, hd⟩ hm => step_of_illegal_word hd hm⟩

/-! ### Reading a frame off a stream (R71, R80, R129) -/

/-- A stream that stops inside a preamble (R129). -/
theorem decodeFrame_of_short_preamble {k : Kind} {pre : List Byte} (h : pre.length < preambleSize k) :
    decodeFrame (k.typeByte :: pre) = .error (.shortPreamble k pre.length) := by
  simp [decodeFrame, Kind.ofTypeByte_typeByte, h]

/-- A stream with a whole preamble holds the frame if it holds the content announced (R80). -/
theorem decodeFrame_of_preamble {k : Kind} {pre : List Byte} (h : pre.length = preambleSize k)
    (bytes : List Byte) :
    decodeFrame (k.typeByte :: (pre ++ bytes)) =
      if bytes.length < contentLength k (k.typeByte :: pre) then
        .error (.shortContent k (contentLength k (k.typeByte :: pre)) bytes.length)
      else .ok (frameInstr k pre (bytes.take (contentLength k (k.typeByte :: pre))),
        bytes.drop (contentLength k (k.typeByte :: pre))) := by
  have hcontent : contentLength k (k.typeByte :: (pre ++ bytes)) = contentLength k (k.typeByte :: pre) := by
    rw [← List.cons_append, contentLength_append (by simp [h, Nat.add_comm])]
  have hlong : ¬ pre.length + bytes.length < preambleSize k := by omega
  simp [decodeFrame, Kind.ofTypeByte_typeByte, hlong, takeFrame, hcontent, List.drop_left' h,
    frameInstr_append h]

/-- A frame is read off the front of a stream, whatever follows it (R80). -/
theorem FrameParts.decodeFrame_append {k : Kind} {raw pre payload : List Byte}
    (h : FrameParts k raw pre payload) (rest : List Byte) :
    decodeFrame (raw ++ rest) = .ok (frameInstr k pre payload, rest) := by
  obtain ⟨rfl, hpre, hlen⟩ := h
  rw [List.cons_append, List.append_assoc, decodeFrame_of_preamble hpre, ← hlen, if_neg (by simp)]
  simp

/-- What is read off a stream is a frame at its front (R80, R82). -/
theorem frameParts_of_decodeFrame {bytes rest : List Byte} {i : Instr}
    (h : decodeFrame bytes = .ok (i, rest)) :
    ∃ k raw pre payload, FrameParts k raw pre payload ∧ i = frameInstr k pre payload ∧
      bytes = raw ++ rest := by
  cases bytes with
  | nil => cases h
  | cons t tail =>
    cases hk : Kind.ofTypeByte t with
    | none => simp [decodeFrame, hk] at h
    | some k =>
      obtain rfl := Kind.typeByte_of_ofTypeByte hk
      rcases Nat.lt_or_ge tail.length (preambleSize k) with hshort | hlong
      · rw [decodeFrame_of_short_preamble hshort] at h
        cases h
      · have hpre : (tail.take (preambleSize k)).length = preambleSize k := by simpa using hlong
        rw [← List.take_append_drop (preambleSize k) tail, decodeFrame_of_preamble hpre] at h
        split at h <;> cases h
        refine ⟨k, _, _, _, ⟨rfl, hpre, ?_⟩, rfl, ?_⟩
        · rw [List.length_take]
          omega
        · simp

/-! ### The length field (R78, R79) -/

theorem contentLength_lt (k : Kind) (frame : List Byte) : contentLength k frame < 256 ^ lengthBytes k :=
  (leNat_lt _).trans_le (Nat.pow_le_pow_right (by omega) (by simp))

/-- A payload is as long as its length field can count, so the instruction is well formed (R79). -/
theorem FrameParts.wf {k : Kind} {raw pre payload : List Byte} (h : FrameParts k raw pre payload) :
    (frameInstr k pre payload).wf = true := by
  have hlt := h.payload_length ▸ contentLength_lt k (k.typeByte :: pre)
  cases k <;> simpa [frameInstr, Instr.wf, lengthBytes] using hlt

/-- No frame is longer than the default `PKT_MAX` (R79). -/
theorem frameLength_le {k : Kind} {len : Nat} (h : len < 65536) : frameLength k len ≤ 65540 := by
  have hsize := preambleSize_bounds k
  rw [frameLength]
  omega

theorem FrameParts.length_bounds {k : Kind} {raw pre payload : List Byte} (h : FrameParts k raw pre payload) :
    3 ≤ raw.length ∧ raw.length ≤ 65540 := by
  have hsize := preambleSize_bounds k
  have hlt : payload.length < 65536 := by
    rw [h.payload_length]
    refine (contentLength_lt k _).trans_le ?_
    cases k <;> decide
  refine ⟨?_, h.length.trans_le (frameLength_le hlt)⟩
  rw [h.length, frameLength]
  omega

/-- Settles O5: the length field stands at the index R78 gives, and is one byte or two. -/
theorem contentLengthFromPreamble : Obligations.ContentLengthFromPreamble := by
  refine ⟨⟨rfl, rfl, rfl, rfl⟩, fun m => ?_⟩
  have hone : ∀ k b, lengthBytes k = 1 → memRead m (lengthIndex k) = some b →
      readContentLength k m = .ok b.toNat := by
    intro k b hk hb
    simp [readContentLength, hk, readPkt, readByte, hb, leNat]
  refine ⟨fun b => hone .command b rfl, fun lo hi hlo hhi => ?_, fun b => hone .sco b rfl,
    fun b => hone .event b rfl⟩
  simp [readContentLength, lengthIndex, lengthBytes, readPkt, readByte, hlo, hhi, leNat]

/-! ### Codes and instructions -/

/-- Settles O1: the decoders compute on the eleven codes. -/
theorem tableWordsDecode : Obligations.TableWordsDecode := by
  refine ⟨?_, ?_, ?_, ?_, ?_, ?_, ?_, ?_, ?_, ?_, ?_⟩ <;> rfl

/-- Settles O2: a word by its fields, a frame by its parts. -/
theorem encodeThenDecode : Obligations.EncodeThenDecode := by
  intro i hw
  cases hcode : encode i with
  | word w => exact decodeOp_of_encode hcode
  | frame raw =>
    obtain ⟨k, pre, payload, rfl, hparts⟩ := frameParts_of_encode hw hcode
    exact hparts.decode_eq

/-- Settles O3: a word that decodes is its fields; a frame that decodes is its parts, with nothing
after them. -/
theorem decodeThenEncode : Obligations.DecodeThenEncode := by
  intro c i h
  cases c with
  | word w =>
    have hcode := encode_of_decodeOp h
    exact ⟨wf_of_encode_word hcode, hcode⟩
  | frame bytes =>
    rw [decode] at h
    split at h <;> cases h
    next hd =>
      obtain ⟨k, raw, pre, payload, hparts, rfl, rfl⟩ := frameParts_of_decodeFrame hd
      exact ⟨hparts.wf, by rw [hparts.encode_eq, List.append_nil]⟩

/-! ### The record of a frame (R94) -/

/-- A frame's record is the one read off its bytes (R93, R94). -/
theorem frameRecord_of_encode {k : Kind} {pre payload raw : List Byte}
    (h : encode (frameInstr k pre payload) = .frame raw) :
    frameRecord (frameInstr k pre payload) = some (packetOf k raw) := by
  cases k <;> cases h <;>
    simp [frameInstr, frameRecord, packetOf, headerOf, serCommand, serAcl, serSco, serEvent,
      le16_lowByte_highByte, preambleSize]

theorem FrameParts.packet_payload {k : Kind} {raw pre payload : List Byte}
    (h : FrameParts k raw pre payload) : (packetOf k raw).payload = payload := by
  simp [packetOf, h.bytes, Nat.add_comm 1, ← h.preamble_length]

/-- Settles O4: the parts of the frame give the reading, its record and its length. -/
theorem frameIsReadOffTheFront : Obligations.FrameIsReadOffTheFront := by
  intro i raw rest p hw hcode hrec
  obtain ⟨k, pre, payload, rfl, hparts⟩ := frameParts_of_encode hw hcode
  obtain rfl : packetOf k raw = p := Option.some.inj ((frameRecord_of_encode hcode).symm.trans hrec)
  refine ⟨hparts.decodeFrame_append rest, ?_, hparts.length_bounds⟩
  rw [hparts.packet_payload]
  exact hparts.length

/-- A frame's meaning on an enabled block is the delivery of its record (R124). -/
theorem exec_of_frameRecord {i : Instr} {p : RawPacket} {s : State} (hw : i.wf = true)
    (hrec : frameRecord i = some p) (ho : s.lkOpen = true) (hf : s.fault = 0) :
    exec i s = .next (completeFrame p s) := by
  cases hcode : encode i with
  | word w =>
    cases i with
    | push | popN | step | drain | classify | resetLink | exit => simp [frameRecord] at hrec
    | h4Command | h4Acl | h4Sco | h4Event => cases hcode
  | frame raw =>
    obtain ⟨k, pre, payload, rfl, -⟩ := frameParts_of_encode hw hcode
    obtain rfl : packetOf k raw = p := Option.some.inj ((frameRecord_of_encode hcode).symm.trans hrec)
    exact (exec_of_encode_frame hcode s).trans (execFrame_of_enabled s ho hf k raw)

/-- Settles O35: the records written out are those of the four frames. -/
theorem framesDeliverTheirRecord : Obligations.FramesDeliverTheirRecord := by
  intro s ho hf
  refine ⟨fun o p hp => exec_of_frameRecord (by simpa using hp) rfl ho hf, fun h p hp => ?_,
    fun h p hp => exec_of_frameRecord (by simpa using hp) rfl ho hf,
    fun e p hp => exec_of_frameRecord (by simpa using hp) rfl ho hf⟩
  rw [exec_of_frameRecord (by simpa using hp) rfl ho hf]
  simp [completeFrame, State.emit, State.toIdle, serAcl, lowByte_ofNat, highByte_ofNat]

end Sys2Proof.Machine
end

section
/-! SUPPORT. What `CLASSIFY` answers by the table, and the bound that keeps FRAME_TOO_LONG out of reach:
O39, O44. -/

namespace Sys2Proof.Machine

/-! ### The classifier (R83, R86, R150) -/

theorem ogf_toNat (o : Half) : (ogf o).toNat = o.toNat / 1024 := by
  have ho := o.isLt
  simp only [ogf, BitVec.extractLsb'_toNat, Nat.shiftRight_eq_div_pow]
  omega

theorem ocf_toNat (o : Half) : (ocf o).toNat = o.toNat % 1024 := by
  simp [ocf]

/-- Each OGF and each OCF of a group is listed once (R152). -/
theorem config_wf_ascending {c : Config} (h : c.wf = true) :
    ascending c.ct = true ∧ ∀ g d l, (g, Group.perOcf d l) ∈ c.ct → ascending l = true := by
  simp only [Config.wf, tableWf, Bool.and_eq_true, List.all_eq_true] at h
  obtain ⟨-, ⟨⟨htable, hgroups⟩, -⟩, -⟩ := h
  exact ⟨htable, fun g d l hg => hgroups _ hg⟩

section
variable {ct : ClassTable} {o : Half}

theorem classOf_of_unlisted (h : ∀ e ∈ ct, e.1.toNat ≠ o.toNat / 1024) : classOf ct o = .onlyOne := by
  have hnone : assoc (ogf o) ct = none :=
    assoc_eq_none fun e he heq => h e he (by rw [heq, ogf_toNat])
  simp [classOf, hnone]

/-- The group listed with the opcode's OGF is the one looked up. -/
theorem assoc_ogf {g : BitVec 6} {r : Group} (hct : ascending ct = true) (hg : (g, r) ∈ ct)
    (ho : g.toNat = o.toNat / 1024) : assoc (ogf o) ct = some r := by
  obtain rfl : g = ogf o := BitVec.eq_of_toNat_eq (ho.trans (ogf_toNat o).symm)
  exact assoc_eq_some hct hg

theorem classOf_of_uniform {g : BitVec 6} {c : Class} (hct : ascending ct = true)
    (hg : (g, .uniform c) ∈ ct) (ho : g.toNat = o.toNat / 1024) : classOf ct o = c := by
  simp [classOf, assoc_ogf hct hg ho]

theorem classOf_of_listed {g : BitVec 6} {f : BitVec 10} {c d : Class} {l : List (BitVec 10 × Class)}
    (hct : ascending ct = true) (hg : (g, .perOcf d l) ∈ ct) (ho : g.toNat = o.toNat / 1024)
    (hl : ascending l = true) (hf : (f, c) ∈ l) (hocf : f.toNat = o.toNat % 1024) : classOf ct o = c := by
  obtain rfl : f = ocf o := BitVec.eq_of_toNat_eq (hocf.trans (ocf_toNat o).symm)
  simp [classOf, assoc_ogf hct hg ho, assoc_eq_some hl hf]

theorem classOf_of_default {g : BitVec 6} {d : Class} {l : List (BitVec 10 × Class)}
    (hct : ascending ct = true) (hg : (g, .perOcf d l) ∈ ct) (ho : g.toNat = o.toNat / 1024)
    (hl : ∀ e ∈ l, e.1.toNat ≠ o.toNat % 1024) : classOf ct o = d := by
  have hnone : assoc (ocf o) l = none :=
    assoc_eq_none fun e he heq => hl e he (by rw [heq, ocf_toNat])
  simp [classOf, assoc_ogf hct hg ho, hnone]

end

/-- Settles O44: the lookup finds what an ascending table lists. -/
theorem classifyMeaning : Obligations.ClassifyMeaning := by
  intro o s hcfg
  obtain ⟨hct, hgroups⟩ := config_wf_ascending hcfg
  exact ⟨classOf s.cfg.ct o, rfl, classOf_of_unlisted, fun g c' hg ho => classOf_of_uniform hct hg ho,
    fun g d l hg ho => ⟨fun f c' hf hocf => classOf_of_listed hct hg ho (hgroups g d l hg) hf hocf,
      classOf_of_default hct hg ho⟩⟩

/-! ### FRAME_TOO_LONG (R79, R184) -/

/-- `fault` after a transition: as it was, or with the bit of one cause set, which is FRAME_TOO_LONG only
where some frame does not fit `pkt`. -/
def FaultGrows (s t : State) : Prop :=
  t.fault = s.fault ∨
    ∃ f, t.fault = withFaultBit s.fault f ∧ (f = .frameTooLong → s.cfg.pktMax < 65540)

theorem FaultGrows.frameTooLong_not_raised {s t : State} (h : FaultGrows s t) (hmax : 65540 ≤ s.cfg.pktMax)
    (hs : s.faultBit 3 = false) : t.faultBit 3 = false := by
  rcases h with hf | ⟨f, hf, hlong⟩
  · exact (congrArg (BitVec.getLsbD · 3) hf).trans hs
  · have hbit : t.faultBit 3 = (s.raise f).faultBit 3 := congrArg (BitVec.getLsbD · 3) hf
    rw [hbit, State.raise_faultBit s f 3 (by omega), hs]
    cases f with
    | frameTooLong => exact absurd (hlong rfl) (by omega)
    | badType | rbOverflow | idxCorrupt => rfl

/-- A micro-transition that pops raises what follows its `POP_N` raises, or IDX_CORRUPT. -/
theorem faultGrows_withPopped {n : Nat} {s m : State} {r : MicroResult}
    {go : List Byte → State → Except Fault (MicroResult × State)} (h : withPopped n s go = .ok (r, m))
    (hgo : ∀ bytes, go bytes (s.advance bytes.length) = .ok (r, m) → FaultGrows s m) : FaultGrows s m := by
  rcases withPopped_cases h with ⟨-, -, rfl⟩ | ⟨hc, bytes, u, hp, hg⟩
  · exact .inr ⟨.idxCorrupt, rfl, by simp⟩
  · obtain ⟨-, -, rfl⟩ := popBytes_ok hc hp
    exact hgo bytes hg

/-- A preamble announces fewer than 65536 content bytes, so only a small `pkt` cannot hold the frame. -/
theorem faultGrows_finishPreamble {s m : State} {r : MicroResult} (h : finishPreamble s = .ok (r, m)) :
    FaultGrows s m := by
  obtain ⟨len, hlen, ⟨hbig, -, rfl⟩ | ⟨-, -, rfl⟩⟩ := finishPreamble_cases h
  · exact .inr ⟨.frameTooLong, rfl, fun _ => hbig.trans_le (frameLength_le (readContentLength_lt hlen))⟩
  · exact .inl rfl

theorem faultGrows_microTransition {s m : State} {r : MicroResult} (h : microTransition s = .ok (r, m)) :
    FaultGrows s m := by
  unfold microTransition at h
  split at h
  case h_1 =>
    refine faultGrows_withPopped h fun bytes hg => ?_
    split at hg
    · cases hg
      exact .inl rfl
    · split at hg
      · cases hg
        exact .inr ⟨.badType _, rfl, by simp⟩
      · split at hg <;> cases hg
        exact .inl rfl
  case h_2 =>
    refine faultGrows_withPopped h fun bytes hg => ?_
    split at hg
    · cases hg
    · split at hg
      · cases hg
        exact .inl rfl
      · have hgrows := faultGrows_finishPreamble hg
        exact hgrows
  case h_3 =>
    refine faultGrows_withPopped h fun bytes hg => ?_
    split at hg
    · cases hg
    · split at hg <;> cases hg <;> exact .inl rfl
  case h_4 =>
    obtain ⟨raw, -, -, rfl⟩ := tComplete_cases h
    exact .inl rfl

/-- What ends an operation does not write `fault`. -/
theorem faultGrows_consumerPass {s t : State} (h : consumerPass s = .next t) : FaultGrows s t := by
  rcases consumerPass_cases h with ⟨-, rfl⟩ | ⟨-, -, rfl⟩ | ⟨-, -, -, rfl⟩ | ⟨-, -, -, r, m, hm, hend⟩
  · exact .inl rfl
  · obtain ⟨es, op, heq⟩ := closeConsumer_eq s
    exact heq ▸ .inl rfl
  · obtain ⟨es, op, heq⟩ := finishConsumer_eq s .fault
    exact heq ▸ .inl rfl
  · have hgrows := faultGrows_microTransition hm
    rcases hend with ⟨-, rfl⟩ | ⟨-, rfl⟩ | ⟨-, rfl⟩ | ⟨-, rfl⟩
    · exact hgrows
    · obtain ⟨es, op, heq⟩ := countPacket_eq m
      exact heq ▸ hgrows
    · obtain ⟨es, op, heq⟩ := finishConsumer_eq m .needMore
      exact heq ▸ hgrows
    · obtain ⟨es, op, heq⟩ := finishConsumer_eq m .fault
      exact heq ▸ hgrows

/-- What `PUSH` and `POP_N` raise is never FRAME_TOO_LONG. -/
theorem faultGrows_of_ring {s t : State}
    (h : t.fault = s.fault ∨ ∃ f, t.fault = withFaultBit s.fault f ∧ (f = .rbOverflow ∨ f = .idxCorrupt)) :
    FaultGrows s t := by
  rcases h with h | ⟨f, hf, rfl | rfl⟩
  · exact .inl h
  · exact .inr ⟨_, hf, by simp⟩
  · exact .inr ⟨_, hf, by simp⟩

/-- Every step that is no reset leaves `fault` as it was or with one more bit. -/
theorem fault_step {s t : State} (h : step s = .next t) : FaultGrows s t ∨ t.fault = 0 := by
  obtain ⟨ms, hx | hx | ⟨op, -, hx⟩ | ⟨bytes, -, hx⟩ | ⟨w, -, hword⟩ | ⟨c, -, rfl⟩ | rfl⟩ := step_cases h
  · have hgrows := faultGrows_consumerPass hx
    exact .inl hgrows
  · exact .inl (faultGrows_of_ring (feedPass_frame hx).2.1)
  · have hgrows := faultGrows_consumerPass hx
    exact .inl hgrows
  · exact .inl (faultGrows_of_ring (feedPass_frame hx).2.1)
  · rcases hword with ⟨b, hx⟩ | ⟨n, hx⟩ | ⟨o, hx⟩ | ⟨-, hx⟩ | ⟨-, hx⟩ | rfl
    · exact .inl (faultGrows_of_ring (execPush_frame hx).2.1)
    · exact .inl (faultGrows_of_ring ((execPopN_frame hx).2.1.imp_right fun hf => ⟨_, hf, .inr rfl⟩))
    · cases hx
      exact .inl (.inl rfl)
    · unfold execResetLink at hx
      split at hx <;> cases hx
      · exact .inl (.inl rfl)
      · exact .inr rfl
    · unfold execExit at hx
      split at hx <;> cases hx
      · exact .inl (.inl rfl)
      · exact .inr rfl
    · exact .inl (.inl rfl)
  · exact .inr rfl
  · exact .inl (.inl rfl)

/-- Settles O39: only a `pkt` below 65540 bytes makes a step set the bit. -/
theorem frameTooLongUnreachable : Obligations.FrameTooLongUnreachable := by
  intro s t hmax hstep hs
  rcases fault_step hstep with hgrows | hzero
  · exact hgrows.frameTooLong_not_raised hmax hs
  · simp [State.faultBit, hzero]

end Sys2Proof.Machine
end

section
/-! SUPPORT. What a micro-transition does with the bytes the block holds, and how many passes a DRAIN can
still take: O29. -/

namespace Sys2Proof.Machine

/-! ### A micro-transition in terms of the bytes held (R121 to R124, R128) -/

/-- An upper bound on the passes until the consumer's operation ends, if nothing is pushed: a frame takes
four passes and at least three bytes (R79, R127). -/
def State.passesLeft (s : State) : Nat :=
  match s.dfState with
  | .idle => 4 * (s.avail / 3) + 2
  | .header => if s.avail < s.want then 1 else 4 * ((s.avail - s.want) / 3) + 5
  | .content => 4 * (s.avail / 3) + 4
  | .complete => 4 * (s.avail / 3) + 3

/-- All that a micro-transition can do where `f` is in assembly and `q` in the ring: take the whole ring
and want more, move bytes from the ring to the frame, deliver the frame, drop a bad type byte, or abort a
frame that does not fit a `pkt` below 65540 bytes. -/
inductive MicroEffect (s : State) (f q : List Byte) : MicroResult → State → Prop where
  | needMore {m : State} (frame : assembled m = .ok (f ++ q)) (empty : m.avail = 0)
      (waits : m.dfState ≠ .complete) (no_fault : m.fault = 0) (events : m.events = s.events) :
      MicroEffect s f q .needMore m
  | progress {m : State} (n : Nat) (frame : assembled m = .ok (f ++ q.take n))
      (ring : ringContents m = .ok (q.drop n)) (no_fault : m.fault = 0) (events : m.events = s.events)
      (nearer : m.passesLeft < s.passesLeft) : MicroEffect s f q .progress m
  | deliver (complete : s.dfState = .complete) :
      MicroEffect s f q .packetComplete (completeFrame (packetOf s.dfKind f) s)
  | badType (t : Byte) (rest : List Byte) (idle : s.dfState = .idle) (ring : q = t :: rest)
      (bad : Kind.ofTypeByte t = none) : MicroEffect s f q .fault ((s.advance 1).raise (.badType t))
  | tooLong {m : State} (small : s.cfg.pktMax < 65540) (fault : m.fault ≠ 0)
      (events : m.events = s.events) : MicroEffect s f q .fault m

section
variable {s m : State} {f q : List Byte} {r : MicroResult}

theorem RingInv.avail_fetched (h : RingInv s) {n : Nat} (hn : n ≤ s.avail) (pkt : List Host.Cell)
    (d : DfState) (k : Kind) (needed collected : Nat) :
    (s.fetched n pkt d k needed collected).avail = s.avail - n :=
  (h.pop (t := s.fetched n pkt d k needed collected) n hn rfl rfl rfl rfl).2

/-- A fetch that takes the whole ring and wants more. -/
theorem MicroEffect.fetched_needMore (h : RingInv s) (hf : s.fault = 0) {pkt : List Host.Cell} {d : DfState}
    {k : Kind} {needed collected : Nat} (hd : d ≠ .complete)
    (hframe : assembled (s.fetched s.avail pkt d k needed collected) = .ok (f ++ q)) :
    MicroEffect s f q .needMore (s.fetched s.avail pkt d k needed collected) :=
  .needMore hframe (by rw [h.avail_fetched le_rfl, Nat.sub_self]) hd hf rfl

/-- A fetch that completes its phase. -/
theorem MicroEffect.fetched_progress (h : RingInv s) (hf : s.fault = 0) (hq : ringContents s = .ok q)
    {n : Nat} (hn : n ≤ s.avail) {pkt : List Host.Cell} {d : DfState} {k : Kind} {needed collected : Nat}
    (hframe : assembled (s.fetched n pkt d k needed collected) = .ok (f ++ q.take n))
    (hless : (s.fetched n pkt d k needed collected).passesLeft < s.passesLeft) :
    MicroEffect s f q .progress (s.fetched n pkt d k needed collected) :=
  .progress n hframe (ringContents_advance h hq hn) hf rfl hless

theorem BlockInv.tIdle_effect (h : BlockInv s) (hf : s.fault = 0) (hd : s.dfState = .idle)
    (hframe : assembled s = .ok f) (hq : ringContents s = .ok q) (hm : tIdle s = .ok (r, m)) :
    MicroEffect s f q r m := by
  obtain rfl : f = [] := by simpa [assembled, State.pktLen, hd, readPkt] using hframe.symm
  have hlen := (ringContents_ok_iff.mp hq).1
  rw [tIdle, withPopped_eq h.ring hq] at hm
  cases q with
  | nil =>
    cases hm
    have hfetched : s.advance (min 1 s.avail) =
        s.fetched s.avail s.pkt .idle s.dfKind s.dfNeeded s.dfCollected := by
      simp [State.fetched, State.advance, hd, ← hlen]
    exact hfetched ▸ MicroEffect.fetched_needMore h.ring hf (by simp) rfl
  | cons t rest =>
    have hone : min 1 s.avail = 1 := by
      rw [List.length_cons] at hlen
      omega
    simp only [List.take_succ_cons, hone] at hm
    split at hm
    next hk =>
      cases hm
      exact .badType t rest hd rfl hk
    next k hk =>
      split at hm <;> cases hm
      next pkt hst =>
        have hread := readPkt_storePkt (f := []) h.deframer.pkt_wf rfl hst
        refine MicroEffect.fetched_progress h.ring hf hq (n := 1) (by omega) hread ?_
        have hsize := preambleSize_bounds k
        have hwant : (s.fetched 1 pkt .header k (preambleSize k) 0).want = preambleSize k := rfl
        have hnow : s.passesLeft = 4 * (s.avail / 3) + 2 := by simp [State.passesLeft, hd]
        show (if (s.fetched 1 pkt .header k (preambleSize k) 0).avail < _ then 1 else _) < _
        rw [hwant, h.ring.avail_fetched (by omega), hnow]
        split <;> omega

/-- What a collecting pass has in `pkt` after its store (R122, R123). -/
theorem BlockInv.collected_frame (h : BlockInv s) (hframe : assembled s = .ok f)
    (hq : ringContents s = .ok q) {pkt : List Host.Cell}
    (hst : storePkt s.cfg.pktMax s.pkt s.pktLen (q.take s.want) = .ok pkt) :
    readPkt pkt 0 (s.pktLen + min s.want s.avail) = .ok (f ++ q.take s.want) := by
  have hread := readPkt_storePkt h.deframer.pkt_wf hframe hst
  rwa [List.length_take, (ringContents_ok_iff.mp hq).1] at hread

/-- A collecting pass over a ring that holds less than the phase wants (R122, R123). -/
theorem BlockInv.short_effect (h : BlockInv s) (hf : s.fault = 0)
    (hd : s.dfState = .header ∨ s.dfState = .content) {pkt : List Host.Cell}
    (hread : readPkt pkt 0 (s.pktLen + s.avail) = .ok (f ++ q)) :
    MicroEffect s f q .needMore
      { s.advance s.avail with pkt := pkt, dfCollected := s.dfCollected + s.avail } := by
  refine MicroEffect.fetched_needMore (d := s.dfState) h.ring hf (by rcases hd with hd | hd <;> simp [hd]) ?_
  have hlen : (s.fetched s.avail pkt s.dfState s.dfKind s.dfNeeded (s.dfCollected + s.avail)).pktLen =
      s.pktLen + s.avail := by
    rcases hd with hd | hd <;> simp [State.pktLen, State.fetched, hd, Nat.add_assoc]
  rw [← hlen] at hread
  exact hread

theorem BlockInv.finishPreamble_effect (h : BlockInv s) (hf : s.fault = 0) (hd : s.dfState = .header)
    (hq : ringContents s = .ok q) (hall : s.want ≤ s.avail) {pkt : List Host.Cell}
    (hread : readPkt pkt 0 (s.pktLen + s.want) = .ok (f ++ q.take s.want))
    (hm : finishPreamble { s.advance s.want with pkt := pkt } = .ok (r, m)) : MicroEffect s f q r m := by
  obtain ⟨len, hlen, ⟨hbig, rfl, rfl⟩ | ⟨-, rfl, rfl⟩⟩ := finishPreamble_cases hm
  · exact .tooLong (hbig.trans_le (frameLength_le (readContentLength_lt hlen))) (State.raise_fault_ne _ _) rfl
  · obtain ⟨hneeded, hcollected⟩ := h.deframer.phase.header hd
    have hdone : s.pktLen + s.want = 1 + preambleSize s.dfKind := by
      rw [State.pktLen_of_header hd, State.preambleIndex, State.want]
      omega
    rw [hdone] at hread
    refine MicroEffect.fetched_progress h.ring hf hq hall hread ?_
    have hnow : s.passesLeft = 4 * ((s.avail - s.want) / 3) + 5 := by
      simp [State.passesLeft, hd, Nat.not_lt.mpr hall]
    rw [hnow]
    show 4 * ((s.fetched s.want pkt .content s.dfKind len 0).avail / 3) + 4 < _
    rw [h.ring.avail_fetched hall]
    omega

theorem BlockInv.tHeader_effect (h : BlockInv s) (hf : s.fault = 0) (hd : s.dfState = .header)
    (hframe : assembled s = .ok f) (hq : ringContents s = .ok q) (hm : tHeader s = .ok (r, m)) :
    MicroEffect s f q r m := by
  have hlen := (ringContents_ok_iff.mp hq).1
  have hwant : s.want = s.dfNeeded - s.dfCollected := rfl
  rw [tHeader, withPopped_eq h.ring hq] at hm
  split at hm
  · cases hm
  next pkt hst =>
    have hread := h.collected_frame hframe hq (State.pktLen_of_header hd ▸ hst)
    rw [List.length_take, hlen] at hm
    split at hm
    next hshort =>
      have hmin : min s.want s.avail = s.avail := by omega
      rw [hmin, List.take_of_length_le (by omega)] at hread
      rw [hmin] at hm
      cases hm
      exact h.short_effect hf (.inl hd) hread
    next hwhole =>
      have hmin : min s.want s.avail = s.want := by omega
      rw [hmin] at hread hm
      exact h.finishPreamble_effect hf hd hq (by omega) hread hm

theorem BlockInv.tContent_effect (h : BlockInv s) (hf : s.fault = 0) (hd : s.dfState = .content)
    (hframe : assembled s = .ok f) (hq : ringContents s = .ok q) (hm : tContent s = .ok (r, m)) :
    MicroEffect s f q r m := by
  have hlen := (ringContents_ok_iff.mp hq).1
  have hwant : s.want = s.dfNeeded - s.dfCollected := rfl
  rw [tContent, withPopped_eq h.ring hq] at hm
  split at hm
  · cases hm
  next pkt hst =>
    have hread := h.collected_frame hframe hq (State.pktLen_of_content hd ▸ hst)
    rw [List.length_take, hlen] at hm
    split at hm <;> cases hm
    next hshort =>
      have hmin : min s.want s.avail = s.avail := by omega
      rw [hmin, List.take_of_length_le (by omega)] at hread
      rw [hmin]
      exact h.short_effect hf (.inr hd) hread
    next hwhole =>
      have hmin : min s.want s.avail = s.want := by omega
      rw [hmin, State.pktLen_of_content hd, State.contentIndex, Nat.add_assoc] at hread
      rw [hmin]
      have hall : s.want ≤ s.avail := by omega
      refine MicroEffect.fetched_progress (needed := s.dfNeeded) h.ring hf hq hall hread ?_
      have hnow : s.passesLeft = 4 * (s.avail / 3) + 4 := by simp [State.passesLeft, hd]
      rw [hnow]
      show 4 * ((s.fetched s.want pkt .complete s.dfKind s.dfNeeded _).avail / 3) + 3 < _
      rw [h.ring.avail_fetched hall]
      omega

/-- A micro-transition has one of these effects. -/
theorem BlockInv.micro_effect (h : BlockInv s) (hf : s.fault = 0) (hframe : assembled s = .ok f)
    (hq : ringContents s = .ok q) (hm : microTransition s = .ok (r, m)) : MicroEffect s f q r m := by
  unfold microTransition at hm
  cases hd : s.dfState <;> simp only [hd] at hm
  case idle => exact h.tIdle_effect hf hd hframe hq hm
  case header => exact h.tHeader_effect hf hd hframe hq hm
  case content => exact h.tContent_effect hf hd hframe hq hm
  case complete =>
    obtain ⟨rfl, rfl⟩ : r = .packetComplete ∧ m = completeFrame (packetOf s.dfKind f) s := by
      simpa [microTransition, hd, hm] using h.microTransition_of_complete hd hframe
    exact .deliver hd

end

/-- The frame in assembly can be read (R32). -/
theorem BlockInv.assembled_total {s : State} (h : BlockInv s) : ∃ f, assembled s = .ok f :=
  readPkt_total (by simpa using h.deframer.written)

/-! ### The passes until an operation ends (R126, R127) -/

theorem finishConsumer_active (s : State) (why : DrainEnd) : (finishConsumer s why).active = .idle := by
  unfold finishConsumer
  split
  · assumption
  · rfl
  · rfl

theorem closeConsumer_active (s : State) : (closeConsumer s).active = .idle := by
  unfold closeConsumer
  split
  · assumption
  · rfl
  · rfl

theorem passesLeft_countPacket (s : State) : (countPacket s).passesLeft = s.passesLeft := by
  obtain ⟨es, op, heq⟩ := countPacket_eq s
  exact heq ▸ rfl

/-- A pass that does not end the operation brings its end nearer. -/
theorem BlockInv.passesLeft_lt {s t : State} (h : BlockInv s) (hp : consumerPass s = .next t)
    (ha : s.active ≠ .idle) (ht : t.active ≠ .idle) : t.passesLeft < s.passesLeft := by
  rcases consumerPass_cases hp with ⟨hidle, -⟩ | ⟨-, -, rfl⟩ | ⟨-, -, -, rfl⟩ | ⟨-, -, hf, r, m, hm, hend⟩
  · exact absurd hidle ha
  · exact absurd (closeConsumer_active s) ht
  · exact absurd (finishConsumer_active s _) ht
  · obtain ⟨f, hframe⟩ := h.assembled_total
    obtain ⟨q, hq⟩ := h.ring.ringContents_total
    have heffect := h.micro_effect hf hframe hq hm
    rcases hend with ⟨rfl, rfl⟩ | ⟨rfl, rfl⟩ | ⟨-, rfl⟩ | ⟨-, rfl⟩
    · cases heffect with
      | progress n _ _ _ _ nearer => exact nearer
    · cases heffect with
      | deliver hd =>
        have hnow : s.passesLeft = 4 * (s.avail / 3) + 3 := by simp [State.passesLeft, hd]
        rw [passesLeft_countPacket, hnow]
        exact Nat.lt_succ_self (4 * (s.avail / 3) + 2)
    · exact absurd (finishConsumer_active m _) ht
    · exact absurd (finishConsumer_active m _) ht

theorem State.passesLeft_pos (s : State) : 0 < s.passesLeft := by
  unfold State.passesLeft
  repeat' split
  all_goals omega

theorem BlockInv.passesLeft_le {s : State} (h : BlockInv s) : s.passesLeft ≤ 4 * (s.avail / 3 + 2) := by
  unfold State.passesLeft
  cases hd : s.dfState with
  | header =>
    have hwant : 1 ≤ s.want := by
      have hcollected := (h.deframer.phase.header hd).2
      rw [State.want]
      omega
    simp only
    split <;> omega
  | idle | content | complete => simp only; omega

/-- The environment lets the operation in progress run to its end. -/
def Lets (ms : List Move) : Prop := ms = [] ∨ ∃ rest, ms = .await :: rest

/-- With such moves a step is the next pass of the consumer's operation (R9). -/
theorem step_of_lets {s : State} (hm : Lets s.moves) (ha : s.active ≠ .idle) : step s = consumerPass s := by
  rcases hm with hm | ⟨rest, hm⟩
  · exact step_of_active hm ha
  · have hbusy := s.busy_consumer_iff.mpr ha
    exact step_of_busy hm (by simp [Move.needs_await, hbusy]) hbusy

theorem ProducerKept.trans {s t u : State} (h : ProducerKept s t) (h' : ProducerKept t u) :
    ProducerKept s u where
  cfg := h'.cfg.trans h.cfg
  rb_mem := h'.rb_mem.trans h.rb_mem
  rb_wr := h'.rb_wr.trans h.rb_wr
  lk_open := h'.lk_open.trans h.lk_open
  feeding := h'.feeding.trans h.feeding
  moves := h'.moves.trans h.moves

/-- An operation of the consumer runs to its end within `passesLeft` steps, and what every pass keeps
holds of the state there. -/
theorem Inv.run_to_end {P : State → Prop}
    (keep : ∀ u v, Inv u → u.active ≠ .idle → P u → Machine.consumerPass u = .next v → P v)
    (bound : Nat) {s : State} (h : Inv s) (hms : Lets s.moves) (ha : s.active ≠ .idle) (hP : P s) (hbound : s.passesLeft ≤ bound) :
    ∃ n t, n < bound ∧ Sys2Proof.core.run (n + 1) s = .next t ∧ Inv t ∧ t.active = .idle ∧
      ProducerKept s t ∧ P t := by
  induction bound generalizing s with
  | zero => exact absurd s.passesLeft_pos (by omega)
  | succ bound ih =>
    obtain ⟨t, hp⟩ := h.consumerPass_answers
    have hrun : ∀ n, Sys2Proof.core.run (n + 1) s = Sys2Proof.core.run n t := fun n =>
      run_next Sys2Proof.core n ((step_of_lets hms ha).trans hp)
    have ht := h.consumerPass hp
    have hkept := ProducerKept.of_consumerPass hp
    have hPt := keep s t h ha hP hp
    by_cases hta : t.active = .idle
    · exact ⟨0, t, bound.succ_pos, hrun 0, ht, hta, hkept, hPt⟩
    · have hless := h.passesLeft_lt hp ha hta
      obtain ⟨n, u, hn, hrunt, hu, hua, hkept', hPu⟩ := ih ht (hkept.moves ▸ hms) hta hPt (by omega)
      exact ⟨n + 1, u, by omega, (hrun (n + 1)).trans hrunt, hu, hua, hkept.trans hkept', hPu⟩

/-! ### A DRAIN (R127) -/

theorem finishConsumer_of_drain {s : State} {k : Nat} (ha : s.active = .drain k) (why : DrainEnd) :
    finishConsumer s why = { s with active := .idle }.ret .drain (.drained k why) := by
  simp [finishConsumer, ha]

theorem countPacket_of_drain {s : State} {k : Nat} (ha : s.active = .drain k) :
    countPacket s = { s with active := .drain (k + 1) } := by
  simp [countPacket, ha]

/-- A DRAIN on an open link, begun when the outputs were `before`: it has put out nothing but packets, as
many as it counts, and where it has ended it has returned why. -/
inductive DrainStage (before : List Event) (s : State) : Prop where
  | running (out : List Event) (packets : ∀ e ∈ out, ∃ p, e = .deliver p)
      (active : s.active = .drain out.length) (events : s.events = out ++ before)
  | needMore (out : List Event) (packets : ∀ e ∈ out, ∃ p, e = .deliver p) (active : s.active = .idle)
      (events : s.events = .returned .drain (.drained out.length .needMore) :: (out ++ before))
      (no_fault : s.fault = 0) (empty : s.avail = 0) (waits : s.dfState ≠ .complete)
  | fault (out : List Event) (packets : ∀ e ∈ out, ∃ p, e = .deliver p) (active : s.active = .idle)
      (events : s.events = .returned .drain (.drained out.length .fault) :: (out ++ before))
      (fault : s.fault ≠ 0)

/-- A DRAIN that ends with a fault pending. -/
theorem DrainStage.of_fault {before out : List Event} {s : State} (hout : ∀ e ∈ out, ∃ p, e = .deliver p)
    (ha : s.active = .drain out.length) (hev : s.events = out ++ before) (hf : s.fault ≠ 0) :
    DrainStage before (finishConsumer s .fault) := by
  rw [finishConsumer_of_drain ha]
  exact .fault out hout rfl (by simp [hev]) hf

/-- Every pass of a DRAIN leads to one of its stages. -/
theorem DrainStage.pass {before : List Event} {s t : State} (h : Inv s) (ha : s.active ≠ .idle)
    (hs : s.lkOpen = true ∧ DrainStage before s) (hp : consumerPass s = .next t) :
    t.lkOpen = true ∧ DrainStage before t := by
  obtain ⟨ho, hstage⟩ := hs
  refine ⟨(ProducerKept.of_consumerPass hp).lk_open.trans ho, ?_⟩
  cases hstage with
  | needMore out _ hidle => exact absurd hidle ha
  | fault out _ hidle => exact absurd hidle ha
  | running out hout hdrain hev =>
    rcases consumerPass_cases hp with ⟨hidle, -⟩ | ⟨-, hclosed, -⟩ | ⟨-, -, hf, rfl⟩ |
      ⟨-, -, hf, r, m, hm, hend⟩
    · exact absurd hidle ha
    · simp [ho] at hclosed
    · exact .of_fault hout hdrain hev hf
    · obtain ⟨f, hframe⟩ := h.assembled_total
      obtain ⟨q, hq⟩ := h.ring.ringContents_total
      have hact : m.active = .drain out.length := (micro_inv h.toBlockInv ho hf hm).2.1.trans hdrain
      cases h.micro_effect hf hframe hq hm with
      | needMore _ empty waits no_fault events =>
        obtain rfl : t = finishConsumer m .needMore := by simpa using hend
        rw [finishConsumer_of_drain hact]
        exact .needMore out hout rfl (by simp [events, hev]) no_fault empty waits
      | progress n _ _ _ events _ =>
        obtain rfl : t = m := by simpa using hend
        exact .running out hout hact (events.trans hev)
      | deliver =>
        obtain rfl : t = countPacket (completeFrame (packetOf s.dfKind f) s) := by simpa using hend
        rw [countPacket_of_drain hact]
        exact .running (.deliver (packetOf s.dfKind f) :: out) (by simpa using hout) rfl
          (by simp [completeFrame, hev])
      | badType =>
        obtain rfl : t = _ := by simpa using hend
        exact .of_fault hout hact hev (State.raise_fault_ne _ _)
      | tooLong _ fault events =>
        obtain rfl : t = finishConsumer m .fault := by simpa using hend
        exact .of_fault hout hact (events.trans hev) fault

/-! ### Runs -/

/-- A run goes on from where its first part ends, for any machine of the host's interface. -/
theorem run_add (m : Host.Core) (n k : Nat) {s t : m.State} (h : m.run n s = .next t) :
    m.run (n + k) s = m.run k t := by
  induction n generalizing s with
  | zero =>
    cases h
    rw [Nat.zero_add]
  | succ n ih =>
    rw [Host.Core.run] at h
    rw [Nat.succ_add, Host.Core.run]
    split at h
    next u hu => exact ih h
    · cases h
    · cases h

/-- At the end nothing happens (R227). -/
theorem run_of_atEnd (n : Nat) {s : State} (h : AtEnd s) : Sys2Proof.core.run n s = .next s := by
  obtain ⟨ha, hfeed, hm⟩ := h
  have hstep : step s = .next s := by
    simp [step_of_no_moves hm, goOn, State.busy, ha, contextPass, feedPass, hfeed]
  induction n with
  | zero => rfl
  | succ n ih => exact (run_next Sys2Proof.core n hstep).trans ih

/-- A run that reaches the end stays there. -/
theorem run_of_reached {n k : Nat} {s t : State} (h : Sys2Proof.core.run n s = .next t) (ht : AtEnd t)
    (hk : n ≤ k) : Sys2Proof.core.run k s = .next t := by
  obtain ⟨d, rfl⟩ := Nat.exists_eq_add_of_le hk
  exact (run_add Sys2Proof.core n d h).trans (run_of_atEnd d ht)

/-- `s` with a DRAIN in progress that has delivered nothing yet, and moves `ms` in store. -/
def State.draining (s : State) (ms : List Move) : State := { s with moves := ms, active := .drain 0 }

/-- A DRAIN asked for by a word or by `InData` is its passes (R92, R127, R169). -/
theorem run_begin_drain {s : State} {m : Move} {rest : List Move} (ha : s.active = .idle)
    (hasks : m = .onIndata ∨ m = .issue 0x30000#19) (hms : Lets rest) (n : Nat) :
    Sys2Proof.core.run (n + 1) { s with moves := m :: rest } =
      Sys2Proof.core.run (n + 1) (s.draining rest) := by
  have hword : decodeOp 0x30000#19 = .ok .drain := by decide
  have hpass : step (s.draining rest) = exec .drain { s with moves := rest } := by
    rw [step_of_lets hms (by simp [State.draining])]
    simp [exec, execDrain, beginConsumer_of_idle, ha, State.draining]
  have hmove : step { s with moves := m :: rest } = exec .drain { s with moves := rest } := by
    rcases hasks with rfl | rfl
    · rw [step_of_free rfl (by simp [Move.needs, State.busy, ha])]
      rfl
    · rw [step_of_free rfl (by simp [Move.needs_issue hword, State.busy, issuer, ha])]
      simp [perform, issueWord, hword]
  exact run_congr Sys2Proof.core n (hmove.trans hpass.symm)

theorem RingInv.isEmpty_iff {s : State} (h : RingInv s) : s.isEmpty = true ↔ s.avail = 0 := by
  have hw := h.wr_lt
  have hr := h.rd_lt
  rw [State.isEmpty, decide_eq_true_eq, State.avail_eq hw hr]
  split <;> omega

/-- On a closed link a DRAIN ends at once (R127, R172). -/
theorem run_draining_of_closed {s : State} (ho : s.lkOpen = false) {ms : List Move} (hms : Lets ms) :
    Sys2Proof.core.run 1 (s.draining ms) =
      .next ({ s with moves := ms, active := .idle }.ret .drain .closed) := by
  have hpass : consumerPass (s.draining ms) =
      .next ({ s with moves := ms, active := .idle }.ret .drain .closed) := by
    simp [consumerPass, closeConsumer, State.draining, ho]
  exact run_next Sys2Proof.core 0 ((step_of_lets hms (by simp [State.draining])).trans hpass)

/-- On an open link a DRAIN ends within the bound, at one of its two ends, and every predicate that its
passes keep holds there (R127). -/
theorem run_draining {P : State → Prop}
    (keep : ∀ u v, Inv u → u.active ≠ .idle → P u → consumerPass u = .next v → P v) {s : State}
    (h : BlockInv s) (ho : s.lkOpen = true) {ms : List Move} (hms : Lets ms) (hP : P (s.draining ms)) :
    ∃ n t, n < 4 * (s.avail / 3 + 2) ∧ Sys2Proof.core.run (n + 1) (s.draining ms) = .next t ∧ Inv t ∧
      t.active = .idle ∧ ProducerKept (s.draining ms) t ∧ DrainStage s.events t ∧ P t := by
  have hbusy : (s.draining ms).active ≠ .idle := by simp [State.draining]
  have hagents : BlockInv (s.draining ms) := h.withAgents s.events (.drain 0) s.feeding ms
  obtain ⟨n, t, hn, hrun, hinv, hidle, hkept, ⟨-, hstage⟩, hPt⟩ :=
    Inv.run_to_end (P := fun u => (u.lkOpen = true ∧ DrainStage s.events u) ∧ P u)
      (fun u v hu hua hPu hp => ⟨DrainStage.pass hu hua hPu.1 hp, keep u v hu hua hPu.2 hp⟩) _
      ⟨hagents, atRestInv_of_active hbusy⟩ hms hbusy ⟨⟨ho, .running [] (by simp) rfl rfl⟩, hP⟩
      hagents.passesLeft_le
  exact ⟨n, t, hn, hrun, hinv, hidle, hkept, hstage, hPt⟩

/-- Settles O29: on an open link the passes end within the bound, at one of the two ends of a DRAIN. -/
theorem drainEnds : Obligations.DrainEnds := by
  intro s h ha hfeed
  have hbegin := run_begin_drain ha (.inr rfl) (.inl rfl) (4 * (s.avail / 3) + 7)
  by_cases ho : s.lkOpen = true
  · obtain ⟨n, t, hn, hrun, hinv, hidle, hkept, hstage, -⟩ :=
      run_draining (P := fun _ => True) (fun _ _ _ _ _ _ => trivial) h ho (.inl rfl) trivial
    have hend : AtEnd t := ⟨hidle, hkept.feeding.trans hfeed, hkept.moves⟩
    have hall := hbegin.trans (run_of_reached hrun hend hn)
    cases hstage with
    | running out _ hdrain => cases hidle.symm.trans hdrain
    | needMore out hout _ hev hf hempty hwaits =>
      exact ⟨t, out, hall, hend, hout, .inr (.inl ⟨hev, hf, hinv.ring.isEmpty_iff.mpr hempty, hwaits⟩)⟩
    | fault out hout _ hev hf => exact ⟨t, out, hall, hend, hout, .inr (.inr ⟨hev, hf⟩)⟩
  · have hclosed : s.lkOpen = false := by simpa using ho
    have hend : AtEnd ({ s with moves := [], active := .idle }.ret .drain .closed) := ⟨rfl, hfeed, rfl⟩
    exact ⟨_, [], hbegin.trans (run_of_reached (run_draining_of_closed hclosed (.inl rfl)) hend (by omega)),
      hend, by simp, .inl ⟨hclosed, rfl⟩⟩

end Sys2Proof.Machine
end

section
/-! SUPPORT. The frames of a stream and what is left of it, and a run of FEEDs and DRAINs that keeps them:
O31. -/

namespace Sys2Proof.Machine

/-! ### `parse` (R129) -/

/-- What is left after a frame is shorter, so `parse` reads to the end of the stream. -/
theorem length_lt_of_decodeFrame {bytes rest : List Byte} {i : Instr}
    (h : decodeFrame bytes = .ok (i, rest)) : rest.length < bytes.length := by
  obtain ⟨k, raw, pre, payload, hparts, -, rfl⟩ := frameParts_of_decodeFrame h
  have hlong := hparts.length_bounds.1
  rw [List.length_append]
  omega

/-- The bound on the number of frames does not matter once it exceeds the number of bytes. -/
theorem parseUpTo_eq {n n' : Nat} {bytes : List Byte} (h : bytes.length < n) (h' : bytes.length < n') :
    parseUpTo n bytes = parseUpTo n' bytes := by
  induction n generalizing n' bytes with
  | zero => omega
  | succ n ih =>
    obtain ⟨n', rfl⟩ := Nat.exists_eq_add_one_of_ne_zero (show n' ≠ 0 by omega)
    cases hd : decodeFrame bytes with
    | error e => cases e <;> simp [parseUpTo, hd]
    | ok r =>
      obtain ⟨i, rest⟩ := r
      have hless := length_lt_of_decodeFrame hd
      simp [parseUpTo, hd, ih (n' := n') (bytes := rest) (by omega) (by omega)]

theorem parse_of_frame {bytes rest : List Byte} {i : Instr} (h : decodeFrame bytes = .ok (i, rest)) :
    parse bytes = (i :: (parse rest).1, (parse rest).2) := by
  have hless := length_lt_of_decodeFrame h
  simp only [parse, parseUpTo, h,
    parseUpTo_eq (n := bytes.length) (n' := rest.length + 1) (bytes := rest) hless (by omega)]

theorem parse_of_badType {t : Byte} (rest : List Byte) (h : Kind.ofTypeByte t = none) :
    parse (t :: rest) = ([], .badType t rest) := by
  simp [parse, parseUpTo, decodeFrame, h]

theorem parse_of_short_preamble {k : Kind} {pre : List Byte} (h : pre.length < preambleSize k) :
    parse (k.typeByte :: pre) = ([], .header k pre.length) := by
  simp [parse, parseUpTo, decodeFrame_of_short_preamble h]

theorem parse_of_short_content {k : Kind} {pre bytes : List Byte} (h : pre.length = preambleSize k)
    (hshort : bytes.length < contentLength k (k.typeByte :: pre)) :
    parse (k.typeByte :: (pre ++ bytes)) =
      ([], .content k (contentLength k (k.typeByte :: pre)) bytes.length) := by
  simp [parse, parseUpTo, decodeFrame_of_preamble h, hshort]

/-- The records of the frames of a stream, in order. -/
def recordsOf (stream : List Byte) : List RawPacket := (parse stream).1.filterMap frameRecord

/-- A frame at the front of a stream is its first record, and does not touch the residue. -/
theorem FrameParts.recordsOf_append {k : Kind} {raw pre payload : List Byte}
    (h : FrameParts k raw pre payload) (rest : List Byte) :
    recordsOf (raw ++ rest) = packetOf k raw :: recordsOf rest ∧ (parse (raw ++ rest)).2 = (parse rest).2 := by
  simp [recordsOf, parse_of_frame (h.decodeFrame_append rest), frameRecord_of_encode h.encode_eq]

/-! ### The deframer between two operations (R129, R227) -/

/-- The frame in assembly begins with the type byte of its kind (R32). -/
theorem BlockInv.assembled_cons {s : State} {f : List Byte} (h : BlockInv s) (hd : s.dfState ≠ .idle)
    (hframe : assembled s = .ok f) : ∃ tail, f = s.dfKind.typeByte :: tail ∧ tail.length + 1 = s.pktLen := by
  obtain ⟨hlen, hget⟩ := readPkt_ok_iff.mp hframe
  have hpos : 0 < s.pktLen := by
    unfold State.pktLen
    cases hs : s.dfState with
    | idle => exact absurd hs hd
    | header | content | complete => simp only; omega
  cases f with
  | nil => simp at hlen; omega
  | cons t tail =>
    have htype := (hget 0 hpos).symm.trans (h.deframer.type_byte hd)
    exact ⟨tail, by simpa using htype, hlen⟩

/-- Where the deframer waits with the ring empty, the frame in assembly is what `parse` calls the
residue. -/
theorem Inv.standsAt {s : State} {f : List Byte} (h : Inv s) (ha : s.active = .idle) (hf : s.fault = 0)
    (hempty : s.avail = 0) (hframe : assembled s = .ok f) : (parse f).1 = [] ∧ StandsAt s (parse f).2 := by
  obtain ⟨hwhole, hwants⟩ := h.waits ha hf
  have hring := h.ring.isEmpty_iff.mpr hempty
  cases hd : s.dfState with
  | complete => exact absurd hd hwhole
  | idle =>
    obtain rfl : f = [] := by simpa [assembled, State.pktLen, hd, readPkt] using hframe.symm
    exact ⟨rfl, hf, hd, hring⟩
  | header =>
    obtain ⟨hneeded, hcollected⟩ := h.deframer.phase.header hd
    obtain ⟨tail, rfl, hlen⟩ := h.assembled_cons (by simp [hd]) hframe
    have hcount : tail.length = s.dfCollected := by
      rw [State.pktLen_of_header hd, State.preambleIndex] at hlen
      omega
    rw [parse_of_short_preamble (by omega)]
    exact ⟨rfl, hf, hd, rfl, hcount.symm, hring⟩
  | content =>
    have hless := hwants hd
    obtain ⟨hannounced, -, -⟩ := h.deframer.phase.content hd
    obtain ⟨tail, rfl, hlen⟩ := h.assembled_cons (by simp [hd]) hframe
    rw [State.pktLen_of_content hd, State.contentIndex] at hlen
    have hpre : (tail.take (preambleSize s.dfKind)).length = preambleSize s.dfKind := by simp; omega
    have hcontent := readContentLength_of_readPkt (k := s.dfKind) (readPkt_slice hframe (i := 0)
      (by rw [State.pktLen_of_content hd, State.contentIndex]; omega))
    rw [hannounced, Except.ok.injEq, List.drop_zero, Nat.add_comm 1, List.take_succ_cons] at hcontent
    have hrest : (tail.drop (preambleSize s.dfKind)).length = s.dfCollected := by simp; omega
    rw [← List.take_append_drop (preambleSize s.dfKind) tail,
      parse_of_short_content hpre (by rw [hrest, ← hcontent]; exact hless)]
    exact ⟨rfl, hf, hd, rfl, hcontent, hrest.symm, hring⟩

/-! ### Outputs on the way to those of a stream -/

/-- With the bytes `future` still to come, the outputs are on the way to the records of `stream`: the
packets delivered and those of the bytes held and to come are the records, or a bad type byte has ended
both. -/
inductive OnTrack (stream future : List Byte) (s : State) : Prop where
  | going (f q : List Byte) (no_fault : s.fault = 0) (frame : assembled s = .ok f)
      (ring : ringContents s = .ok q)
      (records : deliveries s.events ++ recordsOf (f ++ (q ++ future)) = recordsOf stream)
      (residue : (parse (f ++ (q ++ future))).2 = (parse stream).2)
  | halted (fault : s.fault ≠ 0) (records : deliveries s.events = recordsOf stream)
      (residue : ∃ t unread, (parse stream).2 = .badType t unread)

section
variable {stream future : List Byte} {s t : State}

/-- What `OnTrack` depends on. -/
theorem OnTrack.congr (h : OnTrack stream future s) (hf : t.fault = s.fault)
    (hframe : assembled t = assembled s) (hring : ringContents t = ringContents s)
    (hev : deliveries t.events = deliveries s.events) : OnTrack stream future t := by
  cases h with
  | going f q no_fault frame ring records residue =>
    exact .going f q (hf.trans no_fault) (hframe.trans frame) (hring.trans ring) (hev ▸ records) residue
  | halted fault records residue => exact .halted (hf ▸ fault) (hev.trans records) residue

@[simp] theorem deliveries_cons_deliver (p : RawPacket) (es : List Event) :
    deliveries (.deliver p :: es) = deliveries es ++ [p] := deliveries_append [.deliver p] es

@[simp] theorem deliveries_cons_returned (i : Instr) (r : Result) (es : List Event) :
    deliveries (.returned i r :: es) = deliveries es := by
  simp [deliveries]

theorem OnTrack.finishConsumer (h : OnTrack stream future s) (why : DrainEnd) :
    OnTrack stream future (finishConsumer s why) := by
  unfold Machine.finishConsumer
  split
  · exact h
  · exact h.congr rfl rfl rfl (deliveries_cons_returned _ _ _)
  · exact h.congr rfl rfl rfl (deliveries_cons_returned _ _ _)

theorem OnTrack.countPacket (h : OnTrack stream future s) : OnTrack stream future (countPacket s) := by
  unfold Machine.countPacket
  split
  · exact h
  · exact h.congr rfl rfl rfl (deliveries_cons_returned _ _ _)
  · exact h.congr rfl rfl rfl rfl

/-- Every effect of a micro-transition keeps the outputs on the way (R128, R130). -/
theorem OnTrack.micro {f q : List Byte} {r : MicroResult} {m : State} (h : BlockInv s)
    (hmax : 65540 ≤ s.cfg.pktMax) (hf : s.fault = 0) (hframe : assembled s = .ok f)
    (hring : ringContents s = .ok q)
    (hrec : deliveries s.events ++ recordsOf (f ++ (q ++ future)) = recordsOf stream)
    (hres : (parse (f ++ (q ++ future))).2 = (parse stream).2) (hm : MicroEffect s f q r m) :
    OnTrack stream future m := by
  cases hm with
  | needMore frame empty _ no_fault events =>
    have hsplit : (f ++ q) ++ ([] ++ future) = f ++ (q ++ future) := by simp
    exact .going (f ++ q) [] no_fault frame (ringContents_of_empty empty) (by rw [events, hsplit, hrec])
      (by rw [hsplit, hres])
  | progress n frame ring no_fault events _ =>
    have hsplit : (f ++ q.take n) ++ (q.drop n ++ future) = f ++ (q ++ future) := by
      rw [List.append_assoc, ← List.append_assoc (q.take n), List.take_append_drop]
    exact .going _ _ no_fault frame ring (by rw [events, hsplit, hrec]) (by rw [hsplit, hres])
  | deliver complete =>
    obtain ⟨raw, pre, payload, hraw, hparts⟩ := h.frameParts_of_complete complete
    obtain rfl : f = raw := Except.ok.inj (hframe.symm.trans hraw)
    obtain ⟨hfirst, hrest⟩ := hparts.recordsOf_append (q ++ future)
    refine .going [] q hf rfl hring ?_ (hrest.symm.trans hres)
    rw [← hrec, hfirst]
    simp [completeFrame]
  | badType t rest idle hq bad =>
    obtain rfl : f = [] := by simpa [assembled, State.pktLen, idle, readPkt] using hframe.symm
    subst hq
    have hparse := parse_of_badType (rest ++ future) bad
    rw [List.nil_append, List.cons_append] at hrec hres
    refine .halted (State.raise_fault_ne _ _) ?_ ⟨t, _, hres.symm.trans (by rw [hparse])⟩
    have hnone : recordsOf (t :: (rest ++ future)) = [] := by simp [recordsOf, hparse]
    exact (List.append_nil _).symm.trans (hnone ▸ hrec)
  | tooLong small => omega

/-- Every pass of the consumer keeps the outputs on the way. -/
theorem OnTrack.pass (h : Inv s) (ha : s.active ≠ .idle) (ho : s.lkOpen = true)
    (hmax : 65540 ≤ s.cfg.pktMax) (htrack : OnTrack stream future s) (hp : consumerPass s = .next t) :
    OnTrack stream future t := by
  rcases consumerPass_cases hp with ⟨hidle, -⟩ | ⟨-, hclosed, -⟩ | ⟨-, -, -, rfl⟩ | ⟨-, -, hf, r, m, hm, hend⟩
  · exact absurd hidle ha
  · simp [ho] at hclosed
  · exact htrack.finishConsumer .fault
  · cases htrack with
    | halted fault => exact absurd hf fault
    | going f q _ hframe hring hrec hres =>
      have hmicro := OnTrack.micro h.toBlockInv hmax hf hframe hring hrec hres
        (h.micro_effect hf hframe hring hm)
      rcases hend with ⟨-, rfl⟩ | ⟨-, rfl⟩ | ⟨-, rfl⟩ | ⟨-, rfl⟩
      · exact hmicro
      · exact hmicro.countPacket
      · exact hmicro.finishConsumer .needMore
      · exact hmicro.finishConsumer .fault

/-- An accepted byte moves from those to come to those held (R100); once halted nothing more is
delivered (R125). -/
theorem OnTrack.push {b : Byte} (h : RingInv s) (ho : s.lkOpen = true)
    (hroom : s.fault = 0 → s.avail < s.cfg.cap) (htrack : OnTrack stream (b :: future) s) :
    OnTrack stream future (pushByte b s).2 ∧
      ((pushByte b s).2.fault = 0 → s.fault = 0 ∧ (pushByte b s).2.avail = s.avail + 1) := by
  cases htrack with
  | going f q no_fault frame ring records residue =>
    have hfull : s.isFull = false := by
      rw [← Bool.not_eq_true, h.isFull_iff]
      have hspace := hroom no_fault
      omega
    have hpush : pushByte b s = (.ok, s.append b) := by
      simp [pushByte, ho, State.idxCorrupt_false h.wr_lt h.rd_lt, hfull]
    have hsplit : f ++ ((q ++ [b]) ++ future) = f ++ (q ++ b :: future) := by simp
    rw [hpush]
    exact ⟨.going f (q ++ [b]) no_fault frame (ringContents_append b h hfull ring)
      (hsplit ▸ records) (hsplit ▸ residue), fun _ => ⟨no_fault, (h.push b hfull).2⟩⟩
  | halted fault records residue =>
    have hkept : (pushByte b s).2.fault ≠ 0 ∧ (pushByte b s).2.events = s.events := by
      rcases pushByte_cases b s with ⟨-, e⟩ | ⟨-, -, e⟩ | ⟨-, -, -, e⟩ | ⟨-, -, -, e⟩ <;> rw [e]
      · exact ⟨fault, rfl⟩
      · exact ⟨State.raise_fault_ne _ _, rfl⟩
      · exact ⟨State.raise_fault_ne _ _, rfl⟩
      · exact ⟨fault, rfl⟩
    exact ⟨.halted hkept.1 (hkept.2 ▸ records) residue, fun h0 => absurd h0 hkept.1⟩

end

/-! ### Runs of FEEDs and DRAINs (R92, R168, R169) -/

/-- An open block without an operation of the consumer in progress, of configuration `c`, with moves `ms`
in store and the `FEED` in progress `f`. -/
structure Ready (c : Config) (ms : List Move) (f : Option FeedProgress) (s : State) : Prop where
  inv : Inv s
  cfg : s.cfg = c
  is_open : s.lkOpen = true
  idle : s.active = .idle
  feeding : s.feeding = f
  moves : s.moves = ms

/-- Without a fault the ring is empty, as a DRAIN leaves it. -/
def Emptied (s : State) : Prop := s.fault = 0 → s.avail = 0

section
variable {c : Config} {ms : List Move} {s : State} {stream future : List Byte}

/-- An `await` that need not wait is used up. -/
theorem Ready.await {t : State} {n : Nat} (h : Ready c (.await :: ms) none t)
    (hrun : Sys2Proof.core.run n s = .next t) :
    Sys2Proof.core.run (n + 1) s = .next { t with moves := ms } ∧ Ready c ms none { t with moves := ms } := by
  obtain ⟨hinv, hcfg, ho, ha, hfeed, hm⟩ := h
  refine ⟨?_, hinv.withMoves ms, hcfg, ho, ha, hfeed, rfl⟩
  have hstep : step t = .next { t with moves := ms } :=
    step_of_free hm (by simp [Move.needs_await, State.busy, ha, hfeed])
  exact (run_add Sys2Proof.core n 1 hrun).trans (run_next Sys2Proof.core 0 hstep)

/-- While a FEED runs a step is its next transition (R9). -/
theorem Ready.step_feeding {f : FeedProgress} (h : Ready c ms (some f) s) (hms : Lets ms) :
    step s = feedPass s := by
  obtain ⟨-, -, -, ha, hfeed, hm⟩ := h
  rcases hms with rfl | ⟨rest, rfl⟩
  · simp [step_of_no_moves hm, goOn, State.busy, ha, contextPass]
  · exact step_of_busy (c := .producer) hm (by simp [Move.needs_await, State.busy, ha])
      (by simp [State.busy, hfeed])

/-- A FEED of bytes for which the ring has room runs to its end. -/
theorem Ready.run_feed (bytes : List Byte) (accepted : Nat) (h : Ready c ms (some ⟨bytes, accepted⟩) s)
    (hms : Lets ms) (hroom : s.fault = 0 → s.avail + bytes.length ≤ c.cap)
    (htrack : OnTrack stream (bytes ++ future) s) :
    ∃ t, Sys2Proof.core.run (bytes.length + 1) s = .next t ∧ Ready c ms none t ∧ OnTrack stream future t := by
  induction bytes generalizing accepted s with
  | nil =>
    have hpass : feedPass s = .next ({ s with feeding := none }.emit .dataReady |>.emit (.fed accepted)) := by
      simp [feedPass, h.feeding]
    refine ⟨_, run_next Sys2Proof.core 0 ((h.step_feeding hms).trans hpass), ?_, ?_⟩
    · exact ⟨h.inv.feedPass hpass, h.cfg, h.is_open, h.idle, rfl, h.moves⟩
    · exact htrack.congr rfl rfl rfl (by simp [deliveries])
  | cons b rest ih =>
    have hpass : feedPass s = .next ({ (pushByte b s).2 with
        feeding := some ⟨rest, countAccepted accepted (pushByte b s).1⟩ }.ret (.push b) (pushByte b s).1) := by
      simp [feedPass, h.feeding]
    have hkept := (feedPass_frame hpass).1
    obtain ⟨htrack', hav⟩ := htrack.push h.inv.ring h.is_open fun hf => by
      have hspace := hroom hf
      rw [List.length_cons] at hspace
      rw [h.cfg]
      omega
    obtain ⟨t, hrun, hready, hdone⟩ := ih _
      ⟨h.inv.feedPass hpass, by rw [hkept]; exact h.cfg, by rw [hkept]; exact h.is_open,
        by rw [hkept]; exact h.idle, rfl, by rw [hkept]; exact h.moves⟩
      (fun hf => by
        obtain ⟨hf', hav'⟩ := hav hf
        have hspace := hroom hf'
        rw [List.length_cons] at hspace
        show (pushByte b s).2.avail + rest.length ≤ c.cap
        omega)
      (htrack'.congr rfl rfl rfl (deliveries_cons_returned _ _ _))
    exact ⟨t, (run_next Sys2Proof.core _ ((h.step_feeding hms).trans hpass)).trans hrun, hready, hdone⟩

/-- A FEED and the wait for it. -/
theorem Ready.run_feed_await {bytes : List Byte} (h : Ready c (.feed bytes :: .await :: ms) none s)
    (hroom : s.fault = 0 → s.avail + bytes.length ≤ c.cap) (htrack : OnTrack stream (bytes ++ future) s) :
    ∃ n t, Sys2Proof.core.run n s = .next t ∧ Ready c ms none t ∧ OnTrack stream future t := by
  have hfed : Ready c (.await :: ms) (some ⟨bytes, 0⟩)
      { s with moves := .await :: ms, feeding := some ⟨bytes, 0⟩ } :=
    ⟨h.inv.withOutputs _ _ _, h.cfg, h.is_open, h.idle, rfl, rfl⟩
  obtain ⟨t, hrun, hready, hdone⟩ := hfed.run_feed bytes 0 (.inr ⟨ms, rfl⟩) hroom
    (htrack.congr rfl rfl rfl rfl)
  have hstep : step s = step { s with moves := .await :: ms, feeding := some ⟨bytes, 0⟩ } := by
    rw [hfed.step_feeding (.inr ⟨ms, rfl⟩),
      step_of_free h.moves (by simp [Move.needs, State.busy, h.feeding])]
    rfl
  have hbegin : Sys2Proof.core.run (bytes.length + 1) s = Sys2Proof.core.run (bytes.length + 1)
      { s with moves := .await :: ms, feeding := some ⟨bytes, 0⟩ } :=
    run_congr Sys2Proof.core bytes.length hstep
  obtain ⟨hawait, hready'⟩ := hready.await (hbegin.trans hrun)
  exact ⟨_, _, hawait, hready', hdone.congr rfl rfl rfl rfl⟩

/-- An `InData`, the DRAIN it causes and the wait for it. -/
theorem Ready.run_drain_await (h : Ready c (.onIndata :: .await :: ms) none s) (hmax : 65540 ≤ c.pktMax)
    (htrack : OnTrack stream future s) :
    ∃ n t, Sys2Proof.core.run n s = .next t ∧ Ready c ms none t ∧ OnTrack stream future t ∧ Emptied t := by
  obtain ⟨n, t, -, hrun, hinv, hidle, hkept, hstage, -, hdone⟩ :=
    run_draining (s := s) (ms := .await :: ms)
      (P := fun u => (u.cfg = c ∧ u.lkOpen = true) ∧ OnTrack stream future u)
      (fun u v hu hua ⟨⟨hcfg, ho⟩, hu'⟩ hp => by
        have hkept := ProducerKept.of_consumerPass hp
        exact ⟨⟨hkept.cfg.trans hcfg, hkept.lk_open.trans ho⟩, hu'.pass hu hua ho (hcfg ▸ hmax) hp⟩)
      h.inv.toBlockInv h.is_open (.inr ⟨ms, rfl⟩) ⟨⟨h.cfg, h.is_open⟩, htrack.congr rfl rfl rfl rfl⟩
  have hready : Ready c (.await :: ms) none t :=
    ⟨hinv, hkept.cfg.trans h.cfg, hkept.lk_open.trans h.is_open, hidle, hkept.feeding.trans h.feeding,
      hkept.moves⟩
  have hempty : Emptied t := by
    cases hstage with
    | running out _ hdrain => cases hidle.symm.trans hdrain
    | needMore _ _ _ _ _ empty => exact fun _ => empty
    | fault _ _ _ _ fault => exact fun hf => absurd hf fault
  have hbegin := run_begin_drain h.idle (.inl rfl) (.inr ⟨ms, rfl⟩) n
  rw [← h.moves] at hbegin
  obtain ⟨hawait, hready'⟩ := hready.await (hbegin.trans hrun)
  exact ⟨_, _, hawait, hready', hdone.congr rfl rfl rfl rfl, hempty⟩

/-- One FEED and one DRAIN after the other. -/
theorem Ready.run_chunks (chunks : List (List Byte)) (h : Ready c (chunks.flatMap feedAndDrain) none s)
    (hmax : 65540 ≤ c.pktMax) (hfit : ∀ b ∈ chunks, b.length ≤ c.cap) (hempty : Emptied s)
    (htrack : OnTrack stream chunks.flatten s) :
    ∃ n t, Sys2Proof.core.run n s = .next t ∧ Ready c [] none t ∧ OnTrack stream [] t ∧ Emptied t := by
  induction chunks generalizing s with
  | nil => exact ⟨0, s, rfl, h, htrack, hempty⟩
  | cons b chunks ih =>
    obtain ⟨n₁, t₁, hrun₁, h₁, htrack₁⟩ := Ready.run_feed_await (bytes := b) (future := chunks.flatten) h
      (fun hf => by
        rw [hempty hf, Nat.zero_add]
        exact hfit b (by simp)) htrack
    obtain ⟨n₂, t₂, hrun₂, h₂, htrack₂, hempty₂⟩ := h₁.run_drain_await hmax htrack₁
    obtain ⟨n₃, t, hrun₃, h₃⟩ := ih h₂ (fun b' hb => hfit b' (by simp [hb])) hempty₂ htrack₂
    refine ⟨n₁ + (n₂ + n₃), t, ?_, h₃⟩
    rw [run_add Sys2Proof.core _ _ hrun₁, run_add Sys2Proof.core _ _ hrun₂, hrun₃]

end

/-- After reset everything is still to come. -/
theorem OnTrack.of_reset (c : Config) (ms : List Move) (stream : List Byte) :
    OnTrack stream stream { State.resetWith c with moves := ms } :=
  .going [] [] rfl rfl (ringContents_of_empty (State.resetWith_avail c)) rfl rfl

/-- Settles O31: the run keeps its outputs on the way to the records of the whole stream, and at its end
nothing is to come. -/
theorem chunkingDoesNotMatter : Obligations.ChunkingDoesNotMatter := by
  intro c chunks hc hmax hfit
  have hready : Ready c (chunks.flatMap feedAndDrain) none
      { State.resetWith c with moves := chunks.flatMap feedAndDrain } :=
    ⟨(State.resetWith_inv hc).withMoves _, rfl, rfl, rfl, rfl, rfl⟩
  obtain ⟨n, t, hrun, ht, htrack, hempty⟩ := hready.run_chunks chunks hmax hfit
    (fun _ => State.resetWith_avail c) (OnTrack.of_reset c _ chunks.flatten)
  refine ⟨n, t, hrun, ⟨ht.idle, ht.feeding, ht.moves⟩, ?_⟩
  cases htrack with
  | going f q no_fault frame ring records residue =>
    obtain rfl : q = [] := Except.ok.inj (ring.symm.trans (ringContents_of_empty (hempty no_fault)))
    obtain ⟨hnone, hstands⟩ := ht.inv.standsAt ht.idle no_fault (hempty no_fault) frame
    rw [List.nil_append, List.append_nil] at records residue
    refine ⟨?_, fun _ => residue ▸ hstands⟩
    simpa [recordsOf, hnone] using records
  | halted fault records residue =>
    obtain ⟨x, unread, hbad⟩ := residue
    exact ⟨records, fun hgood => absurd hbad (hgood x unread)⟩

end Sys2Proof.Machine
end

section
/-! SUPPORT. The ring's pure functions and the outcomes of PUSH and POP_N: O16, O17, O18, O19. -/

namespace Sys2Proof.Machine

/-! ### The pure functions (R102), for indices in range -/

theorem State.isEmpty_iff_avail {s : State} (hw : s.rbWr < s.slots) (hr : s.rbRd < s.slots) :
    s.isEmpty = true ↔ s.avail = 0 := by
  rw [State.isEmpty, decide_eq_true_eq, State.avail_eq hw hr]
  split <;> omega

/-- `rb_wr` stands just before `rb_rd` when all slots but one are in the window. -/
theorem State.isFull_iff_avail {s : State} (hw : s.rbWr < s.slots) (hr : s.rbRd < s.slots) :
    s.isFull = true ↔ s.avail = s.cfg.cap := by
  have hslots : s.slots = s.cfg.cap + 1 := rfl
  rw [State.isFull, decide_eq_true_eq, State.avail_eq hw hr, State.ringIndex]
  rcases Nat.lt_or_eq_of_le (Nat.succ_le_of_lt hw) with hin | hend
  · rw [Nat.mod_eq_of_lt hin]
    split <;> omega
  · rw [show s.rbWr + 1 = s.slots from hend, Nat.mod_self]
    split <;> omega

theorem State.avail_le_cap {s : State} (hw : s.rbWr < s.slots) (hr : s.rbRd < s.slots) :
    s.avail ≤ s.cfg.cap :=
  Nat.le_of_lt_succ (State.avail_lt hw hr)

/-- Settles O18: the window's length is a remainder mod `N`, and the two ends of its range are the empty
and the full ring. -/
theorem ringOccupancy : Obligations.RingOccupancy := by
  intro s hw hr
  have hle := State.avail_le_cap hw hr
  have hremainder : (s.avail : Int) = ((s.rbWr : Int) - (s.rbRd : Int)) % ((s.cfg.cap : Int) + 1) :=
    Int.toNat_of_nonneg (Int.emod_nonneg _ (by simp [State.slots]; omega))
  exact ⟨hremainder, hle, Nat.sub_add_cancel hle, decide_eq_true_iff, State.isEmpty_iff_avail hw hr,
    decide_eq_true_iff, State.isFull_iff_avail hw hr⟩

/-! ### The outcomes of `PUSH` and `POP_N` (R100, R101) -/

theorem State.idxCorrupt_iff (s : State) :
    s.idxCorrupt = true ↔ s.cfg.cap + 1 ≤ s.rbWr ∨ s.cfg.cap + 1 ≤ s.rbRd := by
  simp [State.idxCorrupt, State.slots]

theorem pushByte_of_closed {s : State} (b : Byte) (ho : s.lkOpen = false) : pushByte b s = (.closed, s) := by
  simp [pushByte, ho]

theorem pushByte_of_corrupt {s : State} (b : Byte) (ho : s.lkOpen = true) (hc : s.idxCorrupt = true) :
    pushByte b s = (.full, s.raise .idxCorrupt) := by
  simp [pushByte, ho, hc]

theorem pushByte_of_full {s : State} (b : Byte) (ho : s.lkOpen = true) (hw : s.rbWr < s.slots)
    (hr : s.rbRd < s.slots) (hf : s.isFull = true) : pushByte b s = (.full, s.raise .rbOverflow) := by
  simp [pushByte, ho, State.idxCorrupt_false hw hr, hf]

theorem pushByte_of_room {s : State} (b : Byte) (ho : s.lkOpen = true) (hw : s.rbWr < s.slots)
    (hr : s.rbRd < s.slots) (hf : s.isFull = false) : pushByte b s = (.ok, s.append b) := by
  simp [pushByte, ho, State.idxCorrupt_false hw hr, hf]

/-- `PUSH` issued by its word is the push on its own, and returns its result (R100). -/
theorem execPush_of_pushByte {s t : State} {b : Byte} {r : Result} (h : pushByte b s = (r, t)) :
    execPush b s = .next (t.ret (.push b) r) := by
  rw [execPush, h]

theorem execPopN_of_closed {s : State} (max : Half) (ho : s.lkOpen = false) :
    execPopN max s = .next (s.ret (.popN max) .closed) := by
  simp [execPopN, ho]

theorem execPopN_of_corrupt {s : State} (max : Half) (ho : s.lkOpen = true) (hc : s.idxCorrupt = true) :
    execPopN max s = .next ((s.raise .idxCorrupt).ret (.popN max) (.popped 0 [])) := by
  simp [execPopN, ho, popBytes_corrupt hc]

/-- Settles O16: the four branches of PUSH, and the law of one write. -/
theorem pushMeaning : Obligations.PushMeaning := by
  intro b s
  refine ⟨fun ho => ?closed, fun ho hc => ?corrupt, fun ho hw hr hf => ?full,
    fun ho hw hr hf => ?room, fun hm a => memRead_memWrite s.rbMem s.rbWr a b hm⟩
  case closed => exact execPush_of_pushByte (pushByte_of_closed b ho)
  case corrupt => exact execPush_of_pushByte (pushByte_of_corrupt b ho (s.idxCorrupt_iff.mpr hc))
  case full => exact execPush_of_pushByte (pushByte_of_full b ho hw hr (decide_eq_true hf))
  case room => exact execPush_of_pushByte (pushByte_of_room b ho hw hr (decide_eq_false hf))

/-- Settles O17: the three branches of POP_N; under the ring's invariant the bytes are a front part of
those the ring holds. -/
theorem popNMeaning : Obligations.PopNMeaning := by
  intro max s
  refine ⟨execPopN_of_closed max, fun ho hc => ?corrupt, fun ho h => ?front⟩
  case corrupt => exact execPopN_of_corrupt max ho (s.idxCorrupt_iff.mpr hc)
  case front =>
    obtain ⟨q, hq⟩ := h.ringContents_total
    obtain ⟨hl, hget⟩ := ringContents_ok_iff.mp hq
    have hcount : (q.take max.toNat).length = min max.toNat s.avail := by rw [List.length_take, hl]
    refine ⟨q.take max.toNat, hcount, fun k hk => ?_, ?_⟩
    · rw [← getElem?_eq_some_getD hk, List.getElem?_take_of_lt (by omega)]
      exact hget k (by omega)
    · rw [hcount]
      exact hcount ▸ execPopN_eq h ho hq max

/-! ### `avail` (R103) -/

/-- Settles O19: one byte joins the window or none, and POP_N takes the window's front. -/
theorem pushAndPopMoveAvail : Obligations.PushAndPopMoveAvail := by
  intro s h ho
  refine ⟨fun b => ?push, fun max => ?pop⟩
  case push =>
    cases hf : s.isFull with
    | true =>
      exact ⟨_, .full, execPush_of_full b h ho hf, rfl, h.congr rfl rfl rfl rfl,
        .inr ⟨rfl, rfl, h.isFull_iff.mp hf⟩⟩
    | false =>
      obtain ⟨hring, hav⟩ := h.push b hf
      exact ⟨_, .ok, execPush_of_room b h ho hf, rfl, hring.congr rfl rfl rfl rfl, .inl ⟨rfl, hav⟩⟩
  case pop =>
    obtain ⟨q, hq⟩ := h.ringContents_total
    obtain ⟨hring, hav⟩ := h.pop (t := s.advance (min max.toNat s.avail)) _ (Nat.min_le_right _ _)
      rfl rfl rfl rfl
    refine ⟨_, q.take max.toNat, execPopN_eq h ho hq max, rfl, hring.congr rfl rfl rfl rfl, ?_⟩
    rw [State.ret_avail, hav, List.length_take, (ringContents_ok_iff.mp hq).1]
    omega

end Sys2Proof.Machine
end

section
/-! SUPPORT. When a second operation of the consumer is refused, and that no step asks for one:
O14, O27. -/

namespace Sys2Proof.Machine

/-- A transition is not refused. -/
def Unrefused (o : Outcome) : Prop := ∀ r, o ≠ .refused r

theorem Unrefused.next (t : State) : Unrefused (.next t) := fun _ h => by cases h

theorem Unrefused.fault (f : Fault) : Unrefused (.fault f) := fun _ h => by cases h

theorem Answers.unrefused {o : Outcome} (h : Answers o) : Unrefused o := by
  obtain ⟨t, rfl⟩ := h
  exact .next t

/-- A pass of an operation already in progress asks for no second one (R126, R127). -/
theorem consumerPass_unrefused (s : State) : Unrefused (consumerPass s) := by
  unfold consumerPass
  split
  · exact .next _
  · split
    · exact .next _
    · split
      · exact .next _
      · split
        · exact .fault _
        all_goals exact .next _

theorem contextPass_unrefused (c : Context) (s : State) : Unrefused (contextPass c s) := by
  cases c with
  | producer => exact (feedPass_answers s).unrefused
  | consumer => exact consumerPass_unrefused s

theorem beginConsumer_unrefused {s : State} (op : ConsumerOp) (ha : s.active = .idle) :
    Unrefused (beginConsumer op s) := by
  rw [beginConsumer_of_idle op ha]
  exact consumerPass_unrefused _

theorem execPopN_unrefused (max : Half) (s : State) : Unrefused (execPopN max s) := by
  unfold execPopN
  split
  · exact .next _
  · split
    · exact .fault _
    · exact .next _

/-- No instruction is refused where the consumer is free, if it is the consumer's. -/
theorem exec_unrefused (i : Instr) {s : State}
    (hfree : issuer i = some .consumer → s.busy .consumer = false) : Unrefused (exec i s) := by
  have ha : issuer i = some .consumer → s.active = .idle := fun hi => by
    simpa [State.busy] using hfree hi
  cases i with
  | push b => exact .next _
  | popN max => exact execPopN_unrefused max s
  | step => exact beginConsumer_unrefused .step (ha rfl)
  | drain => exact beginConsumer_unrefused (.drain 0) (ha rfl)
  | classify o => exact .next _
  | resetLink =>
    simp only [exec, execResetLink]
    split <;> exact .next _
  | exit =>
    simp only [exec, execExit]
    split <;> exact .next _
  | h4Command o p => exact (execFrame_answers .command (serCommand o p) s).unrefused
  | h4Acl f p => exact (execFrame_answers .acl (serAcl f p) s).unrefused
  | h4Sco f p => exact (execFrame_answers .sco (serSco f p) s).unrefused
  | h4Event e p => exact (execFrame_answers .event (serEvent e p) s).unrefused

/-- A move that need not wait finds its context free, so it is not refused. -/
theorem perform_unrefused {m : Move} {s : State} (hw : m.waitsFor s = none) (ms : List Move) :
    Unrefused (perform m { s with moves := ms }) := by
  cases m with
  | issue w =>
    simp only [perform, issueWord]
    cases hd : decodeOp w with
    | error e => exact .next _
    | ok i => exact exec_unrefused i fun hi => Move.free_of_waitsFor hw ((Move.needs_issue hd).trans hi)
  | feed bytes => exact (feedPass_answers _).unrefused
  | onIndata => exact exec_unrefused .drain fun _ => Move.free_of_waitsFor hw rfl
  | linkOpen c => exact .next _
  | turn c => exact contextPass_unrefused c _
  | await => exact .next _

/-- Settles O14: a step is a pass of an operation in progress, or a move that finds its context free. -/
theorem noStepIsRefused : Obligations.NoStepIsRefused := by
  intro s
  show Unrefused (step s)
  unfold step runNext
  split
  · unfold goOn
    split <;> exact contextPass_unrefused _ s
  · split
    · exact contextPass_unrefused _ s
    · exact perform_unrefused ‹_› _

/-- Settles O27: STEP and DRAIN begin with the test whether the consumer is free. -/
theorem secondConsumerRefused : Obligations.SecondConsumerRefused := fun _ ha => ⟨if_neg ha, if_neg ha⟩

end Sys2Proof.Machine
end

section
/-! SUPPORT. What a pass of the consumer does with the stream the block holds: O33. -/

namespace Sys2Proof.Machine

/-- The same bytes held, the same fault and the same packets delivered. -/
structure SameStream (s t : State) : Prop where
  frame : assembled t = assembled s
  ring : ringContents t = ringContents s
  fault : t.fault = s.fault
  delivered : deliveries t.events = deliveries s.events

theorem SameStream.refl (s : State) : SameStream s s := ⟨rfl, rfl, rfl, rfl⟩

theorem sameStream_finishConsumer (s : State) (why : DrainEnd) : SameStream s (finishConsumer s why) := by
  unfold finishConsumer
  split
  · exact .refl s
  · exact ⟨rfl, rfl, rfl, deliveries_cons_returned _ _ _⟩
  · exact ⟨rfl, rfl, rfl, deliveries_cons_returned _ _ _⟩

theorem sameStream_closeConsumer (s : State) : SameStream s (closeConsumer s) := by
  unfold closeConsumer
  split
  · exact .refl s
  · exact ⟨rfl, rfl, rfl, deliveries_cons_returned _ _ _⟩
  · exact ⟨rfl, rfl, rfl, deliveries_cons_returned _ _ _⟩

theorem sameStream_countPacket (s : State) : SameStream s (countPacket s) := by
  unfold countPacket
  split
  · exact .refl s
  · exact ⟨rfl, rfl, rfl, deliveries_cons_returned _ _ _⟩
  · exact ⟨rfl, rfl, rfl, rfl⟩

theorem Holds.congr {s t : State} {stream : List Byte} (h : Holds s stream) (hst : SameStream s t) :
    Holds t stream := by
  obtain ⟨f, q, hframe, hring, rfl⟩ := h
  exact ⟨f, q, hst.frame.trans hframe, hst.ring.trans hring, rfl⟩

/-- From `s`, which held `stream`, to `t` no byte is lost: `t` holds the stream, or what follows the one
packet delivered (R128). -/
def NothingLost (s : State) (stream : List Byte) (t : State) : Prop :=
  (Holds t stream ∧ deliveries t.events = deliveries s.events) ∨
  (∃ p rest, stream = p.raw ++ rest ∧ Holds t rest ∧
    deliveries t.events = deliveries s.events ++ [p])

theorem NothingLost.congr {s m t : State} {stream : List Byte} (h : NothingLost s stream m)
    (hmt : SameStream m t) : NothingLost s stream t := by
  rcases h with ⟨hholds, hnone⟩ | ⟨p, rest, hsplit, hholds, hone⟩
  · exact .inl ⟨hholds.congr hmt, hmt.delivered.trans hnone⟩
  · exact .inr ⟨p, rest, hsplit, hholds.congr hmt, hmt.delivered.trans hone⟩

/-- A micro-transition that leaves no fault moves bytes from the ring to the frame, or delivers the
frame (R121 to R124). -/
theorem MicroEffect.nothingLost {s m : State} {f q : List Byte} {r : MicroResult}
    (h : MicroEffect s f q r m) (hq : ringContents s = .ok q) (hm : m.fault = 0) :
    NothingLost s (f ++ q) m := by
  cases h with
  | needMore frame empty _ _ events =>
    exact .inl ⟨⟨f ++ q, [], frame, ringContents_of_empty empty, by simp⟩, congrArg deliveries events⟩
  | progress n frame ring _ events _ =>
    exact .inl ⟨⟨f ++ q.take n, q.drop n, frame, ring, by simp⟩, congrArg deliveries events⟩
  | deliver _ =>
    exact .inr ⟨packetOf s.dfKind f, q, rfl, ⟨[], q, rfl, hq, rfl⟩, deliveries_cons_deliver _ _⟩
  | badType t rest _ _ _ => exact absurd hm (State.raise_fault_ne _ _)
  | tooLong _ fault _ => exact absurd hm fault

/-- Settles O33: a pass that makes no micro-transition leaves the stream, and what follows a
micro-transition only returns a result. -/
theorem noByteIsLost : Obligations.NoByteIsLost := by
  intro s t stream h hholds hp hf
  show NothingLost s stream t
  have hkept : SameStream s t → NothingLost s stream t := NothingLost.congr (.inl ⟨hholds, rfl⟩)
  rcases consumerPass_cases hp with ⟨-, rfl⟩ | ⟨-, -, rfl⟩ | ⟨-, -, -, rfl⟩ | ⟨-, -, hf₀, r, m, hm, hend⟩
  · exact hkept (.refl _)
  · exact hkept (sameStream_closeConsumer s)
  · exact hkept (sameStream_finishConsumer s .fault)
  · have hmt : SameStream m t := by
      rcases hend with ⟨-, rfl⟩ | ⟨-, rfl⟩ | ⟨-, rfl⟩ | ⟨-, rfl⟩
      · exact .refl _
      · exact sameStream_countPacket m
      · exact sameStream_finishConsumer m .needMore
      · exact sameStream_finishConsumer m .fault
    obtain ⟨f, q, hframe, hq, rfl⟩ := hholds
    have heffect := h.micro_effect hf₀ hframe hq hm
    exact (heffect.nothingLost hq (hmt.fault.symm.trans hf)).congr hmt

end Sys2Proof.Machine
end

section
/-! SUPPORT. A FEED by itself, transition by transition: O51. -/

namespace Sys2Proof.Machine

/-! ### The transitions of a FEED (R168) -/

/-- With no operation of the consumer in progress and no move in store a step is the producer's next
transition (R9). -/
theorem step_of_producer {s : State} (hm : s.moves = []) (ha : s.active = .idle) : step s = feedPass s := by
  simp [step_of_no_moves hm, goOn, State.busy, ha, contextPass]

/-- The `FEED` in progress of `s` has `rest` still to offer, and the block does nothing else. -/
structure Offering (s : State) (rest : List Byte) (accepted : Nat) : Prop where
  idle : s.active = .idle
  moves : s.moves = []
  feeding : s.feeding = some ⟨rest, accepted⟩

/-- The state after the `FEED` in progress has offered `b`, with `rest` still to offer. -/
def State.offered (s : State) (b : Byte) (rest : List Byte) (accepted : Nat) : State :=
  { (pushByte b s).2 with feeding := some ⟨rest, countAccepted accepted (pushByte b s).1⟩ }.ret
    (.push b) (pushByte b s).1

/-- The state after the `FEED` in progress has ended. -/
def State.fed (s : State) (accepted : Nat) : State :=
  ({ s with feeding := none }.emit .dataReady).emit (.fed accepted)

section
variable {s : State} {b : Byte} {rest : List Byte} {accepted : Nat}

theorem Offering.step_push (h : Offering s (b :: rest) accepted) :
    step s = .next (s.offered b rest accepted) := by
  simp [step_of_producer h.moves h.idle, feedPass, h.feeding, State.offered]

theorem Offering.step_end (h : Offering s [] accepted) : step s = .next (s.fed accepted) := by
  simp [step_of_producer h.moves h.idle, feedPass, h.feeding, State.fed]

/-- After one byte the FEED offers the others, whatever became of the one (R168). -/
theorem Offering.offered (h : Offering s (b :: rest) accepted) :
    Offering (s.offered b rest accepted) rest (countAccepted accepted (pushByte b s).1) := by
  have hkept : (pushByte b s).2.active = s.active ∧ (pushByte b s).2.moves = s.moves := by
    rcases pushByte_cases b s with ⟨-, e⟩ | ⟨-, -, e⟩ | ⟨-, -, -, e⟩ | ⟨-, -, -, e⟩ <;>
      simp [e]
  exact ⟨hkept.1.trans h.idle, hkept.2.trans h.moves, rfl⟩

end

/-! ### The run of a FEED -/

/-- Until one transition after its last `PUSH` the FEED is in progress (R168). -/
theorem Offering.run_before_end {n accepted : Nat} {s : State} {rest : List Byte}
    (h : Offering s rest accepted) (hn : n ≤ rest.length) :
    ∃ u, Sys2Proof.core.run n s = .next u ∧ ¬ AtEnd u := by
  induction n generalizing s rest accepted with
  | zero => exact ⟨s, rfl, fun ⟨_, hnone, _⟩ => by cases hnone.symm.trans h.feeding⟩
  | succ n ih =>
    cases rest with
    | nil => simp at hn
    | cons b rest =>
      obtain ⟨u, hrun, hu⟩ := ih h.offered (by simpa using hn)
      exact ⟨u, (run_next Sys2Proof.core n h.step_push).trans hrun, hu⟩

/-- A FEED on a closed link (R168, R172). -/
theorem Offering.run_closed {s : State} {bytes : List Byte} {accepted : Nat}
    (h : Offering s bytes accepted) (ho : s.lkOpen = false) :
    Sys2Proof.core.run (bytes.length + 1) s = .next { s with
      feeding := none
      events := .fed accepted :: .dataReady ::
        ((bytes.map fun b => Event.returned (.push b) .closed).reverse ++ s.events) } := by
  induction bytes generalizing s with
  | nil => exact run_next Sys2Proof.core 0 h.step_end
  | cons b rest ih =>
    have hpush := pushByte_of_closed b ho
    have hnext := h.offered
    rw [hpush] at hnext
    have heq : s.offered b rest accepted = { s with
        feeding := some ⟨rest, accepted⟩, events := .returned (.push b) .closed :: s.events } := by
      simp [State.offered, hpush, countAccepted, State.ret, State.emit]
    rw [List.length_cons, run_next Sys2Proof.core _ h.step_push, ih hnext (by rw [heq]; exact ho), heq]
    simp

/-- What a FEED of `bytes` on an open link, begun in `s` after `accepted` others, has done when it is over
in `t`: the first bytes were accepted as long as there was room, the rest refused (R100, R168). -/
structure FeedDone (s : State) (bytes : List Byte) (accepted : Nat) (t : State) : Prop where
  events : t.events =
    .fed (accepted + min bytes.length s.free) :: .dataReady ::
      (((bytes.drop s.free).map fun b => Event.returned (.push b) .full).reverse ++
        ((bytes.take s.free).map fun b => Event.returned (.push b) .ok).reverse ++ s.events)
  fault : t.fault = if bytes.length ≤ s.free then s.fault else s.fault ||| 0b0010#4
  rb_rd : t.rbRd = s.rbRd
  ring : ∀ q, ringContents s = .ok q → ringContents t = .ok (q ++ bytes.take s.free)

section
variable {s t u : State} {f : Option FeedProgress} {b : Byte} {rest : List Byte} {accepted : Nat}

theorem feedDone_nil (s : State) (accepted : Nat) : FeedDone s [] accepted (s.fed accepted) where
  events := by simp [State.fed]
  fault := by simp [State.fed]
  rb_rd := rfl
  ring := fun q hq => by
    rw [List.take_nil, List.append_nil]
    exact hq

/-- A byte refused by a full ring, and then the rest (R182). -/
theorem FeedDone.of_full (hfree : s.free = 0)
    (hu : u = { s.raise .rbOverflow with feeding := f }.ret (.push b) .full)
    (h : FeedDone u rest accepted t) : FeedDone s (b :: rest) accepted t := by
  obtain ⟨hev, hfault, hrd, hring⟩ := h
  have hfree' : u.free = 0 := by rw [hu]; exact hfree
  have hraised : u.fault = s.fault ||| 0b0010#4 := by rw [hu]; rfl
  have hev' : u.events = .returned (.push b) .full :: s.events := by rw [hu]; rfl
  rw [hfree'] at hev hfault hring
  refine ⟨?_, ?_, hrd.trans (by rw [hu]; rfl), fun q hq => ?_⟩
  · rw [hev, hfree, hev']
    simp
  · rw [hfault, hraised, BitVec.or_assoc, BitVec.or_self, ite_self, if_neg (by simp [hfree])]
  · rw [hfree]
    exact hring q (by rw [hu]; exact hq)

/-- A byte accepted, and then the rest (R100). -/
theorem FeedDone.of_room (hinv : RingInv s) (hf : s.isFull = false)
    (hu : u = { s.append b with feeding := f }.ret (.push b) .ok)
    (h : FeedDone u rest (accepted + 1) t) : FeedDone s (b :: rest) accepted t := by
  obtain ⟨hev, hfault, hrd, hring⟩ := h
  obtain ⟨hinv', hav⟩ := hinv.push b hf
  have hle : (s.append b).avail ≤ s.cfg.cap := State.avail_le_cap hinv'.wr_lt hinv'.rd_lt
  have hfree : s.free = u.free + 1 := by
    rw [show u.free = s.cfg.cap - (s.append b).avail by rw [hu]; rfl, State.free]
    omega
  have hkept : u.fault = s.fault := by rw [hu]; rfl
  have hev' : u.events = .returned (.push b) .ok :: s.events := by rw [hu]; rfl
  refine ⟨?_, ?_, hrd.trans (by rw [hu]; rfl), fun q hq => ?_⟩
  · rw [hev, hfree, hev']
    simp [Nat.add_min_add_right, Nat.add_assoc, Nat.add_comm 1]
  · simp only [hfault, hkept, hfree, List.length_cons, Nat.add_le_add_iff_right]
  · have hq' : ringContents u = .ok (q ++ [b]) := by
      rw [hu]
      exact ringContents_append b hinv hf hq
    rw [hring _ hq', hfree]
    simp

end

/-- A FEED on an open link (R168). -/
theorem Offering.run_open {s : State} {bytes : List Byte} {accepted : Nat}
    (h : Offering s bytes accepted) (hinv : RingInv s) (ho : s.lkOpen = true) :
    ∃ t, Sys2Proof.core.run (bytes.length + 1) s = .next t ∧ AtEnd t ∧ FeedDone s bytes accepted t := by
  induction bytes generalizing s accepted with
  | nil =>
    exact ⟨_, run_next Sys2Proof.core 0 h.step_end, ⟨h.idle, rfl, h.moves⟩, feedDone_nil s accepted⟩
  | cons b rest ih =>
    have hnext := h.offered
    have hrun := run_next Sys2Proof.core (rest.length + 1) h.step_push
    cases hf : s.isFull with
    | true =>
      have hfree : s.free = 0 := by rw [State.free, hinv.isFull_iff.mp hf, Nat.sub_self]
      have hpush := pushByte_of_full b ho hinv.wr_lt hinv.rd_lt hf
      have heq : s.offered b rest accepted =
          { s.raise .rbOverflow with feeding := some ⟨rest, accepted⟩ }.ret (.push b) .full := by
        simp [State.offered, hpush, countAccepted]
      rw [hpush] at hnext
      obtain ⟨t, hrest, hend, hdone⟩ := ih hnext (heq ▸ hinv.congr rfl rfl rfl rfl) (heq ▸ ho)
      exact ⟨t, hrun.trans hrest, hend, hdone.of_full hfree heq⟩
    | false =>
      have hpush := pushByte_of_room b ho hinv.wr_lt hinv.rd_lt hf
      have heq : s.offered b rest accepted =
          { s.append b with feeding := some ⟨rest, accepted + 1⟩ }.ret (.push b) .ok := by
        simp [State.offered, hpush, countAccepted]
      rw [hpush] at hnext
      obtain ⟨t, hrest, hend, hdone⟩ :=
        ih hnext (heq ▸ (hinv.push b hf).1.congr rfl rfl rfl rfl) (heq ▸ ho)
      exact ⟨t, hrun.trans hrest, hend, hdone.of_room hinv hf heq⟩

/-- `s` with a FEED of `bytes` in progress that has offered nothing yet. -/
def State.feedBegun (s : State) (bytes : List Byte) : State :=
  { s with moves := [], feeding := some ⟨bytes, 0⟩ }

theorem offering_feedBegun {s : State} (ha : s.active = .idle) (bytes : List Byte) :
    Offering (s.feedBegun bytes) bytes 0 := ⟨ha, rfl, rfl⟩

/-- A FEED asked for is its transitions (R9, R168). -/
theorem run_begin_feed {s : State} (ha : s.active = .idle) (hfeed : s.feeding = none) (bytes : List Byte)
    (n : Nat) :
    Sys2Proof.core.run (n + 1) { s with moves := [.feed bytes] } =
      Sys2Proof.core.run (n + 1) (s.feedBegun bytes) := by
  have hpass : step (s.feedBegun bytes) = feedPass (s.feedBegun bytes) := step_of_producer rfl ha
  have hmove : step { s with moves := [.feed bytes] } = feedPass (s.feedBegun bytes) := by
    rw [step_of_free rfl (by simp [Move.needs, State.busy, hfeed])]
    rfl
  exact run_congr Sys2Proof.core n (hmove.trans hpass.symm)

/-- Settles O51: byte by byte, each accepted while there is room; before the end the FEED is in
progress. -/
theorem feedRun : Obligations.FeedRun := by
  intro s bytes hinv ha hfeed
  have hoffering := offering_feedBegun ha bytes
  refine ⟨fun n hn => ?before, ?complete⟩
  case before =>
    cases n with
    | zero => exact ⟨_, rfl, fun ⟨_, _, hmoves⟩ => by cases hmoves⟩
    | succ n =>
      rw [run_begin_feed ha hfeed]
      exact hoffering.run_before_end hn
  case complete =>
    rw [run_begin_feed ha hfeed]
    by_cases ho : s.lkOpen = true
    · obtain ⟨t, hrun, hend, hdone⟩ := hoffering.run_open (hinv.congr rfl rfl rfl rfl) ho
      have hev := hdone.events
      rw [Nat.zero_add] at hev
      exact ⟨t, hrun, hend, fun _ => ⟨hev, hdone.fault, hdone.rb_rd, hdone.ring⟩,
        fun hc => by simp [ho] at hc⟩
    · have hclosed : s.lkOpen = false := by simpa using ho
      exact ⟨_, hoffering.run_closed hclosed, ⟨ha, rfl, rfl⟩, fun hc => absurd hc ho,
        fun _ => by simp [State.feedBegun, hfeed]⟩

end Sys2Proof.Machine
end

section
/-! SUPPORT. A DRAIN delivers the packets of the stream that the block holds: O30. -/

namespace Sys2Proof.Machine

/-! ### Records and frames (R94, R129) -/

/-- What is read off a stream has a record. -/
theorem frameRecord_of_decodeFrame {bytes rest : List Byte} {i : Instr}
    (h : decodeFrame bytes = .ok (i, rest)) : ∃ p, frameRecord i = some p := by
  obtain ⟨k, raw, pre, payload, hparts, rfl, -⟩ := frameParts_of_decodeFrame h
  exact ⟨_, frameRecord_of_encode hparts.encode_eq⟩

/-- A stream has as many records as frames. -/
theorem length_recordsOf (stream : List Byte) : (recordsOf stream).length = (parse stream).1.length := by
  have hupTo : ∀ n bytes,
      ((parseUpTo n bytes).1.filterMap frameRecord).length = (parseUpTo n bytes).1.length := by
    intro n
    induction n with
    | zero => exact fun _ => rfl
    | succ n ih =>
      intro bytes
      cases hd : decodeFrame bytes with
      | error e => cases e <;> simp [parseUpTo, hd]
      | ok r =>
        obtain ⟨i, rest⟩ := r
        obtain ⟨p, hp⟩ := frameRecord_of_decodeFrame hd
        simp [parseUpTo, hd, hp, ih]
  exact hupTo _ _

/-- Outputs that are all packets count as many deliveries. -/
theorem length_deliveries {out : List Event} (h : ∀ e ∈ out, ∃ p, e = .deliver p) :
    (deliveries out).length = out.length := by
  induction out with
  | nil => rfl
  | cons e out ih =>
    obtain ⟨p, rfl⟩ := h e (by simp)
    simp [ih fun e he => h e (by simp [he])]

/-! ### What the passes of a DRAIN keep (R128 to R130) -/

/-- Between the packets delivered and those of the bytes held, `all` are delivered in the end and the
deframer stands at `residue`; once halted both are so. -/
inductive Drains (all : List RawPacket) (residue : Residue) (s : State) : Prop where
  | going (held : List Byte) (no_fault : s.fault = 0) (holds : Holds s held)
      (records : deliveries s.events ++ recordsOf held = all) (rest : (parse held).2 = residue)
  | halted (fault : s.fault ≠ 0) (records : deliveries s.events = all) (stands : StandsAt s residue)

section
variable {all : List RawPacket} {residue : Residue} {s t : State}

theorem Drains.finishConsumer (h : Drains all residue s) (why : DrainEnd) :
    Drains all residue (finishConsumer s why) := by
  have hsame := sameStream_finishConsumer s why
  cases h with
  | going held no_fault holds records rest =>
    exact .going held (hsame.fault.trans no_fault) (holds.congr hsame) (hsame.delivered ▸ records) rest
  | halted fault records stands =>
    refine .halted (hsame.fault ▸ fault) (hsame.delivered.trans records) ?_
    obtain ⟨es, op, heq⟩ := finishConsumer_eq s why
    exact heq ▸ stands

theorem Drains.countPacket (h : Drains all residue s) : Drains all residue (countPacket s) := by
  have hsame := sameStream_countPacket s
  cases h with
  | going held no_fault holds records rest =>
    exact .going held (hsame.fault.trans no_fault) (holds.congr hsame) (hsame.delivered ▸ records) rest
  | halted fault records stands =>
    refine .halted (hsame.fault ▸ fault) (hsame.delivered.trans records) ?_
    obtain ⟨es, op, heq⟩ := countPacket_eq s
    exact heq ▸ stands

/-- Every effect of a micro-transition keeps it: bytes move from the ring to the frame, a whole frame is
the first of the stream held, and a bad type byte is where `parse` ends. -/
theorem Drains.micro {f q : List Byte} {r : MicroResult} {m : State} (h : BlockInv s)
    (hmax : 65540 ≤ s.cfg.pktMax) (hf : s.fault = 0) (hframe : assembled s = .ok f)
    (hq : ringContents s = .ok q) (hrec : deliveries s.events ++ recordsOf (f ++ q) = all)
    (hres : (parse (f ++ q)).2 = residue) (hm : MicroEffect s f q r m) : Drains all residue m := by
  cases hm with
  | needMore frame empty _ no_fault events =>
    exact .going (f ++ q) no_fault ⟨f ++ q, [], frame, ringContents_of_empty empty, by simp⟩
      (events ▸ hrec) hres
  | progress n frame ring no_fault events _ =>
    exact .going (f ++ q) no_fault ⟨f ++ q.take n, q.drop n, frame, ring, by simp⟩ (events ▸ hrec) hres
  | deliver complete =>
    obtain ⟨raw, pre, payload, hraw, hparts⟩ := h.frameParts_of_complete complete
    obtain rfl : f = raw := Except.ok.inj (hframe.symm.trans hraw)
    obtain ⟨hfirst, hrest⟩ := hparts.recordsOf_append q
    refine .going q hf ⟨[], q, rfl, hq, rfl⟩ ?_ (hrest.symm.trans hres)
    rw [← hrec, hfirst]
    simp [completeFrame]
  | badType t rest idle ring bad =>
    obtain rfl : f = [] := by simpa [assembled, State.pktLen, idle, readPkt] using hframe.symm
    subst ring
    have hav : 1 ≤ s.avail := by
      rw [← (ringContents_ok_iff.mp hq).1]
      simp
    have hparse := parse_of_badType rest bad
    rw [List.nil_append, hparse] at hres
    rw [List.nil_append, recordsOf, hparse, List.filterMap_nil, List.append_nil] at hrec
    have hunread : ringContents (s.advance 1) = .ok rest := ringContents_advance h.ring hq hav
    exact .halted (State.raise_fault_ne _ _) hrec
      (hres ▸ ⟨State.faultBit_raise_self _ (.badType t), idle, rfl, hunread⟩)
  | tooLong small => omega

/-- Every pass of the consumer on an open link keeps it. -/
theorem Drains.pass (h : Inv s) (ha : s.active ≠ .idle) (ho : s.lkOpen = true)
    (hmax : 65540 ≤ s.cfg.pktMax) (hs : Drains all residue s) (hp : consumerPass s = .next t) :
    Drains all residue t := by
  rcases consumerPass_cases hp with ⟨hidle, -⟩ | ⟨-, hclosed, -⟩ | ⟨-, -, -, rfl⟩ |
    ⟨-, -, hf, r, m, hm, hend⟩
  · exact absurd hidle ha
  · simp [ho] at hclosed
  · exact hs.finishConsumer .fault
  · cases hs with
    | halted fault => exact absurd hf fault
    | going held _ holds records rest =>
      obtain ⟨f, q, hframe, hq, rfl⟩ := holds
      have hmicro := Drains.micro h.toBlockInv hmax hf hframe hq records rest
        (h.micro_effect hf hframe hq hm)
      rcases hend with ⟨-, rfl⟩ | ⟨-, rfl⟩ | ⟨-, rfl⟩ | ⟨-, rfl⟩
      · exact hmicro
      · exact hmicro.countPacket
      · exact hmicro.finishConsumer .needMore
      · exact hmicro.finishConsumer .fault

/-- Where a DRAIN has ended, all is delivered and the deframer stands at the residue. -/
theorem Drains.at_end {before : List Event} (hs : Drains all residue s) (h : Inv s) (ha : s.active = .idle)
    (hstage : DrainStage before s) : deliveries s.events = all ∧ StandsAt s residue := by
  cases hs with
  | halted _ records stands => exact ⟨records, stands⟩
  | going held no_fault holds records rest =>
    cases hstage with
    | running out _ hdrain => cases ha.symm.trans hdrain
    | fault _ _ _ _ fault => exact absurd no_fault fault
    | needMore _ _ _ _ _ empty _ =>
      obtain ⟨f, q, hframe, hq, rfl⟩ := holds
      obtain rfl : q = [] := Except.ok.inj (hq.symm.trans (ringContents_of_empty empty))
      obtain ⟨hnone, hstands⟩ := h.standsAt ha no_fault empty hframe
      rw [List.append_nil] at records rest
      exact ⟨by simpa [recordsOf, hnone] using records, rest ▸ hstands⟩

end

/-- What a DRAIN that has ended returned (R127). -/
theorem DrainStage.returned {before : List Event} {s : State} (h : DrainStage before s)
    (ha : s.active = .idle) : ∃ out why, (∀ e ∈ out, ∃ p, e = .deliver p) ∧
      s.events = .returned .drain (.drained out.length why) :: (out ++ before) := by
  cases h with
  | running out _ hdrain => cases ha.symm.trans hdrain
  | needMore out hout _ hev => exact ⟨out, .needMore, hout, hev⟩
  | fault out hout _ hev => exact ⟨out, .fault, hout, hev⟩

/-- Settles O30: the passes keep what is to be delivered in all, and where the DRAIN ends nothing of it is
left to deliver; the count is that of the deliveries. -/
theorem drainDeliversParse : Obligations.DrainDeliversParse := by
  intro s stream h ha hfeed ho hf hmax hholds
  obtain ⟨n, t, hn, hrun, hinv, hidle, hkept, hstage, -, hdone⟩ :=
    run_draining (ms := [])
      (P := fun u => (65540 ≤ u.cfg.pktMax ∧ u.lkOpen = true) ∧
        Drains (deliveries s.events ++ recordsOf stream) (parse stream).2 u)
      (fun u v hu hua ⟨⟨hmax, ho⟩, hu'⟩ hp => by
        have hkept := ProducerKept.of_consumerPass hp
        exact ⟨⟨hkept.cfg ▸ hmax, hkept.lk_open.trans ho⟩, hu'.pass hu hua ho hmax hp⟩)
      h ho (.inl rfl) ⟨⟨hmax, ho⟩, .going stream hf hholds rfl rfl⟩
  have hend : AtEnd t := ⟨hidle, hkept.feeding.trans hfeed, hkept.moves⟩
  obtain ⟨hrecords, hstands⟩ := hdone.at_end hinv hidle hstage
  obtain ⟨out, why, hout, hev⟩ := hstage.returned hidle
  have hcount : out.length = (parse stream).1.length := by
    have hdelivered : deliveries s.events ++ deliveries out = deliveries s.events ++ recordsOf stream := by
      rw [← hrecords, hev, deliveries_cons_returned, deliveries_append]
    rw [← length_recordsOf, ← List.append_cancel_left hdelivered, length_deliveries hout]
  have hbegin := run_begin_drain ha (.inr rfl) (.inl rfl) (4 * (s.avail / 3) + 7)
  exact ⟨t, why, hbegin.trans (run_of_reached hrun hend hn), hend, hrecords, hstands,
    by rw [hev, hcount]; rfl⟩

end Sys2Proof.Machine
end

section
/-! SUPPORT. STEP and DRAIN pass by pass, halted and enabled: O22, O23, O24, O25, O26, O36. -/

namespace Sys2Proof.Machine

/-! ### A micro-transition does not see the operation in progress (R120, R126) -/

section
variable {s m : State} {r : MicroResult}

/-- `T_IDLE`, `T_HEADER` and `T_CONTENT` see it only if what follows their `POP_N` does. -/
theorem withPopped_withActive {n : Nat} (op : ConsumerOp)
    {go go' : List Byte → State → Except Fault (MicroResult × State)} (h : withPopped n s go = .ok (r, m))
    (hgo : ∀ bytes u, go bytes u = .ok (r, m) →
      go' bytes { u with active := op } = .ok (r, { m with active := op })) :
    withPopped n { s with active := op } go' = .ok (r, { m with active := op }) := by
  rcases withPopped_cases h with ⟨hc, rfl, rfl⟩ | ⟨hc, bytes, u, hp, hg⟩
  · exact withPopped_corrupt (s := { s with active := op }) hc n go'
  · have hc' : State.idxCorrupt { s with active := op } = false := hc
    have hp' : popBytes n { s with active := op } = .ok (bytes, { u with active := op }) := by
      obtain ⟨hlen, hread, rfl⟩ := popBytes_ok hc hp
      have hread' : readRing (State.slots { s with active := op }) s.rbMem s.rbRd
          (min n (State.avail { s with active := op })) = .ok bytes := hread
      simp only [popBytes, hc', hread', hlen]
      rfl
    simp [withPopped, hc', hp', hgo bytes u hg]

theorem tIdle_withActive (op : ConsumerOp) (h : tIdle s = .ok (r, m)) :
    tIdle { s with active := op } = .ok (r, { m with active := op }) := by
  refine withPopped_withActive op h fun bytes u hg => ?_
  split at hg
  · cases hg
    rfl
  · split at hg
    · cases hg
      rfl
    · split at hg <;> cases hg
      next hst => simp only [hst]

theorem finishPreamble_withActive (op : ConsumerOp) (h : finishPreamble s = .ok (r, m)) :
    finishPreamble { s with active := op } = .ok (r, { m with active := op }) := by
  obtain ⟨len, hlen, ⟨hbig, rfl, rfl⟩ | ⟨hfit, rfl, rfl⟩⟩ := finishPreamble_cases h
  · simp only [finishPreamble, hlen, if_pos hbig]
    rfl
  · simp only [finishPreamble, hlen, if_neg (Nat.not_lt.mpr hfit)]

theorem tHeader_withActive (op : ConsumerOp) (h : tHeader s = .ok (r, m)) :
    tHeader { s with active := op } = .ok (r, { m with active := op }) := by
  refine withPopped_withActive op h fun bytes u hg => ?_
  split at hg
  · cases hg
  next hst =>
    simp only [State.preambleIndex] at hst ⊢
    simp only [hst]
    split at hg
    · cases hg
      rw [if_pos ‹_›]
    · rw [if_neg ‹_›]
      exact finishPreamble_withActive op hg

theorem tContent_withActive (op : ConsumerOp) (h : tContent s = .ok (r, m)) :
    tContent { s with active := op } = .ok (r, { m with active := op }) := by
  refine withPopped_withActive op h fun bytes u hg => ?_
  split at hg
  · cases hg
  next hst =>
    simp only [State.contentIndex] at hst ⊢
    simp only [hst]
    split at hg <;> cases hg
    · rw [if_pos ‹_›]
    · rw [if_neg ‹_›]

theorem tComplete_withActive (op : ConsumerOp) (h : tComplete s = .ok (r, m)) :
    tComplete { s with active := op } = .ok (r, { m with active := op }) := by
  obtain ⟨raw, hraw, rfl, rfl⟩ := tComplete_cases h
  simp only [tComplete, hraw]
  rfl

theorem microTransition_of_idle (hd : s.dfState = .idle) : microTransition s = tIdle s := by
  simp [microTransition, hd]

theorem microTransition_of_complete (hd : s.dfState = .complete) : microTransition s = tComplete s := by
  simp [microTransition, hd]

theorem microTransition_withActive (op : ConsumerOp) (h : microTransition s = .ok (r, m)) :
    microTransition { s with active := op } = .ok (r, { m with active := op }) := by
  unfold microTransition at h
  split at h
  next hd =>
    exact (microTransition_of_idle (s := { s with active := op }) hd).trans (tIdle_withActive op h)
  next hd =>
    exact (microTransition_of_header (s := { s with active := op }) hd).trans (tHeader_withActive op h)
  next hd =>
    exact (microTransition_of_content (s := { s with active := op }) hd).trans (tContent_withActive op h)
  next hd =>
    exact (microTransition_of_complete (s := { s with active := op }) hd).trans (tComplete_withActive op h)

end

/-! ### What a first or a later pass leads to (R126, R127) -/

/-- What `STEP` returns where it delivers no packet (R126). -/
def DrainEnd.stepResult : DrainEnd → Result
  | .needMore => .needMore
  | .fault => .fault

theorem finishConsumer_of_step {s : State} (ha : s.active = .step) (why : DrainEnd) :
    finishConsumer s why = { s with active := .idle }.ret .step why.stepResult := by
  cases why <;> simp [finishConsumer, ha, DrainEnd.stepResult]

section
variable {s m : State}

/-- The first pass of a `STEP` and of a `DRAIN`, and a later pass of a `DRAIN`, are one pass with the
operation in progress. -/
theorem passes_of_consumerPass (ha : s.active = .idle) {next : ConsumerOp → State}
    (hpass : ∀ op, op ≠ .idle → consumerPass { s with active := op } = .next (next op)) :
    exec .step s = .next (next .step) ∧ exec .drain s = .next (next (.drain 0)) ∧
      ∀ j, consumerPass { s with active := .drain j } = .next (next (.drain j)) :=
  ⟨(beginConsumer_of_idle _ ha).trans (hpass _ (by simp)),
    (beginConsumer_of_idle _ ha).trans (hpass _ (by simp)), fun _ => hpass _ (by simp)⟩

/-- The passes that end their operation, with the block otherwise as in `m`. -/
theorem passes_that_end {why : DrainEnd} (ha : s.active = .idle) (hm : m.active = .idle)
    (hpass : ∀ op, op ≠ .idle →
      consumerPass { s with active := op } = .next (finishConsumer { m with active := op } why)) :
    exec .step s = .next { m with events := .returned .step why.stepResult :: m.events } ∧
      exec .drain s = .next { m with events := .returned .drain (.drained 0 why) :: m.events } ∧
      ∀ j, consumerPass { s with active := .drain j } =
        .next { m with events := .returned .drain (.drained j why) :: m.events } := by
  have hstep : finishConsumer { m with active := .step } why =
      { m with events := .returned .step why.stepResult :: m.events } := by
    simp [finishConsumer_of_step, State.ret, State.emit, hm]
  have hdrain : ∀ j, finishConsumer { m with active := .drain j } why =
      { m with events := .returned .drain (.drained j why) :: m.events } := fun j => by
    simp [finishConsumer_of_drain, State.ret, State.emit, hm]
  obtain ⟨h1, h2, h3⟩ := passes_of_consumerPass ha hpass
  exact ⟨hstep ▸ h1, hdrain 0 ▸ h2, fun j => hdrain j ▸ h3 j⟩

/-- `s` is an enabled block without an operation in progress: what the first micro-transition of a `STEP`
or `DRAIN` starts from. -/
structure Startable (s : State) : Prop where
  idle : s.active = .idle
  is_open : s.lkOpen = true
  no_fault : s.fault = 0

theorem Startable.idle_after (h : Startable s) {r : MicroResult} (hm : microTransition s = .ok (r, m)) :
    m.active = .idle := by
  rw [(micro_frame hm).1]
  exact h.idle

/-- A micro-transition that wants more bytes ends the operation with `NeedMore`. -/
theorem Startable.needMore (h : Startable s) (hm : microTransition s = .ok (.needMore, m)) :
    exec .step s = .next { m with events := .returned .step .needMore :: m.events } ∧
      exec .drain s = .next { m with events := .returned .drain (.drained 0 .needMore) :: m.events } ∧
      ∀ j, consumerPass { s with active := .drain j } =
        .next { m with events := .returned .drain (.drained j .needMore) :: m.events } :=
  passes_that_end (why := .needMore) h.idle (h.idle_after hm) fun op hop =>
    consumerPass_micro (s := { s with active := op }) h.is_open h.no_fault hop
      (microTransition_withActive op hm)

/-- A micro-transition that faults ends the operation with `Fault`. -/
theorem Startable.fault (h : Startable s) (hm : microTransition s = .ok (.fault, m)) :
    exec .step s = .next { m with events := .returned .step .fault :: m.events } ∧
      exec .drain s = .next { m with events := .returned .drain (.drained 0 .fault) :: m.events } ∧
      ∀ j, consumerPass { s with active := .drain j } =
        .next { m with events := .returned .drain (.drained j .fault) :: m.events } :=
  passes_that_end (why := .fault) h.idle (h.idle_after hm) fun op hop =>
    consumerPass_micro (s := { s with active := op }) h.is_open h.no_fault hop
      (microTransition_withActive op hm)

/-- After a micro-transition that makes progress the operation goes on. -/
theorem Startable.progress (h : Startable s) (hm : microTransition s = .ok (.progress, m)) :
    exec .step s = .next { m with active := .step } ∧
      exec .drain s = .next { m with active := .drain 0 } ∧
      ∀ j, consumerPass { s with active := .drain j } = .next { m with active := .drain j } :=
  passes_of_consumerPass (next := fun op => { m with active := op }) h.idle fun op hop =>
    consumerPass_micro (s := { s with active := op }) h.is_open h.no_fault hop
      (microTransition_withActive op hm)

end

/-! ### Halted (R125) -/

/-- A pass on a halted block ends its operation with `Fault`. -/
theorem consumerPass_of_halted {s : State} (ha : s.active ≠ .idle) (ho : s.lkOpen = true)
    (hf : s.fault ≠ 0) : consumerPass s = .next (finishConsumer s .fault) := by
  simp [consumerPass, ha, ho, s.faultOut_iff.mpr hf]

/-- Settles O26: the pass on a halted block makes no micro-transition. -/
theorem haltedStepAndDrain : Obligations.HaltedStepAndDrain := fun _ ha ho hf =>
  passes_that_end (why := .fault) ha ha fun _ hop => consumerPass_of_halted hop ho hf

/-- On a closed or halted block a frame's execution changes nothing (R125). -/
theorem execFrame_of_not_enabled {s : State} (h : s.lkOpen = false ∨ s.fault ≠ 0) (k : Kind)
    (raw : List Byte) : execFrame k raw s = .next s := by
  have hne : ¬ s.enabled = true := by
    rw [s.enabled_iff]
    rintro ⟨ho, hf⟩
    rcases h with hc | hne
    · simp [ho] at hc
    · exact hne hf
  exact if_neg hne

/-- Settles O36: what has a record is a frame, and its meaning begins with the test for the halt. -/
theorem haltedFrames : Obligations.HaltedFrames := by
  intro i p s hrec hhalt
  cases i with
  | push | popN | step | drain | classify | resetLink | exit => cases hrec
  | h4Command o payload => exact execFrame_of_not_enabled hhalt .command (serCommand o payload)
  | h4Acl f payload => exact execFrame_of_not_enabled hhalt .acl (serAcl f payload)
  | h4Sco f payload => exact execFrame_of_not_enabled hhalt .sco (serSco f payload)
  | h4Event e payload => exact execFrame_of_not_enabled hhalt .event (serEvent e payload)

/-! ### In `Idle` (R121) -/

/-- BAD_TYPE on a block without a fault (R181). -/
theorem State.raise_badType_of_no_fault {s : State} (hf : s.fault = 0) (t : Byte) :
    s.raise (.badType t) = { s with fault := 0b0001#4, badType := t } := by
  simp [State.raise, hf, withFaultBit, FaultCode.mask, FaultCode.bit, recordedType]

/-- FRAME_TOO_LONG on a block without a fault (R184). -/
theorem State.raise_frameTooLong_of_no_fault {s : State} (hf : s.fault = 0) :
    s.raise .frameTooLong = { s with fault := 0b1000#4 } := by
  simp [State.raise, hf, withFaultBit, FaultCode.mask, FaultCode.bit, recordedType]

/-- The type bytes that select no kind (R81). -/
theorem Kind.ofTypeByte_eq_none {t : Byte} (h : t.toNat = 0 ∨ 5 ≤ t.toNat) : Kind.ofTypeByte t = none := by
  cases hk : Kind.ofTypeByte t with
  | none => rfl
  | some k =>
    obtain rfl := Kind.typeByte_of_ofTypeByte hk
    cases k <;> simp [Kind.typeByte] at h

section
variable {s : State}

/-- The oldest byte of a ring that is not empty (R23). -/
theorem RingInv.ringContents_cons (h : RingInv s) (hav : 0 < s.avail) {t : Byte}
    (ht : memRead s.rbMem s.rbRd = some t) : ∃ q, ringContents s = .ok (t :: q) := by
  obtain ⟨q, hq⟩ := h.ringContents_total
  obtain ⟨hlen, hget⟩ := ringContents_ok_iff.mp hq
  have hfirst := hget 0 hav
  rw [State.ringIndex_zero h.rd_lt, ht] at hfirst
  cases q with
  | nil => cases hfirst
  | cons b q =>
    cases hfirst
    exact ⟨q, hq⟩

theorem RingInv.tIdle_of_empty (h : RingInv s) (hempty : s.avail = 0) : tIdle s = .ok (.needMore, s) := by
  have hrd : s.ringIndex s.rbRd 0 = s.rbRd := State.ringIndex_zero h.rd_lt
  simp [tIdle, withPopped_eq h (ringContents_of_empty hempty), hempty, State.advance, hrd]

/-- A type byte is taken alone (R121). -/
theorem min_one_avail {t : Byte} {q : List Byte} (hq : ringContents s = .ok (t :: q)) :
    min 1 s.avail = 1 := by
  have hlen := (ringContents_ok_iff.mp hq).1
  rw [List.length_cons] at hlen
  omega

theorem RingInv.tIdle_of_badType (h : RingInv s) (hf : s.fault = 0) {t : Byte} {q : List Byte}
    (hq : ringContents s = .ok (t :: q)) (hbad : Kind.ofTypeByte t = none) :
    tIdle s = .ok (.fault, { s with rbRd := s.ringIndex s.rbRd 1, badType := t, fault := 0b0001#4 }) := by
  have hraise := State.raise_badType_of_no_fault (s := s.advance 1) hf t
  simp only [tIdle, withPopped_eq h hq, List.take_succ_cons, hbad, min_one_avail hq, hraise]
  rfl

theorem RingInv.tIdle_of_typeByte (h : RingInv s) (hmax : 1 ≤ s.cfg.pktMax) {k : Kind} {q : List Byte}
    (hq : ringContents s = .ok (k.typeByte :: q)) :
    tIdle s = .ok (.progress, { s with
      rbRd := s.ringIndex s.rbRd 1, pkt := memWrite s.pkt 0 k.typeByte, dfState := .header, dfKind := k,
      dfNeeded := preambleSize k, dfCollected := 0 }) := by
  have hstore : storePkt s.cfg.pktMax s.pkt 0 [k.typeByte] = .ok (memWrite s.pkt 0 k.typeByte) := if_pos hmax
  simp only [tIdle, withPopped_eq h hq, List.take_succ_cons, Kind.ofTypeByte_typeByte, min_one_avail hq,
    hstore, List.take_zero]
  rfl

end

/-- Settles O22: what `T_IDLE` does with an empty ring, a bad type byte and a good one. -/
theorem typeBytePass : Obligations.TypeBytePass := by
  intro s h ha ho hf hd hmax
  have hstart : Startable s := ⟨ha, ho, hf⟩
  have hidle := microTransition_of_idle hd
  refine ⟨fun hempty => ?empty, fun t hav ht => ?byte⟩
  case empty => exact hstart.needMore (hidle.trans (h.tIdle_of_empty hempty))
  case byte =>
    obtain ⟨q, hq⟩ := h.ringContents_cons hav ht
    refine ⟨fun hbad => ?bad, fun k hk => ?good⟩
    case bad =>
      exact (hstart.fault (hidle.trans (h.tIdle_of_badType hf hq (Kind.ofTypeByte_eq_none hbad))) :)
    case good =>
      subst hk
      exact (hstart.progress (hidle.trans (h.tIdle_of_typeByte hmax hq)) :)

/-! ### In `Header` and `Content` (R122, R123) -/

section
variable {s : State} {q : List Byte}

/-- How many bytes a collecting pass takes. -/
theorem length_take_want (hq : ringContents s = .ok q) : (q.take s.want).length = min s.want s.avail := by
  rw [List.length_take, (ringContents_ok_iff.mp hq).1]

/-- A collecting pass fits `pkt`, whose other bytes it leaves as they are (R30, R132). -/
theorem BlockInv.collect (h : BlockInv s) (hd : s.dfState = .header ∨ s.dfState = .content)
    (hq : ringContents s = .ok q) :
    ∃ m, storePkt s.cfg.pktMax s.pkt s.pktLen (q.take s.want) = .ok m ∧ memWf m = true ∧
      ∀ a, memRead m a =
        if s.pktLen ≤ a ∧ a < s.pktLen + min s.want s.avail then
          memRead s.rbMem (s.ringIndex s.rbRd (a - s.pktLen))
        else memRead s.pkt a := by
  have hlen := length_take_want hq
  have hwant : s.want = s.dfNeeded - s.dfCollected := rfl
  have hfit : s.pktLen + (q.take s.want).length ≤ s.cfg.pktMax := by
    rw [hlen]
    rcases hd with hd | hd
    · have hph := h.deframer.phase.header hd
      have hmax := config_wf_pktMax h.cfg
      have hsize := preambleSize_bounds s.dfKind
      simp only [State.pktLen, hd]
      omega
    · obtain ⟨-, hle, hmax⟩ := h.deframer.phase.content hd
      simp only [State.pktLen, hd, frameLength] at hmax ⊢
      omega
  obtain ⟨m, hst⟩ := storePkt_total (m := s.pkt) hfit
  obtain ⟨hw, -, hread⟩ := h.stored hst
  refine ⟨m, hst, hw, fun a => ?_⟩
  rw [hread, hlen]
  split
  next hin =>
    rw [← getElem?_eq_some_getD (by omega), List.getElem?_take_of_lt (by omega)]
    exact ((ringContents_ok_iff.mp hq).2 _ (by omega)).symm
  next => rfl

end

section
variable {s : State} {len : Nat}

theorem finishPreamble_of_long (hf : s.fault = 0) (hlen : readContentLength s.dfKind s.pkt = .ok len)
    (hbig : s.cfg.pktMax < frameLength s.dfKind len) :
    finishPreamble s =
      .ok (.fault, { s with fault := 0b1000#4, dfState := .idle, dfNeeded := 0, dfCollected := 0 }) := by
  simp only [finishPreamble, hlen, if_pos hbig, State.raise_frameTooLong_of_no_fault hf]
  rfl

theorem finishPreamble_of_fit (hlen : readContentLength s.dfKind s.pkt = .ok len)
    (hfit : frameLength s.dfKind len ≤ s.cfg.pktMax) :
    finishPreamble s = .ok (.progress, { s with dfState := .content, dfNeeded := len, dfCollected := 0 }) := by
  simp only [finishPreamble, hlen, if_neg (Nat.not_lt.mpr hfit)]

end

/-- Settles O23: what `T_HEADER` does with a short preamble, and `finishPreamble` with a complete one. -/
theorem preamblePass : Obligations.PreamblePass := by
  intro s h ha ho hf hd
  have hstart : Startable s := ⟨ha, ho, hf⟩
  obtain ⟨hneeded, hcollected⟩ := h.deframer.phase.header hd
  obtain ⟨q, hq⟩ := h.ring.ringContents_total
  obtain ⟨f, hframe⟩ := h.assembled_total
  obtain ⟨m, hst, hw, hread⟩ := h.collect (.inl hd) hq
  have hwhole := h.collected_frame hframe hq hst
  rw [State.pktLen_of_header hd] at hst hread hwhole
  have hheader := (microTransition_of_header hd).trans (tHeader_eq h.ring hq hst)
  rw [length_take_want hq] at hheader
  refine ⟨min s.want s.avail, m, rfl, hw, hread, fun hshort => ?short, fun hdone => ?complete⟩
  case short => exact (hstart.needMore (hheader.trans (if_pos hshort)) :)
  case complete =>
    rw [if_neg (Nat.not_lt.mpr hdone.ge)] at hheader
    have hpre : s.preambleIndex + min s.want s.avail = 1 + preambleSize s.dfKind := by
      rw [State.preambleIndex]
      omega
    have hlen := readContentLength_of_readPkt (hpre ▸ hwhole)
    refine ⟨_, hlen, fun hbig => ?long, fun hfit => ?fits⟩
    case long =>
      exact (hstart.fault (hheader.trans (finishPreamble_of_long hf hlen hbig)) :)
    case fits => exact (hstart.progress (hheader.trans (finishPreamble_of_fit hlen hfit)) :)

/-- Settles O24: what `T_CONTENT` does with a short content and a complete one. -/
theorem contentPass : Obligations.ContentPass := by
  intro s h ha ho hf hd
  have hstart : Startable s := ⟨ha, ho, hf⟩
  obtain ⟨q, hq⟩ := h.ring.ringContents_total
  obtain ⟨m, hst, hw, hread⟩ := h.collect (.inr hd) hq
  rw [State.pktLen_of_content hd] at hst hread
  have hcontent := (microTransition_of_content hd).trans (tContent_eq h.ring hq hst)
  rw [length_take_want hq] at hcontent
  refine ⟨min s.want s.avail, m, rfl, hw, hread, fun hshort => ?short, fun hdone => ?complete⟩
  case short => exact (hstart.needMore (hcontent.trans (if_pos hshort)) :)
  case complete =>
    have hcount : s.dfCollected + min s.want s.avail = s.dfNeeded := hdone
    rw [if_neg (Nat.not_lt.mpr hdone.ge), hcount] at hcontent
    exact (hstart.progress hcontent :)

/-! ### In `Complete` (R124) -/

/-- Settles O25: the frame in assembly is what is delivered. -/
theorem deliverPass : Obligations.DeliverPass := by
  intro s h ho hf hd
  obtain ⟨raw, pre, payload, hraw, -⟩ := h.frameParts_of_complete hd
  obtain ⟨-, hcol, -⟩ := h.deframer.phase.complete hd
  obtain ⟨hlen, hget⟩ := readPkt_ok hraw
  refine ⟨raw, packetOf s.dfKind raw, ?_, fun a ha => ?_, rfl, rfl, rfl, rfl, fun ha => ?step,
    fun k ha => ?drain⟩
  · rw [hlen, State.pktLen, hd, hcol]
  · simpa using hget a (hlen ▸ ha)
  case step =>
    rw [h.deliver_pass ho hf (by simp [ha]) hd hraw]
    simp [countPacket, completeFrame, State.emit, State.toIdle, State.ret, ha]
  case drain =>
    rw [h.deliver_pass ho hf (by simp [ha]) hd hraw]
    simp [countPacket, completeFrame, State.emit, State.toIdle, ha]

end Sys2Proof.Machine
end

section
/-! SUPPORT. The end of a STEP, and what the halt holds over any step: O28, O37. -/

namespace Sys2Proof.Machine

/-! ### The passes of a STEP (R126, R133) -/

/-- An upper bound on the passes until a `STEP` ends: one for each of the deframer's states still to come
(R131). -/
def State.phasesLeft (s : State) : Nat :=
  match s.dfState with
  | .idle => 4
  | .header => 3
  | .content => 2
  | .complete => 1

theorem State.phasesLeft_le (s : State) : s.phasesLeft ≤ 4 := by
  unfold State.phasesLeft
  split <;> omega

theorem State.phasesLeft_pos (s : State) : 0 < s.phasesLeft := by
  unfold State.phasesLeft
  split <;> omega

/-- A micro-transition that makes progress leads to the next of the deframer's states (R131). -/
theorem BlockInv.phasesLeft_lt {s m : State} (h : BlockInv s) (hm : microTransition s = .ok (.progress, m)) :
    m.phasesLeft < s.phasesLeft := by
  unfold microTransition at hm
  split at hm
  next hd =>
    obtain ⟨-, hr, -⟩ | ⟨t, -, -, ⟨-, hr, -⟩ | ⟨k, -, -, -, rfl⟩⟩ :=
      tIdle_cases h.idx h.ring.rd_lt hm
    · cases hr
    · cases hr
    · simp [State.phasesLeft, hd]
  next hd =>
    obtain ⟨bytes, pkt, -, -, -, ⟨-, hr, -⟩ | ⟨-, hfin⟩⟩ := tHeader_cases h.idx hm
    · cases hr
    · obtain ⟨len, -, ⟨-, hr, -⟩ | ⟨-, -, rfl⟩⟩ := finishPreamble_cases hfin
      · cases hr
      · simp [State.phasesLeft, hd]
  next hd =>
    obtain ⟨bytes, pkt, -, -, -, ⟨-, hr, -⟩ | ⟨-, -, rfl⟩⟩ := tContent_cases h.idx hm
    · cases hr
    · simp [State.phasesLeft, hd]
  next =>
    obtain ⟨raw, -, hr, -⟩ := tComplete_cases hm
    cases hr

/-- A `STEP` on an open link, begun when the outputs were `before`, has ended: with the packet it
delivered, or without one. -/
inductive StepEnded (before : List Event) (s : State) : Prop where
  | packet (p : RawPacket) (events : s.events = .returned .step .packetComplete :: .deliver p :: before)
  | needMore (events : s.events = .returned .step .needMore :: before) (no_fault : s.fault = 0)
      (empty : s.isEmpty = true)
  | fault (events : s.events = .returned .step .fault :: before) (fault : s.fault ≠ 0)

theorem countPacket_of_step {s : State} (ha : s.active = .step) :
    countPacket s = { s with active := .idle }.ret .step .packetComplete := by
  simp [countPacket, ha]

/-- A pass of a `STEP` on an open link ends it, or brings its end nearer. -/
theorem BlockInv.step_pass {s t : State} (h : BlockInv s) (ho : s.lkOpen = true) (ha : s.active = .step)
    (hp : consumerPass s = .next t) :
    (t.active = .idle ∧ StepEnded s.events t) ∨
    (BlockInv t ∧ t.active = .step ∧ t.events = s.events ∧ t.phasesLeft < s.phasesLeft) := by
  rcases consumerPass_cases hp with ⟨hidle, -⟩ | ⟨-, hclosed, -⟩ | ⟨-, -, hf, rfl⟩ |
    ⟨-, -, hf, r, m, hm, hend⟩
  · cases ha.symm.trans hidle
  · simp [ho] at hclosed
  · rw [finishConsumer_of_step ha]
    exact .inl ⟨rfl, .fault rfl hf⟩
  · obtain ⟨f, hframe⟩ := h.assembled_total
    obtain ⟨q, hq⟩ := h.ring.ringContents_total
    obtain ⟨hinv, hact, -⟩ := micro_inv h ho hf hm
    have hstep : m.active = .step := hact.trans ha
    cases h.micro_effect hf hframe hq hm with
    | needMore _ empty _ no_fault events =>
      obtain rfl : t = finishConsumer m .needMore := by simpa using hend
      rw [finishConsumer_of_step hstep]
      exact .inl ⟨rfl, .needMore (by rw [← events]; rfl) no_fault (hinv.ring.isEmpty_iff.mpr empty)⟩
    | progress n _ _ _ events _ =>
      obtain rfl : t = m := by simpa using hend
      exact .inr ⟨hinv, hstep, events, h.phasesLeft_lt hm⟩
    | deliver _ =>
      obtain rfl : t = countPacket (completeFrame (packetOf s.dfKind f) s) := by simpa using hend
      rw [countPacket_of_step hstep]
      exact .inl ⟨rfl, .packet _ rfl⟩
    | badType x _ _ _ _ =>
      obtain rfl : t = finishConsumer ((s.advance 1).raise (.badType x)) .fault := by simpa using hend
      rw [finishConsumer_of_step hstep]
      exact .inl ⟨rfl, .fault rfl (State.raise_fault_ne _ _)⟩
    | tooLong _ fault events =>
      obtain rfl : t = finishConsumer m .fault := by simpa using hend
      rw [finishConsumer_of_step hstep]
      exact .inl ⟨rfl, .fault (by rw [← events]; rfl) fault⟩

/-- A `STEP` on an open link runs to its end within the bound. -/
theorem BlockInv.run_step (n : Nat) {s : State} (h : BlockInv s) (ho : s.lkOpen = true)
    (ha : s.active = .step) (hfeed : s.feeding = none) (hm : s.moves = []) (hn : s.phasesLeft ≤ n) :
    ∃ t, Sys2Proof.core.run n s = .next t ∧ AtEnd t ∧ StepEnded s.events t := by
  induction n generalizing s with
  | zero => exact absurd s.phasesLeft_pos (by omega)
  | succ n ih =>
    obtain ⟨t, hp⟩ := h.consumerPass_answers
    have hrun := run_of_pass n hm (by simp [ha]) hp
    have hkept := ProducerKept.of_consumerPass hp
    have hfeed' := hkept.feeding.trans hfeed
    have hm' := hkept.moves.trans hm
    rcases h.step_pass ho ha hp with ⟨hidle, hended⟩ | ⟨hinv, hstep, hev, hless⟩
    · have hend : AtEnd t := ⟨hidle, hfeed', hm'⟩
      exact ⟨t, hrun.trans (run_of_atEnd n hend), hend, hended⟩
    · obtain ⟨u, hrunt, hend, hended⟩ :=
        ih hinv (hkept.lk_open.trans ho) hstep hfeed' hm' (by omega)
      exact ⟨u, hrun.trans hrunt, hend, hev ▸ hended⟩

/-- Settles O28: on an open link each pass ends the STEP or leads to the next of four states; on a closed
one the first pass ends it. -/
theorem stepEndsWithinFourPasses : Obligations.StepEndsWithinFourPasses := by
  intro s h ha hfeed
  have hbegin := run_issue_step ha 3
  by_cases ho : s.lkOpen = true
  · obtain ⟨t, hrun, hend, hended⟩ := BlockInv.run_step 4 (s := { s with moves := [], active := .step })
      (h.withAgents s.events .step s.feeding []) ho rfl hfeed rfl (State.phasesLeft_le _)
    cases hended with
    | packet p events =>
      exact ⟨t, .packetComplete, [.deliver p], hbegin.trans hrun, hend, events, .inl ⟨rfl, p, rfl⟩⟩
    | needMore events no_fault empty =>
      exact ⟨t, .needMore, [], hbegin.trans hrun, hend, events, .inr (.inl ⟨rfl, rfl, no_fault, empty⟩)⟩
    | fault events fault =>
      exact ⟨t, .fault, [], hbegin.trans hrun, hend, events, .inr (.inr (.inl ⟨rfl, rfl, fault⟩))⟩
  · have hclosed : s.lkOpen = false := by simpa using ho
    have hpass : consumerPass { s with moves := [], active := .step } =
        .next ({ s with moves := [], active := .idle }.ret .step .closed) := by
      simp [consumerPass, closeConsumer, hclosed]
    have hend : AtEnd ({ s with moves := [], active := .idle }.ret .step .closed) := ⟨rfl, hfeed, rfl⟩
    have hrun := (run_of_pass 3 rfl (by simp) hpass).trans (run_of_atEnd 3 hend)
    exact ⟨_, .closed, [], hbegin.trans hrun, hend, rfl, .inr (.inr (.inr ⟨rfl, rfl, hclosed⟩))⟩

/-! ### The halt over any step (R125, R187, R190) -/

/-- The registers of the deframer and `pkt` are as they were. -/
structure DeframerKept (s t : State) : Prop where
  df_state : t.dfState = s.dfState
  df_kind : t.dfKind = s.dfKind
  df_needed : t.dfNeeded = s.dfNeeded
  df_collected : t.dfCollected = s.dfCollected
  pkt : t.pkt = s.pkt

/-- A transition that writes none of them. -/
theorem DeframerKept.of_frame {s t : State}
    (h : t = { s with rbMem := t.rbMem, rbWr := t.rbWr, rbRd := t.rbRd, fault := t.fault,
                      events := t.events, feeding := t.feeding, moves := t.moves }) : DeframerKept s t := by
  rw [h]
  exact ⟨rfl, rfl, rfl, rfl, rfl⟩

theorem DeframerKept.of_halted_pass {s t : State} {op : ConsumerOp} {ms : List Move} (hf : s.fault ≠ 0)
    (h : consumerPass { s with moves := ms, active := op } = .next t) : DeframerKept s t := by
  obtain ⟨-, -, -, -, -, -, -, -, -, -, hkept, -⟩ := consumerPass_frame h
  obtain ⟨hstate, hkind, hneeded, hcollected, hpkt⟩ := hkept hf
  exact ⟨hstate, hkind, hneeded, hcollected, hpkt⟩

/-- A step from a halted state keeps the deframer, or is a reset (R187, R190). -/
theorem deframerKept_of_halted {s t : State} (hstep : step s = .next t) (hf : s.fault ≠ 0) :
    DeframerKept s t ∨ t.fault = 0 := by
  obtain ⟨ms, hx | hx | ⟨op, -, hx⟩ | ⟨bytes, -, hx⟩ | ⟨w, -, hword⟩ | ⟨c, -, rfl⟩ | rfl⟩ :=
    step_cases hstep
  · exact .inl (.of_halted_pass (op := s.active) hf hx)
  · exact .inl (.of_frame (by rw [(feedPass_frame hx).1]))
  · exact .inl (.of_halted_pass hf hx)
  · exact .inl (.of_frame (by rw [(feedPass_frame hx).1]))
  · rcases hword with ⟨b, hx⟩ | ⟨n, hx⟩ | ⟨o, hx⟩ | ⟨-, hx⟩ | ⟨-, hx⟩ | rfl
    · exact .inl (.of_frame (by rw [(execPush_frame hx).1]))
    · exact .inl (.of_frame (by rw [(execPopN_frame hx).1]))
    · cases hx
      exact .inl (.of_frame rfl)
    · unfold execResetLink at hx
      split at hx <;> cases hx
      · exact .inl (.of_frame rfl)
      · exact .inr rfl
    · unfold execExit at hx
      split at hx <;> cases hx
      · exact .inl (.of_frame rfl)
      · exact .inr rfl
    · exact .inl (.of_frame rfl)
  · exact .inr rfl
  · exact .inl (.of_frame rfl)

theorem deliveries_of_none {new : List Event} (h : ∀ p, Event.deliver p ∉ new) : deliveries new = [] := by
  refine List.filterMap_eq_nil_iff.mpr fun e he => ?_
  cases e with
  | deliver p => exact absurd (List.mem_reverse.mp he) (h p)
  | returned | illegalOp | fed | dataReady => rfl

/-- Settles O37: a step delivers only where there is no fault (O42), and from a halted state only a reset
writes the deframer. -/
theorem haltHolds : Obligations.HaltHolds := by
  intro s t hstep hf
  refine ⟨?_, fun hft => ?_⟩
  · obtain ⟨new, hev, -, hdel⟩ := outputsOnlyGrow s t hstep
    have hnone : ∀ p, Event.deliver p ∉ new := fun p hp => by
      obtain ⟨-, -, -, hf₀, -⟩ := hdel p hp
      exact hf hf₀
    rw [hev, deliveries_append, deliveries_of_none hnone, List.append_nil]
  · obtain ⟨hstate, hkind, hneeded, hcollected, hpkt⟩ := (deframerKept_of_halted hstep hf).resolve_right hft
    exact ⟨hstate, hkind, hneeded, hcollected, hpkt⟩

end Sys2Proof.Machine
end

section
/-! SUPPORT. The known points of the reference table: O45. -/

namespace Sys2Proof.Machine

/-- `CLASSIFY` returns the class the table gives and changes nothing else (R150, R151). -/
theorem exec_classify (o : Half) (s : State) :
    exec (.classify o) s =
      .next { s with events := .returned (.classify o) (.classified (classOf s.cfg.ct o)) :: s.events } := rfl

/-- An admitted table has the two points of R156. -/
theorem config_wf_known_points {c : Config} (h : c.wf = true) :
    classOf c.ct 0x0C03 = .mix ∧ classOf c.ct 0x2006 = .ble := by
  simp only [Config.wf, tableWf, Bool.and_eq_true, decide_eq_true_eq] at h
  obtain ⟨-, ⟨-, hmix⟩, hble⟩ := h
  exact ⟨hmix, hble⟩

/-- Settles O45: two rows are the points every admitted table has, the third is the lookup of a group
that no entry lists. -/
theorem classifyKnownPoints : Obligations.ClassifyKnownPoints := by
  intro s hcfg
  obtain ⟨hmix, hble⟩ := config_wf_known_points hcfg
  refine ⟨by rw [exec_classify, hmix], by rw [exec_classify, hble], fun o hogf => ?_⟩
  have hunlisted : ∀ e ∈ s.cfg.ct, e.1.toNat ≠ o.toNat / 1024 := fun e he heq =>
    hogf e he (BitVec.eq_of_toNat_eq (heq.trans (ogf_toNat o).symm))
  rw [exec_classify, classOf_of_unlisted hunlisted]

end Sys2Proof.Machine
end

section
/-! SUPPORT. RESET_LINK, EXIT, and what a closed link refuses: O46, O47, O48, O49. -/

namespace Sys2Proof.Machine

theorem execResetLink_of_closed {s : State} (ho : s.lkOpen = false) :
    execResetLink s = .next (s.ret .resetLink .closed) := by
  simp [execResetLink, ho]

theorem execExit_of_closed {s : State} (ho : s.lkOpen = false) :
    execExit s = .next (s.ret .exit .closed) := by
  simp [execExit, ho]

/-- With the consumer free, an operation begun on a closed link ends in its first pass (R126, R127). -/
theorem beginConsumer_of_closed {s : State} (op : ConsumerOp) (hop : op ≠ .idle) (ha : s.active = .idle)
    (ho : s.lkOpen = false) : beginConsumer op s = .next (closeConsumer { s with active := op }) := by
  simp [beginConsumer_of_idle op ha, consumerPass, hop, ho]

/-- A `STEP` on a closed link changes nothing but to return (R126, R172). -/
theorem execStep_of_closed {s : State} (ha : s.active = .idle) (ho : s.lkOpen = false) :
    execStep s = .next (s.ret .step .closed) := by
  rw [execStep, beginConsumer_of_closed .step nofun ha ho, closeConsumer, ← ha]

/-- A `DRAIN` on a closed link changes nothing but to return (R127, R172). -/
theorem execDrain_of_closed {s : State} (ha : s.active = .idle) (ho : s.lkOpen = false) :
    execDrain s = .next (s.ret .drain .closed) := by
  rw [execDrain, beginConsumer_of_closed (.drain 0) nofun ha ho, closeConsumer, ← ha]

/-- Settles O46: the open and the closed branch of RESET_LINK. -/
theorem resetLinkMeaning : Obligations.ResetLinkMeaning :=
  fun _ => ⟨execResetLink_of_open, execResetLink_of_closed⟩

/-- Settles O47: the open and the closed branch of EXIT. -/
theorem exitMeaning : Obligations.ExitMeaning :=
  fun _ => ⟨execExit_of_open, execExit_of_closed⟩

/-- Settles O48: the closed branch of each operation; that only link-open leaves the closed state is a
clause of O40. -/
theorem closedLinkRefuses : Obligations.ClosedLinkRefuses := by
  intro s ho
  refine ⟨fun b => ?push, fun m => ?popN, fun ha => ⟨?step, ?drain⟩, ?resetLink, ?exit, fun o => ?classify,
    fun t hstep ht => ?reopened⟩
  case push => exact execPush_of_pushByte (pushByte_of_closed b ho)
  case popN => exact execPopN_of_closed m ho
  case step => exact execStep_of_closed ha ho
  case drain => exact execDrain_of_closed ha ho
  case resetLink => exact execResetLink_of_closed ho
  case exit => exact execExit_of_closed ho
  case classify => exact exec_classify o s
  case reopened =>
    obtain ⟨-, -, hreopen⟩ := linkAndConfigChanges s t hstep
    exact hreopen ho ht

/-- RESET_LINK writes again what it has written (R171). -/
theorem State.clearLink_ret_clearLink (s : State) (i : Instr) (r : Result) :
    (s.clearLink.ret i r).clearLink = s.clearLink.ret i r := rfl

/-- Settles O49: the writes of RESET_LINK are idempotent and, but for the configuration and the link,
constants. -/
theorem resetIsIdempotent : Obligations.ResetIsIdempotent := by
  intro s s' t t' ho ho' hcfg ht ht'
  obtain rfl := Host.Outcome.next.inj ((execResetLink_of_open ho).symm.trans ht)
  obtain rfl := Host.Outcome.next.inj ((execResetLink_of_open ho').symm.trans ht')
  refine ⟨?again, hcfg, rfl, rfl, rfl, rfl, rfl, rfl, ho'.trans ho.symm⟩
  case again =>
    calc exec .resetLink (s.clearLink.ret .resetLink .done)
        = .next ((s.clearLink.ret .resetLink .done).clearLink.ret .resetLink .done) :=
          execResetLink_of_open ho
      _ = .next ((s.clearLink.ret .resetLink .done).ret .resetLink .done) := by
          rw [State.clearLink_ret_clearLink]

end Sys2Proof.Machine
end

section
/-! SUPPORT. The state after link-open and after reset: O50. -/

namespace Sys2Proof.Machine

theorem State.faultOut_of_fault_eq_zero {s : State} (h : s.fault = 0) : s.faultOut = false := by
  simp [State.faultOut, h]

/-- A link-open waits for no context, so the step with it next makes it. -/
theorem step_of_linkOpen {s : State} {c : Config} {rest : List Move} (hm : s.moves = .linkOpen c :: rest) :
    step s = .next (linkOpen c { s with moves := rest }) :=
  step_of_free hm nofun

/-- A closed link takes the admitted configuration chosen for it (R167). -/
theorem openedConfig_of_closed {s : State} {c : Config} (ho : s.lkOpen = false) (hc : c.wf = true) :
    openedConfig c s = c := by
  simp [openedConfig, ho, hc]

/-- Settles O50: a link-open writes the registers of a reset, and keeps the outputs; only its
configuration depends on whether the link was closed. -/
theorem linkOpenGivesResetState : Obligations.LinkOpenGivesResetState := by
  refine ⟨fun s c rest hm => ?linkOpened, ?reset⟩
  case linkOpened =>
    have hfault : (linkOpen c { s with moves := rest }).faultOut = false :=
      State.faultOut_of_fault_eq_zero rfl
    exact ⟨_, step_of_linkOpen hm, rfl, rfl, rfl, rfl, rfl, rfl, hfault, rfl, rfl, rfl,
      openedConfig_of_closed⟩
  case reset =>
    have hfault : State.reset.faultOut = false := State.faultOut_of_fault_eq_zero rfl
    exact ⟨rfl, rfl, rfl, rfl, rfl, rfl, hfault, rfl, rfl⟩

end Sys2Proof.Machine
end
